-- ==== Sys2Proof/Word.lean ====
section
/-! DEFINITION. The widths the block computes with (00_scope.md R9): every value is an unsigned bit
vector of a stated width or a Boolean. -/

namespace Sys2Proof

/-- A request word (30_encoding.md R89). -/
abbrev Word := BitVec 16

/-- A byte of the expander port, a status byte, a command or data byte. -/
abbrev Byte := BitVec 8

/-- Half a byte: what one nibble cycle carries (20_memory.md R60). -/
abbrev Nibble := BitVec 4

end Sys2Proof
end

