-- ==== Sys2Proof/Config.lean ====
section
/-! DEFINITION. What one implementation fixes (00_scope.md R6, R7) and the free values: constants with
no body, about which nothing can be proved beyond their types. -/

namespace Sys2Proof

/-! ## Free values -/

/-- FREE VALUE (log 2). Whether the n-th bus primitive that no listed answer covers succeeds, or finds
the device present (20_memory.md R58, 93 U5). -/
opaque Config.freeOk : Nat → Bool

/-- FREE VALUE (log 2). The byte the n-th such bus primitive reads (20_memory.md R58, 93 U5). -/
opaque Config.freeByte : Nat → Byte

/-- FREE VALUE (log 4). What the AC output shows a host before the first completed status read since
reset (10_state.md R22, 93 U2). Its index is the model's choice: see `Machine.acOut`. -/
opaque Config.freeAc : Nat → BitVec 7

/-- FREE VALUE (log 6). The bus address of the expander: OPEN in the spec (20_memory.md R59, D22). -/
opaque Config.openDevAddr : BitVec 7

/-! ## Parameters -/

/-- `LAYOUT`: the bit position of each field of the expander byte (00_scope.md R6, 30_encoding.md R82).
`nib` is the position of the nibble's bit 0. -/
structure Layout where
  nib : Nat
  bl  : Nat
  en  : Nat
  rw  : Nat
  rs  : Nat
  deriving DecidableEq, Repr

/-- The layout of this hardware: nibble 7:4, backlight 3, enable 2, read-write 1, register-select 0
(30_encoding.md R80). -/
def Layout.standard : Layout := { nib := 4, bl := 3, en := 2, rw := 1, rs := 0 }

/-- A flag's position lies in the byte and outside the nibble's four bits. -/
def Layout.flagOk (L : Layout) (p : Nat) : Bool :=
  decide (p < 8) && (decide (p < L.nib) || decide (L.nib + 4 ≤ p))

/-- "the nibble occupies four adjacent bits with its order preserved and the four flags occupy the other
four bits" (30_encoding.md R82). -/
def Layout.wf (L : Layout) : Bool :=
  decide (L.nib ≤ 4) && L.flagOk L.bl && L.flagOk L.en && L.flagOk L.rw && L.flagOk L.rs &&
  decide ([L.bl, L.en, L.rw, L.rs].Nodup)

/-- The configuration record of rules R6 and R7 (00_scope.md), with the spec's defaults. A delay's width
is that of DLY (10_state.md R36), the bound's that of POLLCNT (R24), the timeout's that of BUS_TMO
(R45); see log 8. -/
structure Config where
  /-- `POLL_BOUND`: most status reads of one busy-checked send. -/
  pollBound : BitVec 5 := 20
  /-- `T_SETTLE`: settle after every bus write or read. -/
  tSettle   : BitVec 6 := 1
  /-- `T_BUS`: the per-byte timeout handed to the transport. -/
  tBus      : Byte := 200
  /-- `T_POWERON`: post-power-on settle. -/
  tPowerOn  : BitVec 6 := 45
  /-- `T_RST1`: settle after reset pulse 1. -/
  tRst1     : BitVec 6 := 5
  /-- `T_RST2`: settle after reset pulse 2. -/
  tRst2     : BitVec 6 := 1
  /-- `T_RST3`: settle after reset pulse 3. -/
  tRst3     : BitVec 6 := 1
  /-- `LAYOUT`. -/
  layout    : Layout := Layout.standard
  /-- `ROWS`: the block uses it only through `CMD_FUNCTION_SET`. -/
  rows      : Nat := 2
  /-- `COLS`: host side only. -/
  cols      : Nat := 16
  /-- `T_UNIT`: the length of a time unit, in milliseconds (D1). -/
  tUnitMs   : Nat := 1
  /-- `DEV_ADDR`: OPEN, so its default is a free value (D22). -/
  devAddr   : BitVec 7 := Config.openDevAddr
  /-- `BL`: the backlight flag of every expander byte (D12). -/
  bl        : Bool := true
  /-- `RD_NIB`: the nibble driven during a read cycle (D7). -/
  rdNib     : Nibble := 0xF
  /-- `NIB_RESET`: the nibble of a reset pulse (D13). -/
  nibReset  : Nibble := 0x3
  /-- `NIB_MODE4`: the nibble of the switch to 4-bit mode (D13). -/
  nibMode4  : Nibble := 0x2
  /-- `CMD_FUNCTION_SET`; its default depends on `ROWS` (30_encoding.md R88). -/
  cmdFunctionSet : Byte := if rows = 1 then 0x20 else 0x28
  /-- `CMD_DISPLAY_OFF`. -/
  cmdDisplayOff  : Byte := 0x08
  /-- `CMD_CLEAR`. -/
  cmdClear       : Byte := 0x01
  /-- `CMD_ENTRY_MODE`. -/
  cmdEntryMode   : Byte := 0x06
  /-- `CMD_DISPLAY_ON`. -/
  cmdDisplayOn   : Byte := 0x0C
  /-- `T_POLL_GAP`: extra delay between two polls (D19). -/
  tPollGap  : BitVec 6 := 0
  deriving DecidableEq, Repr

/-- The spec's defaults. -/
def Config.default : Config := {}

/-- A legal configuration: `POLL_BOUND` is not 0 (42_command_dispatcher.md R147 c), a settle is at least
one time unit (20_memory.md R55), the layout is one (30_encoding.md R82). -/
def Config.wf (c : Config) : Bool :=
  decide (c.pollBound ≠ 0) && decide (c.tSettle ≠ 0) && c.layout.wf

end Sys2Proof
end

