-- ==== Sys2Proof/Syntax.lean ====
section
/-! DEFINITION. The six operations a host may request (30_encoding.md R90), one constructor per row of
the opcode table, and the fields of a request word (R89). -/

namespace Sys2Proof

/-- A requested operation with its operands (30_encoding.md R90, R97). -/
inductive Instr where
  /-- `WRN n, rs, rw`: one nibble write cycle (40_nibble_transactor.md R112). -/
  | wrn (n : Nibble) (rs rw : Bool)
  /-- `RDN rs, rw`: one nibble read cycle (40_nibble_transactor.md R113). -/
  | rdn (rs rw : Bool)
  /-- `RDS`: read the status byte (41_status_reader.md R130). -/
  | rds
  /-- `SND d, rs, cb`: send a byte, with a busy poll when `cb` (42_command_dispatcher.md R140). -/
  | snd (d : Byte) (rs cb : Bool)
  /-- `INI`: the initialisation sequence (43_init_sequencer.md R160). -/
  | ini
  /-- `CLR`: clear a latched timeout (42_command_dispatcher.md R150). -/
  | clr
  deriving DecidableEq, Repr

/-- The operation names: the `op` of the sequencer pointer (10_state.md R30), `Idle` apart. -/
inductive Op where
  | wrn | rdn | rds | snd | ini | clr
  deriving DecidableEq, Repr

/-- The operation of an instruction. -/
def Instr.op : Instr → Op
  | .wrn _ _ _ => .wrn
  | .rdn _ _   => .rdn
  | .rds       => .rds
  | .snd _ _ _ => .snd
  | .ini       => .ini
  | .clr       => .clr

/-- The fields of a request word (30_encoding.md R89). -/
structure Fields where
  op   : BitVec 4
  z    : Bool
  cb   : Bool
  rw   : Bool
  rs   : Bool
  data : Byte
  deriving DecidableEq, Repr

end Sys2Proof
end

