-- ==== Sys2Proof/WellFormed.lean ====
section
/-! DEFINITION. Which field values are an operation: the `OP` value is one of six, and every field that
30_encoding.md R90 lists as "must be 0" for it is 0. The operand types of `Instr` carry the widths of the
operands, so it is a request's fields that can be ill-formed. -/

namespace Sys2Proof

/-- The fields are those of a legal request word (30_encoding.md R90, R92). -/
def Fields.wellFormed (f : Fields) : Bool :=
  match f.op.toNat with
  | 0x1 => !f.z && !f.cb && decide (f.data.toNat < 16)
  | 0x2 => !f.z && !f.cb && decide (f.data.toNat = 0)
  | 0x3 => !f.z && !f.cb && !f.rw && !f.rs && decide (f.data.toNat = 0)
  | 0x4 => !f.z && !f.rw
  | 0x5 => !f.z && !f.cb && !f.rw && !f.rs && decide (f.data.toNat = 0)
  | 0x6 => !f.z && !f.cb && !f.rw && !f.rs && decide (f.data.toNat = 0)
  | _   => false

end Sys2Proof
end

