-- ==== Sys2Proof/Decode.lean ====
section
/-! DEFINITION. Reading a request word (30_encoding.md R89 to R93) and, after it, writing one: the
decoder is total and rejects by name; the encoder is written from the same table. Then the opcode table
as masks, and the assembler's pseudo-instructions (R98). -/

namespace Sys2Proof

/-! ## Opcodes and fields -/

/-- The value of the `OP` field that selects an operation (30_encoding.md R90). -/
def Op.opcode : Op → BitVec 4
  | .wrn => 0x1
  | .rdn => 0x2
  | .rds => 0x3
  | .snd => 0x4
  | .ini => 0x5
  | .clr => 0x6

/-- The fields that carry an instruction's operands; every other field is 0 (30_encoding.md R90, R97). -/
def Instr.fields : Instr → Fields
  | .wrn n rs rw => { op := Op.opcode .wrn, z := false, cb := false, rw := rw, rs := rs, data := n.setWidth 8 }
  | .rdn rs rw   => { op := Op.opcode .rdn, z := false, cb := false, rw := rw, rs := rs, data := 0 }
  | .rds         => { op := Op.opcode .rds, z := false, cb := false, rw := false, rs := false, data := 0 }
  | .snd d rs cb => { op := Op.opcode .snd, z := false, cb := cb, rw := false, rs := rs, data := d }
  | .ini         => { op := Op.opcode .ini, z := false, cb := false, rw := false, rs := false, data := 0 }
  | .clr         => { op := Op.opcode .clr, z := false, cb := false, rw := false, rs := false, data := 0 }

/-- An instruction is well-formed when its fields are. -/
def Instr.wellFormed (i : Instr) : Bool := i.fields.wellFormed

/-- The operation an `OP` value selects: 1 to 6; the other ten select none (30_encoding.md R90, R92). -/
def Op.ofOpcode (v : BitVec 4) : Option Op :=
  if v = 0x1 then some .wrn
  else if v = 0x2 then some .rdn
  else if v = 0x3 then some .rds
  else if v = 0x4 then some .snd
  else if v = 0x5 then some .ini
  else if v = 0x6 then some .clr
  else none

/-- The must-be-zero fields of an operation are 0 (30_encoding.md R90, column "fields that must be 0"). -/
def Fields.zerosOk (f : Fields) : Op → Bool
  | .wrn => !f.z && !f.cb && decide (f.data.extractLsb' 4 4 = 0)
  | .rdn => !f.z && !f.cb && decide (f.data = 0)
  | .rds => !f.z && !f.cb && !f.rw && !f.rs && decide (f.data = 0)
  | .snd => !f.z && !f.rw
  | .ini => !f.z && !f.cb && !f.rw && !f.rs && decide (f.data = 0)
  | .clr => !f.z && !f.cb && !f.rw && !f.rs && decide (f.data = 0)

/-! ## The decoder -/

/-- Why a word is no operation (30_encoding.md R92). -/
inductive Illegal where
  /-- The `OP` value selects no operation. -/
  | opcode (v : BitVec 4)
  /-- A must-be-zero field of the operation is not 0. -/
  | notZero (op : Op)
  deriving DecidableEq, Repr

/-- The fields of a word (30_encoding.md R89). -/
def Fields.ofWord (w : Word) : Fields where
  op   := w.extractLsb' 12 4
  z    := w.getLsbD 11
  cb   := w.getLsbD 10
  rw   := w.getLsbD 9
  rs   := w.getLsbD 8
  data := w.extractLsb' 0 8

/-- The instruction of an operation, its operands taken from the fields it uses (30_encoding.md R90). -/
def Op.instr (f : Fields) : Op → Instr
  | .wrn => .wrn (f.data.extractLsb' 0 4) f.rs f.rw
  | .rdn => .rdn f.rs f.rw
  | .rds => .rds
  | .snd => .snd f.data f.rs f.cb
  | .ini => .ini
  | .clr => .clr

/-- Decode fields. -/
def Fields.decode (f : Fields) : Except Illegal Instr :=
  match Op.ofOpcode f.op with
  | none    => .error (.opcode f.op)
  | some op => if f.zerosOk op then .ok (op.instr f) else .error (.notZero op)

/-- Decode a request word: one length, one format, no mode that changes it (30_encoding.md R93). -/
def decode (w : Word) : Except Illegal Instr := (Fields.ofWord w).decode

/-- The decoder as an option: `none` where it refuses. -/
def decode? (w : Word) : Option Instr :=
  match decode w with
  | .ok i    => some i
  | .error _ => none

/-- The request word whose lowest `nbits` bits are those of `w` and whose other bits are 0. -/
def tableWord (nbits w : Nat) : Word := BitVec.ofNat 16 (w % 2 ^ nbits)

/-- What the decoder reads from an instruction given as the opcode table numbers its bits. -/
def decodeTableWord (nbits w : Nat) : Option Instr := decode? (tableWord nbits w)

/-! ## The encoder -/

/-- The word with these fields (30_encoding.md R89): `OP Z CB RW RS DATA`, most significant first. -/
def Fields.toWord (f : Fields) : Word :=
  f.op ++ BitVec.ofBool f.z ++ BitVec.ofBool f.cb ++ BitVec.ofBool f.rw ++ BitVec.ofBool f.rs ++ f.data

/-- The request word of an instruction (30_encoding.md R90, R97). -/
def encode (i : Instr) : Word := i.fields.toWord

/-! ## The opcode table as masks -/

/-- One row of the opcode map (30_encoding.md R90). -/
structure OpRow where
  op    : Op
  value : Word
  mask  : Word
  deriving DecidableEq, Repr

/-- The columns match and mask of the opcode map (30_encoding.md R90). -/
def opcodeTable : List OpRow :=
  [ { op := .wrn, value := 0x1000, mask := 0xFCF0 },
    { op := .rdn, value := 0x2000, mask := 0xFCFF },
    { op := .rds, value := 0x3000, mask := 0xFFFF },
    { op := .snd, value := 0x4000, mask := 0xFA00 },
    { op := .ini, value := 0x5000, mask := 0xFFFF },
    { op := .clr, value := 0x6000, mask := 0xFFFF } ]

/-- "A word `w` selects the row whose `w & mask == match`" (30_encoding.md R90). -/
def OpRow.selects (r : OpRow) (w : Word) : Bool := w &&& r.mask == r.value

/-! ## Pseudo-instructions (30_encoding.md R98), each exactly one `SND` -/

/-- `CMD d`: a busy-checked command. -/
def Asm.cmd (d : Byte) : Instr := .snd d false true

/-- `CMDNB d`: a command without busy check. -/
def Asm.cmdnb (d : Byte) : Instr := .snd d false false

/-- `DAT d`: busy-checked data. -/
def Asm.dat (d : Byte) : Instr := .snd d true true

/-- The set-DDRAM-address byte, `0x80 | row << 6 | column`, for rows 0 and 1 (30_encoding.md R87). -/
def setDdramAddress (row : BitVec 1) (column : Byte) : Byte :=
  0x80 ||| (row.setWidth 8 <<< 6) ||| column

/-- `GOTO r, c`. -/
def Asm.goto (row : BitVec 1) (column : Byte) : Instr := Asm.cmd (setDdramAddress row column)

/-- `CLEAR`. -/
def Asm.clear (c : Config) : Instr := Asm.cmd c.cmdClear

/-- `DISPON`. -/
def Asm.dispOn (c : Config) : Instr := Asm.cmd c.cmdDisplayOn

/-- `DISPOFF`. -/
def Asm.dispOff (c : Config) : Instr := Asm.cmd c.cmdDisplayOff

end Sys2Proof
end

