-- ==== Sys2Proof/Machine/State.lean ====
section
/-! DEFINITION. The state of the block (10_state.md R20 to R47), what the outside world presents to it
(R40 to R46), the event trace (20_memory.md R71), and the state after reset (R47). -/

namespace Sys2Proof.Machine

/-! ## Register contents -/

/-- `ControllerStatus` (10_state.md R21). -/
inductive Status where
  | ready | busy | timeout
  deriving DecidableEq, Repr

/-- How far initialisation has got (10_state.md R23). -/
inductive Phase where
  | uninit | running | operational | aborted
  deriving DecidableEq, Repr

/-- The causes that end a request early: the source's three and the spec's four refusals
(00_scope.md R13, 60_exceptions.md R200). -/
inductive Cause where
  /-- The presence probe of `INI` failed (R201). -/
  | deviceUnavailable
  /-- The busy flag did not clear within the bound; carries the last status byte (R202). -/
  | timeout (last : Byte)
  /-- A bus write or read failed (R204). -/
  | transportFailure
  /-- Refused: the operation needs `PHASE = Operational` (R205). -/
  | notInitialised
  /-- Refused: `STATUS = Timeout` and the operation is not `CLR` (R206). -/
  | timeoutLatched
  /-- Refused: `INI` while `PHASE = Operational` (R206). -/
  | initState
  /-- Refused: the word is illegal (R207). -/
  | illegalRequest
  deriving DecidableEq, Repr

/-- One primitive of an operation's pseudocode: a step of the sequencer (00_scope.md R15,
10_state.md R30). -/
inductive Micro where
  /-- `BusProbe()`, ending the operation with `DeviceUnavailable` when absent (43_init_sequencer.md R162). -/
  | probe
  /-- `BusWrite(b)` (20_memory.md R52). -/
  | write (b : Byte)
  /-- `BusRead()` (20_memory.md R53). -/
  | read
  /-- `Delay(n)` (00_scope.md R12). -/
  | delay (n : BitVec 6)
  /-- `STATUS <- v`. -/
  | setStatus (v : Status)
  /-- `PHASE <- v`. -/
  | setPhase (v : Phase)
  /-- `NIBH <-` the nibble just read (41_status_reader.md R131). -/
  | latchHigh
  /-- `AC` and `STATUS` from the recombined status byte (41_status_reader.md R131). -/
  | recordStatus
  /-- `POLLCNT <- 0` (42_command_dispatcher.md R143). -/
  | clearPolls
  /-- `POLLCNT <- POLLCNT + 1` (42_command_dispatcher.md R143, state `Poll`). -/
  | countPoll
  /-- The two tests of the poll loop and what follows: on, `Delay(T_POLL_GAP)` and the next poll, or
  `STATUS <- Timeout` (42_command_dispatcher.md R143, state `Check`, and R144). -/
  | pollTest
  /-- `raise c`, after which no other line is done: the clean-up of `INI`, then the response (00_scope.md R13,
  60_exceptions.md R214). -/
  | raise (c : Cause)
  /-- `if STATUS == Timeout: STATUS <- Ready` (42_command_dispatcher.md R150). -/
  | clearTimeout
  deriving DecidableEq, Repr

/-- The sequencer pointer `SEQ` (10_state.md R30). In flight it holds the operation, the index of the
next primitive, the primitives still to do (the continuation R30 allows) and the byte of the last bus
read, a local of the pseudocode (log 11). -/
inductive Seq where
  | idle
  | flight (op : Op) (step : Nat) (todo : List Micro) (v : Byte)
  deriving DecidableEq, Repr

/-! ## What the block does at its transport port -/

/-- The events of 20_memory.md R71, under the spec's letters, in issue order. -/
inductive Event where
  /-- `P(r)`: a probe with result `r`. -/
  | P (r : Bool)
  /-- `W(b)`: a successful write of `b`. -/
  | W (b : Byte)
  /-- `Wx(b)`: a failed write of `b`. -/
  | Wx (b : Byte)
  /-- `R(b)`: a successful read returning `b`. -/
  | R (b : Byte)
  /-- `Rx`: a failed read. -/
  | Rx
  /-- `D(n)`: a delay of at least `n > 0` time units. -/
  | D (n : Nat)
  deriving DecidableEq, Repr

/-- What the transport answers to one bus primitive: `BUS_OK` and `BUS_RDATA` (10_state.md R45). -/
structure Answer where
  ok    : Bool
  rdata : Byte
  deriving DecidableEq, Repr

/-- The transport as the block meets it: the answers it will give, in order, and how many answers past
the end of that list have been drawn from the free values (20_memory.md R58; log 2). -/
structure Transport where
  answers : List Answer
  draws   : Nat
  deriving DecidableEq, Repr

/-! ## The state -/

/-- Everything the spec gives the block, and what the outside world presents to it. -/
structure State where
  /-- The configuration (00_scope.md R6, R7); no step writes it (log 3). -/
  cfg      : Config
  /-- `STATUS` (10_state.md R21). -/
  status   : Status
  /-- `AC` (10_state.md R22). -/
  ac       : BitVec 7
  /-- `PHASE` (10_state.md R23). -/
  phase    : Phase
  /-- `RSP_CODE` (10_state.md R26). -/
  rspCode  : BitVec 3
  /-- `RSP_DATA` (10_state.md R26). -/
  rspData  : Byte
  /-- `RSP_VALID` (10_state.md R42). -/
  rspValid : Bool
  /-- `SEQ` (10_state.md R30). -/
  seq      : Seq
  /-- `POLLCNT` (10_state.md R24). -/
  pollcnt  : BitVec 5
  /-- `NIBH` (10_state.md R25). -/
  nibh     : Nibble
  /-- `DLY` (10_state.md R36). -/
  dly      : BitVec 6
  /-- `REQ` (10_state.md R20, R41). -/
  req      : Word
  /-- The `RST` input (10_state.md R40). -/
  rst      : Bool
  /-- The request words the host will present, in order: `REQ_VALID` is whether there is one, `REQ_WORD`
  the first (10_state.md R41; log 10). -/
  host     : List Word
  /-- The transport's side of the transport port (10_state.md R45; log 2). -/
  bus      : Transport
  /-- The event trace since the last `RST` (20_memory.md R71; log 9). -/
  trace    : List Event
  /-- A status read has completed since the last `RST`: the model's own bit, for 93 U2 (log 4). -/
  acRead   : Bool
  deriving DecidableEq, Repr

/-- The block right after `RST` (10_state.md R47, 70_reset_and_hazards.md R230), with the default
configuration, no request and no listed transport answer. `AC`, `POLLCNT`, `NIBH`, `DLY` and `REQ` are 0
by the model's choice (logs 4 and 5). -/
def State.reset : State where
  cfg      := Config.default
  status   := .busy
  ac       := 0
  phase    := .uninit
  rspCode  := 0
  rspData  := 0
  rspValid := false
  seq      := .idle
  pollcnt  := 0
  nibh     := 0
  dly      := 0
  req      := 0
  rst      := false
  host     := []
  bus      := { answers := [], draws := 0 }
  trace    := []
  acRead   := false

/-! ## Why a step could stop -/

/-- Reasons for the machine to stop with a fault. There are none: every way a taken request can end is a
response (60_exceptions.md R200), after which the block is idle again (R214). Safe. -/
inductive Fault
  deriving DecidableEq, Repr

/-- Reasons to give an instruction no meaning. -/
inductive Refusal where
  /-- Raised by an arm of `exec` whose instruction has no meaning yet; no arm raises it. Safe. -/
  | notModelled (mnemonic : String)
  deriving DecidableEq, Repr

end Sys2Proof.Machine
end

