-- ==== Sys2Proof/Machine/Operands.lean ====
section
/-! DEFINITION. The operand forms: the expander byte (30_encoding.md R80 to R82, 40_nibble_transactor.md
R110), the status byte (R83, R85), splitting and extracting nibbles (R84, R86), the bytes `INI` sends
(R88), and the event list of a delay (00_scope.md R12). -/

namespace Sys2Proof

/-- One line or flag as a bit of a byte: 1 is high (30_encoding.md R81). -/
abbrev Byte.ofFlag (b : Bool) : Byte := (BitVec.ofBool b).setWidth 8

/-- The five bytes of step 4 of `INI`, in order (43_init_sequencer.md R161, R166). -/
def Config.initCommands (c : Config) : List Byte :=
  [c.cmdFunctionSet, c.cmdDisplayOff, c.cmdClear, c.cmdEntryMode, c.cmdDisplayOn]

end Sys2Proof

namespace Sys2Proof.Machine

/-! ## SignalEncoder -/

/-- `ENC(nib, rs, rw, en, bl)`: the expander byte under a layout (40_nibble_transactor.md R110,
30_encoding.md R82). -/
def enc (L : Layout) (nib : Nibble) (rs rw en bl : Bool) : Byte :=
  (nib.setWidth 8 <<< L.nib) ||| (Byte.ofFlag bl <<< L.bl) ||| (Byte.ofFlag en <<< L.en) |||
    (Byte.ofFlag rw <<< L.rw) ||| (Byte.ofFlag rs <<< L.rs)

/-- The byte the block writes: "The block always passes `bl = BL`" (40_nibble_transactor.md R110). -/
def lineByte (c : Config) (nib : Nibble) (rs rw en : Bool) : Byte := enc c.layout nib rs rw en c.bl

/-- The nibble field of a byte on the expander's pins: `v[7:4]` in the standard layout
(30_encoding.md R86). -/
def nibbleField (L : Layout) (v : Byte) : Nibble := (v >>> L.nib).setWidth 4

/-! ## Bytes and nibbles -/

/-- `d[7:4]`, the nibble sent first (30_encoding.md R84). -/
def hiNibble (d : Byte) : Nibble := d.extractLsb' 4 4

/-- `d[3:0]`, the nibble sent second (30_encoding.md R84). -/
def loNibble (d : Byte) : Nibble := d.extractLsb' 0 4

/-- The status byte of two nibbles, `n1 ++ n2` (30_encoding.md R85). -/
def statusByte (n1 n2 : Nibble) : Byte := n1 ++ n2

/-- `ADDR = s[6:0]` (30_encoding.md R83). -/
def addressOf (s : Byte) : BitVec 7 := s.extractLsb' 0 7

/-- The response data of `RDN`: `0b0000 ++ nibble` (30_encoding.md R96). -/
def nibbleData (n : Nibble) : Byte := n.setWidth 8

/-! ## Delays in the trace -/

/-- `Delay(n)` as events: `D(n)`, and "`Delay(0)` takes no time and is no event" (00_scope.md R12). -/
def delayEvents (n : BitVec 6) : List Event := if n = 0 then [] else [.D n.toNat]

end Sys2Proof.Machine
end

