-- ==== Sys2Proof/Machine/Flags.lean ====
section
/-! DEFINITION. The flags: the busy flag of a status byte, the STATUS it gives, the encodings of STATUS
and PHASE, the FATAL line, and the codes and data of responses (30_encoding.md R83, R95, R96,
10_state.md R21, R23, R27). -/

namespace Sys2Proof.Machine

/-- `BF = s[7]`: 1 while the controller is busy (30_encoding.md R83). -/
def busyFlag (s : Byte) : Bool := s.getLsbD 7

/-- `STATUS <- if s[7] == 1 then Busy else Ready` (41_status_reader.md R131). -/
def statusOf (s : Byte) : Status := if busyFlag s then .busy else .ready

/-- The encoding on `STATUS[1:0]`; `0b11` is never held (10_state.md R21). -/
def Status.bits : Status → BitVec 2
  | .ready   => 0b00
  | .busy    => 0b01
  | .timeout => 0b10

/-- The encoding on `PHASE[1:0]` (10_state.md R23). -/
def Phase.bits : Phase → BitVec 2
  | .uninit      => 0b00
  | .running     => 0b01
  | .operational => 0b10
  | .aborted     => 0b11

/-- `FATAL = (STATUS == Timeout)` (10_state.md R27). -/
def fatal (s : State) : Bool := s.status == .timeout

/-- The `RSP_CODE` of a cause (30_encoding.md R95). -/
def Cause.code : Cause → BitVec 3
  | .deviceUnavailable => 1
  | .timeout _         => 2
  | .transportFailure  => 3
  | .notInitialised    => 4
  | .timeoutLatched    => 5
  | .initState         => 6
  | .illegalRequest    => 7

/-- The `RSP_DATA` of a cause: the last status byte of a timeout, else `0x00` (30_encoding.md R96). -/
def Cause.data : Cause → Byte
  | .deviceUnavailable => 0
  | .timeout last      => last
  | .transportFailure  => 0
  | .notInitialised    => 0
  | .timeoutLatched    => 0
  | .initState         => 0
  | .illegalRequest    => 0

end Sys2Proof.Machine
end

