-- ==== Sys2Proof/Machine/Ops.lean ====
section
/-! DEFINITION. The named operations every instruction is built from: the bus primitives and delays
(20_memory.md R52 to R56), taking a request and refusing it (60_exceptions.md R210), responding, taking
an exception and the return from one (R214, R215), reset (R230), and the output ports (10_state.md R41 to
R45). -/

namespace Sys2Proof.Machine

/-! ## The transport's answers (20_memory.md R58; log 2) -/

/-- The answer to the next bus primitive: the first listed one, else a free value. -/
def Transport.next (b : Transport) : Answer :=
  match b.answers with
  | a :: _ => a
  | []     => { ok := Config.freeOk b.draws, rdata := Config.freeByte b.draws }

/-- The transport after that answer. -/
def Transport.rest (b : Transport) : Transport :=
  match b.answers with
  | _ :: as => { b with answers := as }
  | []      => { b with draws := b.draws + 1 }

/-- The transport after `k` answers. -/
def Transport.after (b : Transport) : Nat → Transport
  | 0     => b
  | k + 1 => b.rest.after k

/-- The answer to the bus primitive number `k` from here, counted from 0. -/
def Transport.at (b : Transport) (k : Nat) : Answer := (b.after k).next

/-! ## Small updates -/

/-- Record events at the end of the trace. -/
def State.emit (s : State) (es : List Event) : State := { s with trace := s.trace ++ es }

/-- One answer of the transport is used up. -/
def State.used (s : State) : State := { s with bus := s.bus.rest }

/-- `Delay(n)` as one event: the event is recorded and DLY has counted down to 0 (10_state.md R36,
log 7). -/
def State.delay (s : State) (n : BitVec 6) : State :=
  { s with dly := 0, trace := s.trace ++ delayEvents n }

/-! ## Results of a body -/

/-- A body of pseudocode ends with a value, or with `raise`: "no later line of the pseudocode of that
operation, nor of any operation that called it, is executed" and the state is as the lines so far left it
(00_scope.md R13). -/
inductive Result (α : Type) where
  | ok (a : α) (s : State)
  | raised (c : Cause) (s : State)
  deriving DecidableEq, Repr

/-- Go on with the next line, unless a cause was raised. -/
def Result.andThen {α β : Type} (r : Result α) (k : α → State → Result β) : Result β :=
  match r with
  | .ok a s     => k a s
  | .raised c s => .raised c s

/-- The clean-up an operation's own rule names, on any raise (00_scope.md R13). -/
def Result.onRaise {α : Type} (r : Result α) (f : State → State) : Result α :=
  match r with
  | .ok a s     => .ok a s
  | .raised c s => .raised c (f s)

/-! ## Bus primitives -/

/-- `BusWrite(b)`: on success the byte is written and a settle follows; on failure
`raise TransportFailure` at once, no settle, no retry (20_memory.md R52, R55, R56). -/
def busWrite (b : Byte) (s : State) : Result Unit :=
  if s.bus.next.ok then .ok () ((s.used.emit [.W b]).delay s.cfg.tSettle)
  else .raised .transportFailure (s.used.emit [.Wx b])

/-- `BusRead()`: the byte on the expander's pins, then a settle; a failure as for a write
(20_memory.md R53, R55, R56). -/
def busRead (s : State) : Result Byte :=
  if s.bus.next.ok then
    .ok s.bus.next.rdata ((s.used.emit [.R s.bus.next.rdata]).delay s.cfg.tSettle)
  else .raised .transportFailure (s.used.emit [.Rx])

/-- `BusProbe()`: whether the device is present; it never raises and no settle follows
(20_memory.md R54). -/
def busProbe (s : State) : Result Bool := .ok s.bus.next.ok (s.used.emit [.P s.bus.next.ok])

/-! ## Responses and exceptions -/

/-- End a request: the response registers are written, `RSP_VALID` rises and `SEQ` is `Idle`
(10_state.md R26, R42). -/
def State.respond (s : State) (code : BitVec 3) (data : Byte) : State :=
  { s with rspCode := code, rspData := data, rspValid := true, seq := .idle }

/-- Taking an exception: "the response is written; `SEQ <- Idle`. Nothing is saved, nothing is stacked, no
mode changes, control goes nowhere" (60_exceptions.md R214). The clean-up of the operation's own rule
comes before. -/
def takeException (c : Cause) (s : State) : State := s.respond c.code c.data

/-- The return from the one latched exception: `CLR` "restores nothing but `STATUS`"
(60_exceptions.md R215, 42_command_dispatcher.md R150). -/
def returnFromTimeout (s : State) : State :=
  if s.status = .timeout then { s with status := .ready } else s

/-- The clean-up of `INI`: `PHASE <- Aborted` (43_init_sequencer.md R168). -/
def abortInit (s : State) : State := { s with phase := .aborted }

/-! ## Taking a request -/

/-- The admission check, lines 2 to 6 of 60_exceptions.md R210 (line 1, an illegal word, is the
decoder's): `none` admits. -/
def admission (op : Op) (s : State) : Option Cause :=
  if op = .clr then none
  else if s.status = .timeout then some .timeoutLatched
  else if op = .ini then
    if s.phase = .operational then some .initState else none
  else if s.phase = .operational then none else some .notInitialised

/-- A requested operation: admission, the body, the response (60_exceptions.md R210, R214). The body's
value is the response data of an `OK` (30_encoding.md R96). -/
def serve (op : Op) (body : State → Result Byte) (s : State) : State :=
  match admission op s with
  | some c => takeException c s
  | none   =>
    match body s with
    | .ok data t   => t.respond 0 data
    | .raised c t  => takeException c t

/-- A request is taken: the word is copied into `REQ`, `RSP_VALID` falls, the host goes on to its next
request (10_state.md R41, R42). -/
def State.take (s : State) (w : Word) (later : List Word) : State :=
  { s with req := w, rspValid := false, host := later }

/-! ## Reset -/

/-- `RST`: every register to its reset value and `SEQ <- Idle`, whatever was in flight (10_state.md R40,
70_reset_and_hazards.md R230, R231). The configuration, the host and the transport are not the block's
and stay; `RST` is a pulse of one step (log 10). -/
def State.applyReset (s : State) : State :=
  { State.reset with cfg := s.cfg, host := s.host, bus := s.bus }

/-- Where `step` takes its next request from: the head of the host's list, with the block idle. -/
def State.presentWord (s : State) (w : Word) : State :=
  { s with rst := false, seq := .idle, host := w :: s.host.tail }

/-! ## Output ports -/

/-- `REQ_READY = (SEQ == Idle)` (10_state.md R41). -/
def reqReady (s : State) : Bool := s.seq == .idle

/-- `REQ_VALID`: the host has a request (10_state.md R41). -/
def reqValid (s : State) : Bool := !s.host.isEmpty

/-- The response as one word, `RSP_CODE ++ RSP_DATA` (30_encoding.md R94). -/
def responseWord (s : State) : BitVec 11 := s.rspCode ++ s.rspData

/-- `STATUS[1:0]` (10_state.md R43). -/
def statusOut (s : State) : BitVec 2 := s.status.bits

/-- `PHASE[1:0]` (10_state.md R43). -/
def phaseOut (s : State) : BitVec 2 := s.phase.bits

/-- `AC[6:0]` (10_state.md R43); before the first completed status read since reset a host read "yields
any value" (R22; log 4). DESIGN CHOICE: 93 U2 calls each such read a draw, and here the free value is indexed by `bus.draws`,
so all reads between two unlisted answers of the transport show the same value (log 4). -/
def acOut (s : State) : BitVec 7 := if s.acRead then s.ac else Config.freeAc s.bus.draws

/-- The transport port's outputs (10_state.md R45). `wdata` is there only with a write (log 13). -/
structure BusOut where
  valid : Bool
  kind  : BitVec 2
  addr  : BitVec 7
  wdata : Option Byte
  tmo   : Byte
  deriving DecidableEq, Repr

/-- What the block drives on the transport port: a bus operation while the next primitive is one and no
delay is running (10_state.md R36, R45). -/
def busOut (s : State) : BusOut :=
  let quiet : BusOut := { valid := false, kind := 0b00, addr := s.cfg.devAddr, wdata := none, tmo := s.cfg.tBus }
  match s.seq with
  | .flight _ _ (.probe :: _) _   => if s.dly = 0 then { quiet with valid := true, kind := 0b01 } else quiet
  | .flight _ _ (.write b :: _) _ => if s.dly = 0 then { quiet with valid := true, kind := 0b10, wdata := some b } else quiet
  | .flight _ _ (.read :: _) _    => if s.dly = 0 then { quiet with valid := true, kind := 0b11 } else quiet
  | _ => quiet

end Sys2Proof.Machine
end

