-- ==== Sys2Proof/Machine/Transactor.lean ====
section
/-! DEFINITION. NibbleTransactor: the write and the read cycle and the operations `WRN` and `RDN`
(40_nibble_transactor.md R112 to R120). -/

namespace Sys2Proof.Machine

/-- `WRN_body` (40_nibble_transactor.md R112): the lines with enable low, high, low again. -/
def wrnBody (n : Nibble) (rs rw : Bool) (s : State) : Result Unit :=
  (busWrite (lineByte s.cfg n rs rw false) s).andThen fun _ s =>
  (busWrite (lineByte s.cfg n rs rw true) s).andThen fun _ s =>
  busWrite (lineByte s.cfg n rs rw false) s

/-- `RDN_body` (40_nibble_transactor.md R113): the pins are sampled while enable is high. -/
def rdnBody (rs rw : Bool) (s : State) : Result Nibble :=
  (busWrite (lineByte s.cfg s.cfg.rdNib rs rw false) s).andThen fun _ s =>
  (busWrite (lineByte s.cfg s.cfg.rdNib rs rw true) s).andThen fun _ s =>
  (busRead s).andThen fun v s =>
  (busWrite (lineByte s.cfg s.cfg.rdNib rs rw false) s).andThen fun _ s =>
  .ok (nibbleField s.cfg.layout v) s

/-- `WRN n, rs, rw` as a host request (40_nibble_transactor.md R112). -/
def execWrn (n : Nibble) (rs rw : Bool) (s : State) : Host.Outcome State Fault Refusal :=
  .next (serve .wrn (fun s => (wrnBody n rs rw s).andThen fun _ s => .ok 0 s) s)

/-- `RDN rs, rw` as a host request (40_nibble_transactor.md R113). -/
def execRdn (rs rw : Bool) (s : State) : Host.Outcome State Fault Refusal :=
  .next (serve .rdn (fun s => (rdnBody rs rw s).andThen fun n s => .ok (nibbleData n) s) s)

end Sys2Proof.Machine
end

