-- ==== Sys2Proof/Machine/StatusReader.lean ====
section
/-! DEFINITION. StatusReader: the status read and the operation `RDS` (41_status_reader.md R130 to
R136). -/

namespace Sys2Proof.Machine

/-- `AC` and `STATUS` are written together, from a whole status byte (41_status_reader.md R131). -/
def State.recordStatus (s : State) (b : Byte) : State :=
  { s with ac := addressOf b, acRead := true, status := statusOf b }

/-- `NIBH <- n` (10_state.md R25). -/
def State.latchHigh (s : State) (n : Nibble) : State := { s with nibh := n }

/-- `RDS_body` (41_status_reader.md R131): two read cycles with `rs = 0`, `rw = 1`, high nibble first. -/
def rdsBody (s : State) : Result Byte :=
  (rdnBody false true s).andThen fun hi s =>
  (rdnBody false true (s.latchHigh hi)).andThen fun lo s =>
  .ok (statusByte s.nibh lo) (s.recordStatus (statusByte s.nibh lo))

/-- `RDS` as a host request (41_status_reader.md R130). -/
def execRds (s : State) : Host.Outcome State Fault Refusal := .next (serve .rds rdsBody s)

end Sys2Proof.Machine
end

