-- ==== Sys2Proof/Machine/Dispatcher.lean ====
section
/-! DEFINITION. CommandDispatcher: the byte send with its busy-poll state machine, and the operations
`SND` and `CLR` (42_command_dispatcher.md R140 to R151). -/

namespace Sys2Proof.Machine

/-- `STATUS <- v`. -/
def State.setStatus (s : State) (v : Status) : State := { s with status := v }

/-- `POLLCNT <- POLLCNT + 1` (42_command_dispatcher.md R143). -/
def State.countPoll (s : State) : State := { s with pollcnt := s.pollcnt + 1 }

/-- `POLLCNT <- 0` (42_command_dispatcher.md R143). -/
def State.clearPolls (s : State) : State := { s with pollcnt := 0 }

/-- The poll loop (42_command_dispatcher.md R143, R144), the first argument bounding the polls still
allowed. Entered with `POLLCNT = 0` and `POLL_BOUND` polls allowed, the test `POLLCNT = POLL_BOUND` comes
true exactly when none is left, so the case 0 is reached only with `POLL_BOUND = 0`, which is no legal
configuration (R147 c). DESIGN CHOICE: the send then times out without a poll; `doMicro` does otherwise (log 8). -/
def pollLoop : Nat → State → Result Unit
  | 0, s     => .raised (.timeout 0) (s.setStatus .timeout)
  | k + 1, s =>
    (rdsBody s).andThen fun b s =>
    let s := s.countPoll
    if s.status = .ready then .ok () s
    else if s.pollcnt = s.cfg.pollBound then .raised (.timeout b) (s.setStatus .timeout)
    else pollLoop k (s.delay s.cfg.tPollGap)

/-- The transmit phase: `STATUS <- Busy`, then two write cycles, high nibble first, `rw = 0`
(42_command_dispatcher.md R141). -/
def transmit (d : Byte) (rs : Bool) (s : State) : Result Unit :=
  (wrnBody (hiNibble d) rs false (s.setStatus .busy)).andThen fun _ s =>
  wrnBody (loNibble d) rs false s

/-- `SND_body` (42_command_dispatcher.md R140). -/
def sndBody (d : Byte) (rs cb : Bool) (s : State) : Result Unit :=
  (transmit d rs s).andThen fun _ s =>
  if cb then pollLoop s.cfg.pollBound.toNat s.clearPolls
  else .ok () (s.setStatus .ready)

/-- `SND d, rs, cb` as a host request (42_command_dispatcher.md R140). -/
def execSnd (d : Byte) (rs cb : Bool) (s : State) : Host.Outcome State Fault Refusal :=
  .next (serve .snd (fun s => (sndBody d rs cb s).andThen fun _ s => .ok 0 s) s)

/-- `CLR` as a host request (42_command_dispatcher.md R150, R151). -/
def execClr (s : State) : Host.Outcome State Fault Refusal :=
  .next (serve .clr (fun s => .ok 0 (returnFromTimeout s)) s)

end Sys2Proof.Machine
end

