-- ==== Sys2Proof/Machine/Initializer.lean ====
section
/-! DEFINITION. InitializationSequencer: the operation `INI` (43_init_sequencer.md R160 to R172). -/

namespace Sys2Proof.Machine

/-- `PHASE <- v`. -/
def State.setPhase (s : State) (v : Phase) : State := { s with phase := v }

/-- One reset pulse: a write cycle of `NIB_RESET`, then its delay on top of the cycle's own settles
(43_init_sequencer.md R164). -/
def resetPulse (t : BitVec 6) (s : State) : Result Unit :=
  (wrnBody s.cfg.nibReset false false s).andThen fun _ s => .ok () (s.delay t)

/-- Busy-checked command sends, in order, stopping at the first that fails (43_init_sequencer.md R166,
R168). -/
def sendCommands : List Byte → State → Result Unit
  | [], s      => .ok () s
  | d :: ds, s => (sndBody d false true s).andThen fun _ s => sendCommands ds s

/-- The sequence after `PHASE <- Running`: the power-on settle, the three reset pulses, the switch to
4-bit mode, the five commands, `PHASE <- Operational` (43_init_sequencer.md R161, R163 to R167). -/
def iniSequence (s : State) : Result Unit :=
  let s := s.delay s.cfg.tPowerOn
  (resetPulse s.cfg.tRst1 s).andThen fun _ s =>
  (resetPulse s.cfg.tRst2 s).andThen fun _ s =>
  (resetPulse s.cfg.tRst3 s).andThen fun _ s =>
  (wrnBody s.cfg.nibMode4 false false s).andThen fun _ s =>
  (sendCommands s.cfg.initCommands s).andThen fun _ s =>
  .ok () (s.setPhase .operational)

/-- `INI_body` (43_init_sequencer.md R161, R162, R168). -/
def iniBody (s : State) : Result Unit :=
  (busProbe s).andThen fun present s =>
  if present then (iniSequence (s.setPhase .running)).onRaise abortInit
  else .raised .deviceUnavailable s

/-- `INI` as a host request (43_init_sequencer.md R160). -/
def execIni (s : State) : Host.Outcome State Fault Refusal :=
  .next (serve .ini (fun s => (iniBody s).andThen fun _ s => .ok 0 s) s)

end Sys2Proof.Machine
end

