-- ==== Sys2Proof/Machine/Dispatch.lean ====
section
/-! DEFINITION. One arm per instruction. -/

namespace Sys2Proof.Machine

/-- The meaning of each instruction. -/
def exec (i : Instr) (s : State) : Host.Outcome State Fault Refusal :=
  match i with
  | .wrn n rs rw => Sys2Proof.Machine.execWrn n rs rw s
  | .rdn rs rw => Sys2Proof.Machine.execRdn rs rw s
  | .rds => Sys2Proof.Machine.execRds s
  | .snd d rs cb => Sys2Proof.Machine.execSnd d rs cb s
  | .ini => Sys2Proof.Machine.execIni s
  | .clr => Sys2Proof.Machine.execClr s

end Sys2Proof.Machine
end

