-- ==== Sys2Proof/Machine/Sequencer.lean ====
section
/-! DEFINITION. The sequencer one primitive at a time (10_state.md R30 to R32, R36): each operation's
pseudocode as the list of its primitives, with called bodies in line, and the step that does the next one.
`exec` folds a whole operation into one step, as R30 allows; here the moments between are states, in which
the outputs can be sampled and `RST` can come. -/

namespace Sys2Proof.Machine

/-! ## The pseudocode as primitives -/

/-- `WRN_body` (40_nibble_transactor.md R112). -/
def wrnCode (c : Config) (n : Nibble) (rs rw : Bool) : List Micro :=
  [.write (lineByte c n rs rw false), .write (lineByte c n rs rw true), .write (lineByte c n rs rw false)]

/-- `RDN_body` (40_nibble_transactor.md R113). -/
def rdnCode (c : Config) (rs rw : Bool) : List Micro :=
  [.write (lineByte c c.rdNib rs rw false), .write (lineByte c c.rdNib rs rw true), .read,
   .write (lineByte c c.rdNib rs rw false)]

/-- `RDS_body` (41_status_reader.md R131). -/
def rdsCode (c : Config) : List Micro :=
  rdnCode c false true ++ [Micro.latchHigh] ++ rdnCode c false true ++ [Micro.recordStatus]

/-- One turn of the poll loop (42_command_dispatcher.md R143). -/
def pollCode (c : Config) : List Micro := rdsCode c ++ [Micro.countPoll, Micro.pollTest]

/-- `SND_body` (42_command_dispatcher.md R140). -/
def sndCode (c : Config) (d : Byte) (rs cb : Bool) : List Micro :=
  [Micro.setStatus .busy] ++ wrnCode c (hiNibble d) rs false ++ wrnCode c (loNibble d) rs false ++
    if cb then [Micro.clearPolls] ++ pollCode c else [Micro.setStatus .ready]

/-- `INI_body` (43_init_sequencer.md R161). -/
def iniCode (c : Config) : List Micro :=
  [Micro.probe, Micro.setPhase .running, Micro.delay c.tPowerOn] ++
  wrnCode c c.nibReset false false ++ [Micro.delay c.tRst1] ++
  wrnCode c c.nibReset false false ++ [Micro.delay c.tRst2] ++
  wrnCode c c.nibReset false false ++ [Micro.delay c.tRst3] ++
  wrnCode c c.nibMode4 false false ++
  c.initCommands.flatMap (fun d => sndCode c d false true) ++
  [Micro.setPhase .operational]

/-- The primitives of an operation. -/
def codeOf (c : Config) : Instr → List Micro
  | .wrn n rs rw => wrnCode c n rs rw
  | .rdn rs rw   => rdnCode c rs rw
  | .rds         => rdsCode c
  | .snd d rs cb => sndCode c d rs cb
  | .ini         => iniCode c
  | .clr         => [.clearTimeout]

/-! ## One step -/

/-- `Delay(n)` begins: DLY is loaded (10_state.md R36). -/
def State.startDelay (s : State) (n : BitVec 6) : State :=
  { s with dly := n, trace := s.trace ++ delayEvents n }

/-- One `TICK`: DLY counts down, never below 0 (10_state.md R36, R46). -/
def State.tick (s : State) : State := if s.dly = 0 then s else { s with dly := s.dly - 1 }

/-- The response data when the last primitive is done (30_encoding.md R96); `v` is the byte of the last
bus read. -/
def doneData (s : State) (v : Byte) : Op → Byte
  | .rdn => nibbleData (nibbleField s.cfg.layout v)
  | .rds => statusByte s.nibh (nibbleField s.cfg.layout v)
  | .wrn => 0
  | .snd => 0
  | .ini => 0
  | .clr => 0

/-- `raise c` in an operation in flight: no later line of it is done, only the raise is left
(00_scope.md R13). -/
def State.raising (s : State) (op : Op) (n : Nat) (c : Cause) (v : Byte) : State :=
  { s with seq := .flight op n [.raise c] v }

/-- Do one primitive, with `k` the primitives after it (10_state.md R31). A timeout writes `STATUS` here and its raise is a
later step, so `FATAL` rises before the response is presented (60_exceptions.md R203). A raise in a running `INI` first
writes `PHASE <- Aborted` (43_init_sequencer.md R168), then the response.

DESIGN CHOICE: what is still one step here is the model's choice, since R30 lets a model fold (log 15). A transfer is its
request, its answer and the load of `DLY` with the settle; `recordStatus` writes `AC` and `STATUS`; `pollTest` is both tests
and the register write or the delay that follows.

With `POLL_BOUND = 0`, no legal configuration (42_command_dispatcher.md R147 c), the 5-bit `POLLCNT` wraps and `pollTest`
times out at the 32nd busy poll, where `pollLoop` times out without one: both are the model's choice (log 8). -/
def doMicro (op : Op) (n : Nat) (k : List Micro) (v : Byte) (m : Micro) (s : State) : State :=
  match m with
  | .probe =>
    let t := s.used.emit [.P s.bus.next.ok]
    if s.bus.next.ok then { t with seq := .flight op n k v } else t.raising op n .deviceUnavailable v
  | .write b =>
    if s.bus.next.ok then { (s.used.emit [.W b]).startDelay s.cfg.tSettle with seq := .flight op n k v }
    else (s.used.emit [.Wx b]).raising op n .transportFailure v
  | .read =>
    let b := s.bus.next.rdata
    if s.bus.next.ok then { (s.used.emit [.R b]).startDelay s.cfg.tSettle with seq := .flight op n k b }
    else (s.used.emit [.Rx]).raising op n .transportFailure v
  | .delay d      => { s.startDelay d with seq := .flight op n k v }
  | .setStatus x  => { s.setStatus x with seq := .flight op n k v }
  | .setPhase x   => { s.setPhase x with seq := .flight op n k v }
  | .latchHigh    => { s.latchHigh (nibbleField s.cfg.layout v) with seq := .flight op n k v }
  | .recordStatus =>
    { s.recordStatus (statusByte s.nibh (nibbleField s.cfg.layout v)) with seq := .flight op n k v }
  | .clearPolls   => { s.clearPolls with seq := .flight op n k v }
  | .clearTimeout => { returnFromTimeout s with seq := .flight op n k v }
  | .countPoll    => { s.countPoll with seq := .flight op n k v }
  | .pollTest     =>
    if s.status = .ready then { s with seq := .flight op n k v }
    else if s.pollcnt = s.cfg.pollBound then
      (s.setStatus .timeout).raising op n (.timeout (statusByte s.nibh (nibbleField s.cfg.layout v))) v
    else { s.startDelay s.cfg.tPollGap with seq := .flight op n (pollCode s.cfg ++ k) v }
  | .raise c      => if s.phase = .running then (abortInit s).raising op n c v else takeException c s

/-- One step of an operation in flight: a tick while a delay runs, else the next primitive, and the
response when none is left (10_state.md R31, R36, R42). An idle sequencer does nothing. -/
def seqStep (s : State) : State :=
  match s.seq with
  | .idle => s
  | .flight op n todo v =>
    if s.dly = 0 then
      match todo with
      | []     => s.respond 0 (doneData s v op)
      | m :: k => doMicro op (n + 1) k v m s
    else s.tick

/-- A decoded request enters the sequencer: refused, or in flight at its first primitive
(60_exceptions.md R209, R210). Taking it, the admission test and a refusal's response are one step (log 15). -/
def launch (i : Instr) (s : State) : State :=
  match admission i.op s with
  | some c => takeException c s
  | none   => { s with seq := .flight i.op 0 (codeOf s.cfg i) 0 }

/-- The block one primitive at a time: `RST`, the operation in flight, or a request taken when idle. -/
def fineStep (s : State) : State :=
  if s.rst then s.applyReset
  else
    match s.seq with
    | .flight _ _ _ _ => seqStep s
    | .idle =>
      match s.host with
      | []      => s
      | w :: ws =>
        match decode w with
        | .ok i    => launch i (s.take w ws)
        | .error _ => takeException .illegalRequest (s.take w ws)

end Sys2Proof.Machine
end

