-- ==== Sys2Proof/Machine/Request.lean ====
section
/-! DEFINITION. Taking the next request (10_state.md R41): the one place where a word presented by the host
is decoded and run. -/

namespace Sys2Proof.Machine

/-- An idle block takes the request the host presents, decodes it and runs it whole; an illegal word is
refused (60_exceptions.md R210 line 1); with no request it waits (70_reset_and_hazards.md R230). -/
def serveNext (s : State) : Host.Outcome State Fault Refusal :=
  match s.host with
  | []      => .next s
  | w :: ws =>
    match decode w with
    | .ok i    => exec i (s.take w ws)
    | .error _ => .next (takeException .illegalRequest (s.take w ws))

end Sys2Proof.Machine
end

