-- ==== Sys2Proof/Machine/Step.lean ====
section
/-! DEFINITION. One step of the block: `RST` first; an operation in flight does its next primitive; an
idle block serves the next request whole (10_state.md R30, R40, R41). -/

namespace Sys2Proof.Machine

/-- One step. -/
def step (s : State) : Host.Outcome State Fault Refusal :=
  if s.rst then .next s.applyReset
  else
    match s.seq with
    | .flight _ _ _ _ => .next (seqStep s)
    | .idle           => serveNext s

/-- `s` with the request word `w` (as the opcode table numbers its bits) where `step` takes its next
request from (log 10). -/
def State.withFetchWord (s : State) (nbits w : Nat) : State := s.presentWord (tableWord nbits w)

end Sys2Proof.Machine
end

