-- ==== Sys2Proof/Safety.lean ====
section
/-! DEFINITION. What claims about runs are stated in: the events the rules give each body, what the trace
says of the lines, counts and times, and the invariant of a block at rest. -/

namespace Sys2Proof.Machine

/-! ## The events the rules give -/

/-- A successful transfer and its settle (20_memory.md R55). -/
def settled (c : Config) (e : Event) : List Event := e :: delayEvents c.tSettle

/-- `W(b0) D(1) W(b1) D(1) W(b0) D(1)` (40_nibble_transactor.md R112). -/
def wrnEvents (c : Config) (n : Nibble) (rs rw : Bool) : List Event :=
  settled c (.W (lineByte c n rs rw false)) ++ settled c (.W (lineByte c n rs rw true)) ++
  settled c (.W (lineByte c n rs rw false))

/-- `W(c0) D(1) W(c1) D(1) R(v) D(1) W(c0) D(1)` (40_nibble_transactor.md R113). -/
def rdnEvents (c : Config) (rs rw : Bool) (v : Byte) : List Event :=
  settled c (.W (lineByte c c.rdNib rs rw false)) ++ settled c (.W (lineByte c c.rdNib rs rw true)) ++
  settled c (.R v) ++ settled c (.W (lineByte c c.rdNib rs rw false))

/-- A status read with the bytes `v1`, `v2` on the bus (41_status_reader.md R131). -/
def rdsEvents (c : Config) (v1 v2 : Byte) : List Event :=
  rdnEvents c false true v1 ++ rdnEvents c false true v2

/-- The two write cycles of a byte (42_command_dispatcher.md R141). -/
def transmitEvents (c : Config) (d : Byte) (rs : Bool) : List Event :=
  wrnEvents c (hiNibble d) rs false ++ wrnEvents c (loNibble d) rs false

/-- The status byte a status read finds that starts at the transport `b`: its bus reads are the third and
the seventh of its eight bus operations (41_status_reader.md R131, 40_nibble_transactor.md R113). -/
def statusRead (c : Config) (b : Transport) : Byte :=
  statusByte (nibbleField c.layout (b.at 2).rdata) (nibbleField c.layout (b.at 6).rdata)

/-- The events of a status read that starts at the transport `b`. -/
def statusReadEvents (c : Config) (b : Transport) : List Event :=
  rdsEvents c (b.at 2).rdata (b.at 6).rdata

/-- The status byte of poll number `k`, counted from 0, of a poll loop that starts at `b`: a poll is eight
bus operations (42_command_dispatcher.md R146). -/
def pollByte (c : Config) (b : Transport) (k : Nat) : Byte := statusRead c (b.after (8 * k))

/-- The events of the first `k` polls, with `T_POLL_GAP` between two (42_command_dispatcher.md R143). -/
def pollEvents (c : Config) (b : Transport) : Nat → List Event
  | 0     => []
  | k + 1 => pollEvents c b k ++ (if k = 0 then [] else delayEvents c.tPollGap) ++
      statusReadEvents c (b.after (8 * k))

/-- The bus operations of a send that finds the controller ready at poll number `k`, counted from 0: six,
and eight a poll (42_command_dispatcher.md R146). -/
def sendOps (k : Nat) : Nat := 6 + 8 * (k + 1)

/-- The events of such a send that starts at the transport `b`. -/
def sendEvents (c : Config) (d : Byte) (rs : Bool) (b : Transport) (k : Nat) : List Event :=
  transmitEvents c d rs ++ pollEvents c (b.after 6) (k + 1)

/-- The events of the sends of the bytes `ds`, ready at the polls `ks`. -/
def sendsEvents (c : Config) : List Byte → List Nat → Transport → List Event
  | d :: ds, k :: ks, b => sendEvents c d false b k ++ sendsEvents c ds ks (b.after (sendOps k))
  | [], _, _            => []
  | _ :: _, [], _       => []

/-- The status byte of the last poll of such sends. -/
def lastPollByte (c : Config) : List Nat → Transport → Byte
  | [], _           => 0
  | [k], b          => pollByte c (b.after 6) k
  | k :: j :: ks, b => lastPollByte c (j :: ks) (b.after (sendOps k))

/-- The events of an `INI` whose five sends are ready at the polls `ks`, `b` being the transport before
the probe (43_init_sequencer.md R161). -/
def initEvents (c : Config) (ks : List Nat) (b : Transport) : List Event :=
  [Event.P true] ++ delayEvents c.tPowerOn ++
  wrnEvents c c.nibReset false false ++ delayEvents c.tRst1 ++
  wrnEvents c c.nibReset false false ++ delayEvents c.tRst2 ++
  wrnEvents c c.nibReset false false ++ delayEvents c.tRst3 ++
  wrnEvents c c.nibMode4 false false ++ sendsEvents c c.initCommands ks (b.after 13)

/-! ## The bytes the rules give -/

/-- The expander byte by its fields, most significant first: nibble, backlight, enable, read-write,
register-select (30_encoding.md R80). -/
def expByte (nib : Nibble) (bl en rw rs : Bool) : Byte :=
  nib ++ BitVec.ofBool bl ++ BitVec.ofBool en ++ BitVec.ofBool rw ++ BitVec.ofBool rs

/-- The bytes of one nibble cycle: enable low, high, low (40_nibble_transactor.md R112, R113). -/
def cycleBytes (c : Config) (nib : Nibble) (rs rw : Bool) : List Byte :=
  [expByte nib c.bl false rw rs, expByte nib c.bl true rw rs, expByte nib c.bl false rw rs]

/-- The bytes of a status read: two read cycles with `rs = 0`, `rw = 1` (41_status_reader.md R131). -/
def statusBytes (c : Config) : List Byte :=
  cycleBytes c c.rdNib false true ++ cycleBytes c c.rdNib false true

/-- The bytes of `k` polls (42_command_dispatcher.md R143). -/
def pollsBytes (c : Config) : Nat → List Byte
  | 0     => []
  | k + 1 => statusBytes c ++ pollsBytes c k

/-- The bytes of a send with `k` polls: the high, then the low nibble with `rw = 0`, then the polls
(42_command_dispatcher.md R141, R143). -/
def sendBytes (c : Config) (d : Byte) (rs : Bool) (k : Nat) : List Byte :=
  cycleBytes c (hiNibble d) rs false ++ cycleBytes c (loNibble d) rs false ++ pollsBytes c k

/-- The bytes of command sends in order, send number `j` with `polls j` polls
(43_init_sequencer.md R166). -/
def sendsBytes (c : Config) : List Byte → (Nat → Nat) → List Byte
  | [], _          => []
  | d :: ds, polls => sendBytes c d false (polls 0) ++ sendsBytes c ds (fun j => polls (j + 1))

/-- The bytes an operation that runs to its end writes, its busy-checked send number `j` making `polls j`
polls. -/
def writtenBy (c : Config) (polls : Nat → Nat) : Instr → List Byte
  | .wrn n rs rw     => cycleBytes c n rs rw
  | .rdn rs rw       => cycleBytes c c.rdNib rs rw
  | .rds             => statusBytes c
  | .snd d rs true   => sendBytes c d rs (polls 0)
  | .snd d rs false  => sendBytes c d rs 0
  | .ini             =>
    cycleBytes c c.nibReset false false ++ cycleBytes c c.nibReset false false ++
    cycleBytes c c.nibReset false false ++ cycleBytes c c.nibMode4 false false ++
    sendsBytes c c.initCommands polls
  | .clr             => []

/-! ## What the transport allows -/

/-- The next `k` bus primitives succeed. -/
def Transport.okFor (b : Transport) (k : Nat) : Prop := ∀ j, j < k → (b.at j).ok = true

/-- The transport lets a send through and the controller is first ready at poll number `k`, within the
bound (42_command_dispatcher.md R143). -/
def sendReady (c : Config) (b : Transport) (k : Nat) : Prop :=
  b.okFor (sendOps k) ∧ k < c.pollBound.toNat ∧
  (∀ j, j < k → busyFlag (pollByte c (b.after 6) j) = true) ∧ busyFlag (pollByte c (b.after 6) k) = false

/-- So for a sequence of sends. -/
def sendsReady (c : Config) : List Nat → Transport → Prop
  | [], _      => True
  | k :: ks, b => sendReady c b k ∧ sendsReady c ks (b.after (sendOps k))

/-- The transport lets a send through and every allowed poll finds the controller busy
(42_command_dispatcher.md R144). -/
def sendBusy (c : Config) (b : Transport) : Prop :=
  b.okFor (6 + 8 * c.pollBound.toNat) ∧
  ∀ j, j < c.pollBound.toNat → busyFlag (pollByte c (b.after 6) j) = true

/-! ## What a trace says -/

/-- The expander's pins after the events: the last byte written, unknown before the first write and after
a failed one (10_state.md R34). -/
def pinsAfter : Option Byte → List Event → Option Byte
  | p, []            => p
  | _, .W b :: es    => pinsAfter (some b) es
  | _, .Wx _ :: es   => pinsAfter none es
  | p, .P _ :: es    => pinsAfter p es
  | p, .R _ :: es    => pinsAfter p es
  | p, .Rx :: es     => pinsAfter p es
  | p, .D _ :: es    => pinsAfter p es

/-- Successful writes. -/
def countW : List Event → Nat
  | []          => 0
  | .W _ :: es  => countW es + 1
  | .Wx _ :: es => countW es
  | .P _ :: es  => countW es
  | .R _ :: es  => countW es
  | .Rx :: es   => countW es
  | .D _ :: es  => countW es

/-- Successful reads. -/
def countR : List Event → Nat
  | []          => 0
  | .R _ :: es  => countR es + 1
  | .W _ :: es  => countR es
  | .Wx _ :: es => countR es
  | .P _ :: es  => countR es
  | .Rx :: es   => countR es
  | .D _ :: es  => countR es

/-- The least time the events take, in time units, the transport's own time apart
(70_reset_and_hazards.md R251). -/
def minTime : List Event → Nat
  | []          => 0
  | .D n :: es  => n + minTime es
  | .W _ :: es  => minTime es
  | .Wx _ :: es => minTime es
  | .P _ :: es  => minTime es
  | .R _ :: es  => minTime es
  | .Rx :: es   => minTime es

/-- The same in milliseconds (00_scope.md R7, `T_UNIT`). -/
def minMillis (c : Config) (es : List Event) : Nat := minTime es * c.tUnitMs

/-- The enable line in a byte of the expander (30_encoding.md R81). -/
def enHigh (c : Config) (b : Byte) : Bool := b.getLsbD c.layout.en

/-- The backlight line in a byte of the expander (30_encoding.md R81). -/
def blHigh (c : Config) (b : Byte) : Bool := b.getLsbD c.layout.bl

/-- Enable pulses: successful writes with the enable line high (40_nibble_transactor.md R114). -/
def enablePulses (c : Config) : List Event → Nat
  | []          => 0
  | .W b :: es  => enablePulses c es + (if enHigh c b then 1 else 0)
  | .Wx _ :: es => enablePulses c es
  | .P _ :: es  => enablePulses c es
  | .R _ :: es  => enablePulses c es
  | .Rx :: es   => enablePulses c es
  | .D _ :: es  => enablePulses c es

/-- The event begins a delay of at least `n`. -/
def startsWithDelay (n : Nat) : List Event → Bool
  | .D m :: _ => decide (n ≤ m)
  | _         => false

/-- Every successful transfer is followed at once by a delay of at least `n` (20_memory.md R55). -/
def spaced (n : Nat) : List Event → Bool
  | []          => true
  | .W _ :: es  => startsWithDelay n es && spaced n es
  | .R _ :: es  => startsWithDelay n es && spaced n es
  | .P _ :: es  => spaced n es
  | .Wx _ :: es => spaced n es
  | .Rx :: es   => spaced n es
  | .D _ :: es  => spaced n es

/-- The event is a failed transfer. -/
def Event.failed : Event → Bool
  | .Wx _ => true
  | .Rx   => true
  | .P _  => false
  | .W _  => false
  | .R _  => false
  | .D _  => false

/-- The event is a probe. -/
def Event.isProbe : Event → Bool
  | .P _  => true
  | .W _  => false
  | .Wx _ => false
  | .R _  => false
  | .Rx   => false
  | .D _  => false

/-- The byte the event puts, or tries to put, on the expander's pins. -/
def Event.written : Event → Option Byte
  | .W b  => some b
  | .Wx b => some b
  | .P _  => none
  | .R _  => none
  | .Rx   => none
  | .D _  => none

/-! ## Running the sequencer -/

/-- `n` single steps of the block (10_state.md R31). -/
def fineRun : Nat → State → State
  | 0, s     => s
  | n + 1, s => fineRun n (fineStep s)

/-! ## The block at rest -/

/-- What holds between requests (10_state.md R49), in terms of registers, the trace since `RST` and the
model's bit for "a status read has completed". -/
structure AtRest (s : State) : Prop where
  /-- No operation is in flight and no delay is running. -/
  idle        : s.seq = .idle
  noDelay     : s.dly = 0
  /-- R49 (c): `PHASE` is not `Running`. -/
  notRunning  : s.phase ≠ .running
  /-- R49 (e): with `PHASE = Uninit` no transfer has been issued since reset, only probes. -/
  onlyProbes  : s.phase = .uninit → ∀ e ∈ s.trace, e.isProbe = true
  /-- With `PHASE = Uninit` the controller is still taken to be busy. -/
  uninitBusy  : s.phase = .uninit → s.status = .busy
  /-- An operational block has read a status: its `INI` polled. -/
  operRead    : s.phase = .operational → s.acRead = true
  /-- A latched timeout comes from a poll. -/
  timeoutRead : s.status = .timeout → s.acRead = true
  /-- The configuration is legal. -/
  legal       : s.cfg.wf = true

end Sys2Proof.Machine
end

