-- ==== Sys2Proof/Certificates/Slice0/Obligations.lean ====
section
/-! DEFINITION. The statements, in the order of OBLIGATIONS.json: encodings, reset and the step, the result
of each operation, its failures, frames, admission, rules about every operation, invariants, and the
sequencer. Each docstring names the rule of the spec it formalises; where a rule is one of the spec's own
decisions, it names the decision. -/

open Sys2Proof Sys2Proof.Machine

/-! ## Encodings -/

/-- 30_encoding.md section 5: a word decodes to an instruction exactly when it is that well-formed
instruction's encoding; so decoding an encoded instruction gives it back with every operand, and no word
has a second reading. -/
def Obligations.DecodeInvertsEncode : Prop :=
  ∀ (w : Word) (i : Instr), decode w = .ok i ↔ (i.wellFormed = true ∧ encode i = w)

/-- 30_encoding.md section 5: "A word `w` selects the row whose `w & mask == match`; the masks are such that
at most one row matches." -/
def Obligations.DecodeFollowsOpcodeTable : Prop :=
  (∀ r ∈ opcodeTable, ∀ w : Word, r.selects w = true ↔ ∃ i, decode w = .ok i ∧ i.op = r.op) ∧
  (∀ r ∈ opcodeTable, ∀ r' ∈ opcodeTable, ∀ w : Word,
    r.selects w = true → r'.selects w = true → r = r')

/-- 30_encoding.md section 7: the word of each operation as a formula of its operands. -/
def Obligations.WordsOfInstructions : Prop :=
  (∀ n rs rw, encode (.wrn n rs rw) =
    0x1000 ||| ((BitVec.ofBool rw).setWidth 16 <<< 9) ||| ((BitVec.ofBool rs).setWidth 16 <<< 8) ||| n.setWidth 16) ∧
  (∀ rs rw, encode (.rdn rs rw) =
    0x2000 ||| ((BitVec.ofBool rw).setWidth 16 <<< 9) ||| ((BitVec.ofBool rs).setWidth 16 <<< 8)) ∧
  encode .rds = 0x3000 ∧
  (∀ d rs cb, encode (.snd d rs cb) =
    0x4000 ||| ((BitVec.ofBool cb).setWidth 16 <<< 10) ||| ((BitVec.ofBool rs).setWidth 16 <<< 8) ||| d.setWidth 16) ∧
  encode .ini = 0x5000 ∧ encode .clr = 0x6000

/-- 95_test_vectors.md section 2.3: words written out from the encoding decode to what they stand for, and
others are illegal. -/
def Obligations.SampleWordsDecode : Prop :=
  decode 0b0001000000000011 = .ok (.wrn 0x3 false false) ∧
  decode 0b0001001100000010 = .ok (.wrn 0x2 true true) ∧
  decode 0b0010001000000000 = .ok (.rdn false true) ∧
  decode 0b0011000000000000 = .ok .rds ∧
  decode 0b0100000101001000 = .ok (.snd 0x48 true false) ∧
  decode 0b0100010011000000 = .ok (.snd 0xC0 false true) ∧
  decode 0b0101000000000000 = .ok .ini ∧
  decode 0b0110000000000000 = .ok .clr ∧
  decode 0x7000 = .error (.opcode 0x7) ∧ decode 0x1013 = .error (.notZero .wrn) ∧
  decode 0x4200 = .error (.notZero .snd) ∧ decode 0x6100 = .error (.notZero .clr)

/-- R98 (decision D31): each pseudo-instruction is one `SND`, with the word of its table. -/
def Obligations.PseudoInstructionWords : Prop :=
  (∀ d : Byte, Asm.cmd d = .snd d false true ∧ encode (Asm.cmd d) = 0x4400 ||| d.setWidth 16) ∧
  (∀ d : Byte, Asm.cmdnb d = .snd d false false ∧ encode (Asm.cmdnb d) = 0x4000 ||| d.setWidth 16) ∧
  (∀ d : Byte, Asm.dat d = .snd d true true ∧ encode (Asm.dat d) = 0x4500 ||| d.setWidth 16) ∧
  (∀ (r : BitVec 1) (c : Byte), Asm.goto r c = Asm.cmd (0x80 ||| (r.setWidth 8 <<< 6) ||| c) ∧
    encode (Asm.goto r c) = 0x4480 ||| (r.setWidth 16 <<< 6) ||| c.setWidth 16) ∧
  (∀ g : Config, Asm.clear g = Asm.cmd g.cmdClear ∧ Asm.dispOn g = Asm.cmd g.cmdDisplayOn ∧
    Asm.dispOff g = Asm.cmd g.cmdDisplayOff) ∧
  encode (Asm.clear Config.default) = 0x4401 ∧ encode (Asm.dispOn Config.default) = 0x440C ∧
  encode (Asm.dispOff Config.default) = 0x4408

/-- R110: `ENC(nib, rs, rw, en, bl) = nib ++ bl ++ en ++ rw ++ rs`, equal to the formula with shifts, total and
injective, and the block passes `bl = BL`. In the layout of this hardware. -/
def Obligations.EncoderFormat : Prop :=
  (∀ (n : Nibble) (rs rw en bl : Bool),
    enc Layout.standard n rs rw en bl =
      n ++ BitVec.ofBool bl ++ BitVec.ofBool en ++ BitVec.ofBool rw ++ BitVec.ofBool rs ∧
    enc Layout.standard n rs rw en bl =
      (n.setWidth 8 <<< 4) ||| (Byte.ofFlag bl <<< 3) ||| (Byte.ofFlag en <<< 2) ||| (Byte.ofFlag rw <<< 1) |||
        Byte.ofFlag rs) ∧
  (∀ (n n' : Nibble) (rs rs' rw rw' en en' bl bl' : Bool),
    enc Layout.standard n rs rw en bl = enc Layout.standard n' rs' rw' en' bl' →
      n = n' ∧ rs = rs' ∧ rw = rw' ∧ en = en' ∧ bl = bl') ∧
  (∀ (c : Config) (n : Nibble) (rs rw en : Bool), lineByte c n rs rw en = enc c.layout n rs rw en c.bl)

/-- 30_encoding.md section 1, R82: in every legal layout each field of the byte reads back. -/
def Obligations.EncoderReadsBackInEveryLayout : Prop :=
  ∀ (L : Layout), L.wf = true → ∀ (n : Nibble) (rs rw en bl : Bool),
    nibbleField L (enc L n rs rw en bl) = n ∧
    (enc L n rs rw en bl).getLsbD L.rs = rs ∧ (enc L n rs rw en bl).getLsbD L.rw = rw ∧
    (enc L n rs rw en bl).getLsbD L.en = en ∧ (enc L n rs rw en bl).getLsbD L.bl = bl

/-- R85: "the status byte is `s = n1 ++ n2 = (n1 << 4) | n2`; `BF = s[7] = n1[3]`; `ADDR = s[6:0]`". -/
def Obligations.StatusByteRecombined : Prop :=
  ∀ n1 n2 : Nibble,
    statusByte n1 n2 = n1 ++ n2 ∧
    statusByte n1 n2 = (n1.setWidth 8 <<< 4) ||| n2.setWidth 8 ∧
    busyFlag (statusByte n1 n2) = (statusByte n1 n2).getLsbD 7 ∧
    busyFlag (statusByte n1 n2) = n1.getLsbD 3 ∧
    addressOf (statusByte n1 n2) = (statusByte n1 n2).extractLsb' 0 7

/-! ## Reset and the step -/

/-- 10_state.md section 8 (R47, decision D21): the values the spec gives for reset. The values of AC, POLLCNT,
NIBH, DLY and REQ are the model's own (logs 4 and 5) and not stated. -/
def Obligations.ResetValues : Prop :=
  State.reset.status = .busy ∧ State.reset.phase = .uninit ∧
  State.reset.rspCode = 0 ∧ State.reset.rspData = 0 ∧ State.reset.rspValid = false ∧
  State.reset.seq = .idle ∧ reqReady State.reset = true ∧ fatal State.reset = false ∧
  (busOut State.reset).valid = false ∧ (busOut State.reset).kind = 0b00

/-- 10_state.md sections 7 and 8, 70_reset_and_hazards.md section 1 (R40, R47, R231; decision D2): `RST` asserted puts every
register with a reset value to it and `SEQ` to idle, whatever was in flight, and that step issues no bus operation. That
the transport's answers stay as they are (`t.bus = s.bus`) is the model's choice (log 10). -/
def Obligations.ResetFromAnyState : Prop :=
  ∀ s : State, s.rst = true → ∃ t, step s = .next t ∧
    t.status = .busy ∧ t.phase = .uninit ∧ t.rspCode = 0 ∧ t.rspData = 0 ∧ t.rspValid = false ∧
    t.seq = .idle ∧ reqReady t = true ∧ fatal t = false ∧ (busOut t).valid = false ∧ (busOut t).kind = 0b00 ∧
    t.bus = s.bus

/-- 10_state.md sections 2 and 7 (R21, R23, R27, R41 to R43): the encodings on the output ports. `STATUS` never shows `0b11`;
`FATAL` is `STATUS = Timeout`; `REQ_READY` is an idle sequencer; the `AC` port shows the register once a status read has
completed, by the model's bit (log 4). -/
def Obligations.OutputPortsShowTheRegisters : Prop :=
  ∀ s : State,
    (statusOut s = 0b00 ↔ s.status = .ready) ∧ (statusOut s = 0b01 ↔ s.status = .busy) ∧
    (statusOut s = 0b10 ↔ s.status = .timeout) ∧ statusOut s ≠ 0b11 ∧
    (phaseOut s = 0b00 ↔ s.phase = .uninit) ∧ (phaseOut s = 0b01 ↔ s.phase = .running) ∧
    (phaseOut s = 0b10 ↔ s.phase = .operational) ∧ (phaseOut s = 0b11 ↔ s.phase = .aborted) ∧
    (fatal s = true ↔ s.status = .timeout) ∧ (reqReady s = true ↔ s.seq = .idle) ∧
    responseWord s = s.rspCode ++ s.rspData ∧ (s.acRead = true → acOut s = s.ac)

/-- 70_reset_and_hazards.md section 1: an idle block with no request waits, unchanged. -/
def Obligations.IdleBlockWaits : Prop :=
  ∀ s : State, s.rst = false → s.seq = .idle → s.host = [] → step s = .next s

/-- 10_state.md section 7: an idle block takes the request presented, its word into `REQ` and `RSP_VALID` low, and
the step is the meaning of the instruction it decodes to; the same for a word placed by `withFetchWord`. -/
def Obligations.StepRunsDecodedRequest : Prop :=
  (∀ (s : State) (w : Word) (ws : List Word) (i : Instr),
    s.rst = false → s.seq = .idle → s.host = w :: ws → decode w = .ok i →
      step s = exec i { s with req := w, rspValid := false, host := ws }) ∧
  (∀ (s : State) (nbits w : Nat) (i : Instr), decodeTableWord nbits w = some i →
    step (s.withFetchWord nbits w) =
      exec i { s with rst := false, seq := .idle, req := tableWord nbits w, rspValid := false,
                      host := s.host.tail })

/-- R42 (decision D4): "Exactly one response follows each taken request, whether the request was executed,
failed or was refused": the step that takes it ends idle, with the response valid. -/
def Obligations.OneResponsePerRequest : Prop :=
  ∀ (s : State) (w : Word) (ws : List Word), s.rst = false → s.seq = .idle → s.host = w :: ws →
    ∃ t, step s = .next t ∧ t.rspValid = true ∧ t.seq = .idle ∧ t.req = w ∧ t.host = ws

/-- R92 and R207 (decision D24): a word is legal exactly when it matches a row of the opcode map; a word that is not is
refused with code 7 and data `0x00` in every PHASE and STATUS, and nothing but the response (and `REQ`) changes;
`0x0000` and `0xFFFF` are such words. -/
def Obligations.IllegalWordRefused : Prop :=
  (∀ w : Word, (Fields.ofWord w).wellFormed = true ↔
    (w &&& 0xFCF0 = 0x1000 ∨ w &&& 0xFCFF = 0x2000 ∨ w = 0x3000 ∨ w &&& 0xFA00 = 0x4000 ∨ w = 0x5000 ∨ w = 0x6000)) ∧
  (∀ (s : State) (w : Word) (ws : List Word), s.rst = false → s.seq = .idle → s.host = w :: ws →
    (Fields.ofWord w).wellFormed = false →
      step s = .next { s with req := w, host := ws, rspCode := 7, rspData := 0, rspValid := true }) ∧
  (Fields.ofWord 0x0000).wellFormed = false ∧ (Fields.ofWord 0xFFFF).wellFormed = false

/-! ## Results of the operations -/

/-- 40_nibble_transactor.md section 2 (R112): an admitted `WRN` whose three writes succeed writes the lines with
enable low, high, low, each followed by its settle, and responds `OK` with `0x00`; nothing else changes. `DLY = 0` at idle is the model's choice
(logs 5 and 7). -/
def Obligations.WrnCompletes : Prop :=
  ∀ (s : State) (n : Nibble) (rs rw : Bool),
    s.phase = .operational → s.status ≠ .timeout → s.bus.okFor 3 →
    exec (.wrn n rs rw) s = .next { s with
      bus := s.bus.after 3, dly := 0, seq := .idle, rspCode := 0, rspData := 0, rspValid := true,
      trace := s.trace ++
        settled s.cfg (.W (enc s.cfg.layout n rs rw false s.cfg.bl)) ++
        settled s.cfg (.W (enc s.cfg.layout n rs rw true s.cfg.bl)) ++
        settled s.cfg (.W (enc s.cfg.layout n rs rw false s.cfg.bl)) }

/-- 40_nibble_transactor.md section 3 (R113, decision D7): an admitted `RDN` whose four bus operations succeed samples
the pins between the second and the third write and responds `OK` with the nibble; nothing else changes. `DLY = 0` at
idle is the model's choice (logs 5 and 7). -/
def Obligations.RdnCompletes : Prop :=
  ∀ (s : State) (rs rw : Bool),
    s.phase = .operational → s.status ≠ .timeout → s.bus.okFor 4 →
    exec (.rdn rs rw) s = .next { s with
      bus := s.bus.after 4, dly := 0, seq := .idle, rspCode := 0,
      rspData := (nibbleField s.cfg.layout (s.bus.at 2).rdata).setWidth 8, rspValid := true,
      trace := s.trace ++
        settled s.cfg (.W (enc s.cfg.layout s.cfg.rdNib rs rw false s.cfg.bl)) ++
        settled s.cfg (.W (enc s.cfg.layout s.cfg.rdNib rs rw true s.cfg.bl)) ++
        settled s.cfg (.R (s.bus.at 2).rdata) ++
        settled s.cfg (.W (enc s.cfg.layout s.cfg.rdNib rs rw false s.cfg.bl)) }

/-- 41_status_reader.md (R130, R131): an admitted `RDS` whose eight bus operations succeed recombines the two
nibbles, high first, writes `AC`, `STATUS` and `NIBH` from the status byte and responds `OK` with it; nothing
else changes. That `NIBH` still holds the nibble at idle, where R20 and U16 give it any value, and `DLY = 0` there are
the model's choice (logs 5 and 7), and `acRead` is the model's own bit (log 4). -/
def Obligations.RdsCompletes : Prop :=
  ∀ s : State, s.phase = .operational → s.status ≠ .timeout → s.bus.okFor 8 →
    exec .rds s = .next { s with
      bus := s.bus.after 8, dly := 0, seq := .idle, rspCode := 0,
      rspData := nibbleField s.cfg.layout (s.bus.at 2).rdata ++ nibbleField s.cfg.layout (s.bus.at 6).rdata,
      rspValid := true, acRead := true,
      nibh := nibbleField s.cfg.layout (s.bus.at 2).rdata,
      ac := (nibbleField s.cfg.layout (s.bus.at 2).rdata ++
        nibbleField s.cfg.layout (s.bus.at 6).rdata : BitVec 8).extractLsb' 0 7,
      status := if (nibbleField s.cfg.layout (s.bus.at 2).rdata).getLsbD 3 then .busy else .ready,
      trace := s.trace ++ rdnEvents s.cfg false true (s.bus.at 2).rdata ++
        rdnEvents s.cfg false true (s.bus.at 6).rdata }

/-- 42_command_dispatcher.md section 1 (R141, R142): an admitted `SND` without busy check whose six writes succeed
sends the high nibble, then the low one, with `rw = 0`, leaves `STATUS` `Ready` without a status read and
responds `OK`; nothing else changes, `AC` in particular. `DLY = 0` at idle is the model's choice (logs 5 and 7). -/
def Obligations.SndUncheckedCompletes : Prop :=
  ∀ (s : State) (d : Byte) (rs : Bool),
    s.phase = .operational → s.status ≠ .timeout → s.bus.okFor 6 →
    exec (.snd d rs false) s = .next { s with
      bus := s.bus.after 6, dly := 0, seq := .idle, rspCode := 0, rspData := 0, rspValid := true,
      status := .ready,
      trace := s.trace ++ wrnEvents s.cfg (d.extractLsb' 4 4) rs false ++
        wrnEvents s.cfg (d.extractLsb' 0 4) rs false }

/-- 42_command_dispatcher.md section 1 (R141, R143): an admitted busy-checked `SND` that the controller answers ready
at poll number `k` (from 0, within the bound) sends the byte, makes `k + 1` status reads and no more, leaves
`STATUS` `Ready` and `AC` from the last poll, and responds `OK`. The values of `NIBH`, `POLLCNT` and `DLY` at idle are the
model's choice (logs 5 and 7), since R20 and U16 give any value there and by R219 `POLLCNT` does not survive an operation;
`acRead` is the model's own bit (log 4). -/
def Obligations.SndCheckedCompletes : Prop :=
  ∀ (s : State) (d : Byte) (rs : Bool) (k : Nat),
    s.phase = .operational → s.status ≠ .timeout → sendReady s.cfg s.bus k →
    exec (.snd d rs true) s = .next { s with
      bus := s.bus.after (sendOps k), dly := 0, seq := .idle, rspCode := 0, rspData := 0, rspValid := true,
      status := .ready, ac := addressOf (pollByte s.cfg (s.bus.after 6) k), acRead := true,
      nibh := hiNibble (pollByte s.cfg (s.bus.after 6) k), pollcnt := BitVec.ofNat 5 (k + 1),
      trace := s.trace ++ transmitEvents s.cfg d rs ++ pollEvents s.cfg (s.bus.after 6) (k + 1) }

/-- 42_command_dispatcher.md section 1 (R144): when every one of the `POLL_BOUND` polls finds the busy flag set, the
request ends with code 2 and the last status byte, `STATUS = Timeout`, `FATAL` high, `AC` from the last poll, `PHASE`
unchanged, and no further bus operation. The values of `NIBH`, `POLLCNT` and `DLY` at idle are the model's choice (logs 5
and 7; R20, U16, R219 leave them open), and `acRead` is the model's own bit (log 4). -/
def Obligations.SndTimesOut : Prop :=
  ∀ (s : State) (d : Byte) (rs : Bool),
    s.phase = .operational → s.status ≠ .timeout → s.cfg.wf = true → sendBusy s.cfg s.bus →
    ∃ t, exec (.snd d rs true) s = .next t ∧ fatal t = true ∧
      t = { s with
        bus := s.bus.after (6 + 8 * s.cfg.pollBound.toNat), dly := 0, seq := .idle,
        rspCode := 2, rspData := pollByte s.cfg (s.bus.after 6) (s.cfg.pollBound.toNat - 1), rspValid := true,
        status := .timeout,
        ac := addressOf (pollByte s.cfg (s.bus.after 6) (s.cfg.pollBound.toNat - 1)), acRead := true,
        nibh := hiNibble (pollByte s.cfg (s.bus.after 6) (s.cfg.pollBound.toNat - 1)),
        pollcnt := s.cfg.pollBound,
        trace := s.trace ++ transmitEvents s.cfg d rs ++
          pollEvents s.cfg (s.bus.after 6) s.cfg.pollBound.toNat }

/-- R150 and R151 (decision D16): `CLR`, word `0x6000`, is executed in every `PHASE` and `STATUS`, turns `Timeout` into
`Ready` and nothing else, lowers `FATAL`, does no bus operation and no delay, and responds `OK` with `0x00`. -/
def Obligations.ClrCompletes : Prop :=
  encode .clr = 0x6000 ∧
  ∀ s : State, ∃ t, exec .clr s = .next t ∧ fatal t = false ∧
    t = { s with
      status := if s.status = .timeout then .ready else s.status,
      seq := .idle, rspCode := 0, rspData := 0, rspValid := true }

/-- 43_init_sequencer.md (R161, R163 to R167): an admitted `INI` whose probe finds the device, whose twelve writes of
steps 2 and 3 succeed and whose five sends are ready within the bound runs all its steps in order and ends
`Operational`, `Ready`, with `AC` from the last poll and response `OK`. The values of `NIBH`, `POLLCNT` and `DLY` at idle
are the model's choice (logs 5 and 7; R20, U16, R219 leave them open), and `acRead` is the model's own bit (log 4). -/
def Obligations.IniCompletes : Prop :=
  ∀ (s : State) (ks : List Nat),
    s.phase ≠ .operational → s.status ≠ .timeout → ks.length = 5 →
    s.bus.okFor 13 → sendsReady s.cfg ks (s.bus.after 13) →
    exec .ini s = .next { s with
      phase := .operational, status := .ready,
      ac := addressOf (lastPollByte s.cfg ks (s.bus.after 13)), acRead := true,
      nibh := hiNibble (lastPollByte s.cfg ks (s.bus.after 13)),
      pollcnt := BitVec.ofNat 5 (ks.getLastD 0 + 1),
      bus := s.bus.after (13 + (ks.map sendOps).sum), dly := 0, seq := .idle,
      rspCode := 0, rspData := 0, rspValid := true,
      trace := s.trace ++ initEvents s.cfg ks s.bus }

/-! ## Failures -/

/-- R201: a probe that finds no device ends `INI` with code 1; only the response changes, no transfer and no delay took
place; and code 1 comes from nothing else. -/
def Obligations.IniWithoutDevice : Prop :=
  (∀ s : State, s.phase ≠ .operational → s.status ≠ .timeout → (s.bus.at 0).ok = false →
    exec .ini s = .next { s with
      bus := s.bus.after 1, trace := s.trace ++ [Event.P false], seq := .idle,
      rspCode := 1, rspData := 0, rspValid := true }) ∧
  (∀ (s t : State) (i : Instr), exec i s = .next t → t.rspCode = 1 →
    i = .ini ∧ (s.bus.at 0).ok = false ∧ s.phase ≠ .operational ∧ s.status ≠ .timeout)

/-- 40_nibble_transactor.md section 4 (R116, decision D17): when the bus operation number `k` of a `WRN` fails, it ends
there with code 3: later writes are not issued and no settle follows the failed one. -/
def Obligations.WrnStopsAtFailure : Prop :=
  ∀ (s : State) (n : Nibble) (rs rw : Bool) (k : Fin 3),
    s.phase = .operational → s.status ≠ .timeout → s.dly = 0 → s.bus.okFor k → (s.bus.at k).ok = false →
    exec (.wrn n rs rw) s = .next { s with
      bus := s.bus.after (k + 1), seq := .idle, rspCode := 3, rspData := 0, rspValid := true,
      trace := s.trace ++
        ([lineByte s.cfg n rs rw false, lineByte s.cfg n rs rw true].take k).flatMap
          (fun b => settled s.cfg (.W b)) ++
        [.Wx (lineByte s.cfg n rs rw (k.val = 1))] }

/-- 40_nibble_transactor.md section 4 (R116, decision D17): the same for the four bus operations of `RDN`, the third of
which is the read. -/
def Obligations.RdnStopsAtFailure : Prop :=
  ∀ (s : State) (rs rw : Bool) (k : Fin 4),
    s.phase = .operational → s.status ≠ .timeout → s.dly = 0 → s.bus.okFor k → (s.bus.at k).ok = false →
    exec (.rdn rs rw) s = .next { s with
      bus := s.bus.after (k + 1), seq := .idle, rspCode := 3, rspData := 0, rspValid := true,
      trace := s.trace ++
        ([.W (lineByte s.cfg s.cfg.rdNib rs rw false), .W (lineByte s.cfg s.cfg.rdNib rs rw true),
          Event.R (s.bus.at 2).rdata].take k).flatMap (settled s.cfg) ++
        [if k.val = 2 then .Rx else .Wx (lineByte s.cfg s.cfg.rdNib rs rw (k.val = 1))] }

/-- R133 (decision D17): "If any bus operation of either cycle fails, `RDS_body` ends with `raise TransportFailure` before
its last three lines: `AC` and `STATUS` keep their previous values". -/
def Obligations.RdsFailureKeepsAcAndStatus : Prop :=
  ∀ (s : State) (k : Nat), s.phase = .operational → s.status ≠ .timeout → k < 8 →
    s.bus.okFor k → (s.bus.at k).ok = false →
    ∃ t, exec .rds s = .next t ∧ t.rspCode = 3 ∧ t.rspData = 0 ∧ t.ac = s.ac ∧ t.status = s.status ∧
      t.acRead = s.acRead ∧ t.bus = s.bus.after (k + 1)

/-- 42_command_dispatcher.md section 1 (R140 to R145): an admitted `SND` ends in one of three ways: `OK` with `STATUS = Ready`;
code 2, only when busy-checked, with `STATUS = Timeout` and a last status byte whose bit 7 is set and whose address
bits are in `AC`; code 3 with `STATUS = Busy`. `PHASE` never changes. -/
def Obligations.SndOutcomes : Prop :=
  ∀ (s t : State) (d : Byte) (rs cb : Bool),
    s.phase = .operational → s.status ≠ .timeout → s.cfg.wf = true → exec (.snd d rs cb) s = .next t →
    t.phase = .operational ∧
    ((t.rspCode = 0 ∧ t.rspData = 0 ∧ t.status = .ready) ∨
     (t.rspCode = 2 ∧ cb = true ∧ t.status = .timeout ∧ busyFlag t.rspData = true ∧ t.ac = addressOf t.rspData) ∨
     (t.rspCode = 3 ∧ t.rspData = 0 ∧ t.status = .busy))

/-- R145 (decision D17), its poll case: a transport failure in poll number `k` of a busy-checked `SND`, all polls before
it busy, ends the request with code 3, `STATUS = Busy`, `FATAL` low, also in the last allowed poll (R213). -/
def Obligations.SndPollFailure : Prop :=
  ∀ (s : State) (d : Byte) (rs : Bool) (k j : Nat),
    s.phase = .operational → s.status ≠ .timeout → k < s.cfg.pollBound.toNat → j < 8 →
    s.bus.okFor (6 + 8 * k + j) → (s.bus.at (6 + 8 * k + j)).ok = false →
    (∀ m, m < k → busyFlag (pollByte s.cfg (s.bus.after 6) m) = true) →
    ∃ t, exec (.snd d rs true) s = .next t ∧ t.rspCode = 3 ∧ t.rspData = 0 ∧ t.status = .busy ∧
      fatal t = false ∧ t.bus = s.bus.after (6 + 8 * k + j + 1)

/-- 43_init_sequencer.md (R160, R162, R167, R168): an admitted `INI` ends in one of four ways: `OK` with `Operational` and
`Ready`; code 1 with `PHASE`, `STATUS` and `AC` unchanged; code 2 with `Aborted` and `Timeout`; code 3 with `Aborted`
and `STATUS` either unchanged or `Busy`. -/
def Obligations.IniOutcomes : Prop :=
  ∀ (s t : State), s.phase ≠ .operational → s.status ≠ .timeout → s.cfg.wf = true → exec .ini s = .next t →
    (t.rspCode = 0 ∧ t.rspData = 0 ∧ t.phase = .operational ∧ t.status = .ready) ∨
    (t.rspCode = 1 ∧ t.rspData = 0 ∧ t.phase = s.phase ∧ t.status = s.status ∧ t.ac = s.ac) ∨
    (t.rspCode = 2 ∧ busyFlag t.rspData = true ∧ t.phase = .aborted ∧ t.status = .timeout ∧
      t.ac = addressOf t.rspData) ∨
    (t.rspCode = 3 ∧ t.rspData = 0 ∧ t.phase = .aborted ∧ (t.status = s.status ∨ t.status = .busy))

/-! ## Admission -/

/-- R206 (decision D15): with `STATUS = Timeout` every operation but `CLR` is refused with code 5, in every `PHASE`; else
`INI` while `PHASE = Operational` is refused with code 6; neither changes anything but the response. -/
def Obligations.TimeoutLatchAndInitStateRefuse : Prop :=
  (∀ (s : State) (i : Instr), s.status = .timeout → i.op ≠ .clr →
    exec i s = .next { s with rspCode := 5, rspData := 0, rspValid := true, seq := .idle }) ∧
  (∀ s : State, s.status ≠ .timeout → s.phase = .operational →
    exec .ini s = .next { s with rspCode := 6, rspData := 0, rspValid := true, seq := .idle })

/-- R205 (decision D14): `WRN`, `RDN`, `RDS`, `SND` requested while `PHASE` is not `Operational` are refused with code 4 and
change nothing but the response. -/
def Obligations.NotInitialisedRefuses : Prop :=
  ∀ (s : State) (i : Instr), s.status ≠ .timeout → s.phase ≠ .operational → i.op ≠ .clr → i.op ≠ .ini →
    exec i s = .next { s with rspCode := 4, rspData := 0, rspValid := true, seq := .idle }

/-- R211 and R212 (decisions D15, D14): which operation each `STATUS` and `PHASE` refuses, and no other: code 5 exactly in
`Timeout` for all but `CLR`, code 6 exactly for `INI` when `Operational`, code 4 exactly for `WRN`, `RDN`, `RDS`, `SND`
when not `Operational`; `Busy` refuses nothing. -/
def Obligations.AdmissionDecides : Prop :=
  ∀ (s t : State) (i : Instr), exec i s = .next t →
    (t.rspCode = 5 ↔ s.status = .timeout ∧ i.op ≠ .clr) ∧
    (t.rspCode = 6 ↔ s.status ≠ .timeout ∧ s.phase = .operational ∧ i.op = .ini) ∧
    (t.rspCode = 4 ↔ s.status ≠ .timeout ∧ s.phase ≠ .operational ∧ i.op ≠ .ini ∧ i.op ≠ .clr) ∧
    t.rspCode ≠ 7

/-! ## Frames -/

/-- 40_nibble_transactor.md section 4 (R118): whatever becomes of it, a `WRN` or a `RDN` writes none of `STATUS`, `AC`, `PHASE`,
`POLLCNT`, `NIBH`, nor `REQ`, the configuration or the requests to come. -/
def Obligations.NibbleCyclesFrame : Prop :=
  ∀ (s t : State) (i : Instr), i.op = .wrn ∨ i.op = .rdn → exec i s = .next t →
    t.status = s.status ∧ t.ac = s.ac ∧ t.acRead = s.acRead ∧ t.phase = s.phase ∧ t.pollcnt = s.pollcnt ∧
    t.nibh = s.nibh ∧ t.req = s.req ∧ t.cfg = s.cfg ∧ t.host = s.host ∧ t.rst = s.rst

/-- 10_state.md section 9 (R48), 41_status_reader.md: a `RDS` writes neither `PHASE` nor `POLLCNT`, nor `REQ`, the
configuration or the requests to come. -/
def Obligations.RdsFrame : Prop :=
  ∀ s t : State, exec .rds s = .next t →
    t.phase = s.phase ∧ t.pollcnt = s.pollcnt ∧ t.req = s.req ∧ t.cfg = s.cfg ∧ t.host = s.host ∧ t.rst = s.rst

/-- 10_state.md section 9 (R48), 42_command_dispatcher.md: a `SND` does not write `PHASE`, `REQ`, the configuration or the
requests to come; without busy check it does not write `AC`, `NIBH` or `POLLCNT` either. -/
def Obligations.SndFrame : Prop :=
  ∀ (s t : State) (d : Byte) (rs cb : Bool), exec (.snd d rs cb) s = .next t →
    t.phase = s.phase ∧ t.req = s.req ∧ t.cfg = s.cfg ∧ t.host = s.host ∧ t.rst = s.rst ∧
    (cb = false → t.ac = s.ac ∧ t.acRead = s.acRead ∧ t.nibh = s.nibh ∧ t.pollcnt = s.pollcnt)

/-- 10_state.md section 9 (R48), 43_init_sequencer.md: an `INI` does not write `REQ`, the configuration or the requests to
come; and a trace only grows, whatever the operation. -/
def Obligations.IniFrameAndTraceGrows : Prop :=
  (∀ s t : State, exec .ini s = .next t →
    t.req = s.req ∧ t.cfg = s.cfg ∧ t.host = s.host ∧ t.rst = s.rst) ∧
  (∀ (s t : State) (i : Instr), exec i s = .next t → ∃ es, t.trace = s.trace ++ es)

/-! ## Rules about every operation -/

/-- 20_memory.md section 2 (R56), 60_exceptions.md (R204): in the events of any operation a failed transfer is the last
event, and the response code is 3 exactly when there is one. -/
def Obligations.FailureEndsTheOperation : Prop :=
  ∀ (s t : State) (i : Instr), exec i s = .next t →
    ∃ es, t.trace = s.trace ++ es ∧ (∀ e ∈ es.dropLast, e.failed = false) ∧
      (t.rspCode = 3 ↔ ∃ e ∈ es, e.failed = true)

/-- R55 (decision D9): `Settle()`, a delay of at least `T_SETTLE`, follows "*every* successful `BusWrite` and `BusRead`,
including the last one of an operation". -/
def Obligations.EveryTransferSettles : Prop :=
  ∀ (s t : State) (i : Instr), s.cfg.wf = true → exec i s = .next t →
    ∃ es, t.trace = s.trace ++ es ∧ spaced s.cfg.tSettle.toNat es = true

/-- R80: "Every byte the block writes to `EXP` has this format", with the fields the operation gives it (R112, R113, R131,
R141, R143, R161): the bytes an operation writes, the one it fails to write included, are in order those of its cycles,
enable low, high, low, with the cycle's nibble, `rs` and `rw`, and the constant `BL` (R120, decision D12). An operation
that ends early writes a first part of them, one that ends `OK` all. A busy-checked send makes some number of polls within
the bound. In the layout of this hardware. -/
def Obligations.EveryWrittenByteHasTheFormat : Prop :=
  ∀ (s t : State) (i : Instr), s.cfg.layout = Layout.standard → exec i s = .next t →
    ∃ (es : List Event) (polls : Nat → Nat), t.trace = s.trace ++ es ∧
      (∀ j, polls j ≤ s.cfg.pollBound.toNat) ∧
      es.filterMap Event.written <+: writtenBy s.cfg polls i ∧
      (t.rspCode = 0 → es.filterMap Event.written = writtenBy s.cfg polls i)

/-- R120 (decision D12), in every legal layout: "The `BL` bit is the same in every byte the block ever writes": each byte
written has the constant `BL`, and no operation changes that constant. -/
def Obligations.BacklightNeverToggles : Prop :=
  ∀ (s t : State) (i : Instr), s.cfg.layout.wf = true → exec i s = .next t →
    t.cfg = s.cfg ∧
    ∃ es, t.trace = s.trace ++ es ∧ ∀ e ∈ es, ∀ b, e.written = some b → blHigh s.cfg b = s.cfg.bl

/-- 40_nibble_transactor.md section 4 (R114): an operation that ends `OK` leaves the enable line low: the last byte it wrote,
if any, has `EN = 0`. -/
def Obligations.EnableLowAfterOk : Prop :=
  ∀ (s t : State) (i : Instr), s.cfg.layout.wf = true → exec i s = .next t → t.rspCode = 0 →
    ∃ es, t.trace = s.trace ++ es ∧ ∀ b, pinsAfter none es = some b → enHigh s.cfg b = false

/-- 20_memory.md section 4 (R64): a `WRN` or `RDN` that ends `OK` gives one enable pulse, and a `RDS` or `SND` that ends `OK` an
even number, so it keeps the controller's nibble phase. -/
def Obligations.EnablePulsesAndNibblePhase : Prop :=
  ∀ (s t : State) (i : Instr), s.cfg.layout.wf = true → exec i s = .next t → t.rspCode = 0 →
    ∃ es, t.trace = s.trace ++ es ∧
      (i.op = .wrn ∨ i.op = .rdn → enablePulses s.cfg es = 1) ∧
      (i.op = .rds ∨ i.op = .snd → enablePulses s.cfg es % 2 = 0)

/-- 42_command_dispatcher.md section 1 (R146): the transfers of a busy-checked `SND` that is not stopped by a failure: `OK` at
its `k`-th poll makes `6 + 6k` writes and `2k` reads, `1 ≤ k ≤ POLL_BOUND`; a timeout makes `6 + 6 × POLL_BOUND` writes
and `2 × POLL_BOUND` reads. That `POLLCNT` holds the number of polls at idle is the model's choice (log 5; U16 gives any
value there and by R219 it does not survive an operation). -/
def Obligations.SndTransferCounts : Prop :=
  ∀ (s t : State) (d : Byte) (rs : Bool),
    s.phase = .operational → s.status ≠ .timeout → s.cfg.wf = true → exec (.snd d rs true) s = .next t →
    ∃ es, t.trace = s.trace ++ es ∧
      (t.rspCode = 0 → ∃ k, 1 ≤ k ∧ k ≤ s.cfg.pollBound.toNat ∧ t.pollcnt.toNat = k ∧
        countW es = 6 + 6 * k ∧ countR es = 2 * k) ∧
      (t.rspCode = 2 → t.pollcnt = s.cfg.pollBound ∧
        countW es = 6 + 6 * s.cfg.pollBound.toNat ∧ countR es = 2 * s.cfg.pollBound.toNat) ∧
      countW es ≤ 6 + 6 * s.cfg.pollBound.toNat ∧ countR es ≤ 2 * s.cfg.pollBound.toNat

/-- 70_reset_and_hazards.md section 4 (R251): the least times, with a settle of one time unit and no poll gap: `WRN` 3, `RDN` 4,
`RDS` 8, `SND` unchecked 6, `SND` checked and ready at poll number `k` (from 0) `6 + 8(k + 1)`, timing out
`6 + 8 × POLL_BOUND`; and an `INI` with the default configuration 134 when every poll is ready at once, and 8 more for
each further poll. -/
def Obligations.LeastDurations : Prop :=
  (∀ (s t : State) (i : Instr), s.cfg.tSettle = 1 → s.cfg.tPollGap = 0 → s.phase = .operational →
    exec i s = .next t → t.rspCode = 0 →
    ∃ es, t.trace = s.trace ++ es ∧
      (i.op = .wrn → minTime es = 3) ∧ (i.op = .rdn → minTime es = 4) ∧ (i.op = .rds → minTime es = 8) ∧
      (∀ d rs, i = .snd d rs false → minTime es = 6) ∧
      (∀ d rs, i = .snd d rs true → ∃ k, sendReady s.cfg s.bus k ∧ minTime es = 6 + 8 * (k + 1))) ∧
  (∀ (s t : State) (d : Byte) (rs : Bool), s.cfg.wf = true → s.cfg.tSettle = 1 → s.cfg.tPollGap = 0 →
    exec (.snd d rs true) s = .next t → t.rspCode = 2 →
    ∃ es, t.trace = s.trace ++ es ∧ minTime es = 6 + 8 * s.cfg.pollBound.toNat) ∧
  (∀ s t : State, s.cfg = Config.default → exec .ini s = .next t → t.rspCode = 0 →
    ∃ es ks, t.trace = s.trace ++ es ∧ ks.length = 5 ∧ sendsReady s.cfg ks (s.bus.after 13) ∧
      minTime es = 134 + 8 * ks.sum) ∧
  (∀ s : State, s.cfg = Config.default → s.phase ≠ .operational → s.status ≠ .timeout → s.bus.okFor 13 →
    sendsReady s.cfg [0, 0, 0, 0, 0] (s.bus.after 13) →
    ∃ t es, exec .ini s = .next t ∧ t.rspCode = 0 ∧ t.trace = s.trace ++ es ∧ minTime es = 134)

/-- 60_exceptions.md section 1 (R202, R203): `STATUS` becomes `Timeout` only by an operation that ends with code 2, and an
operation that ends with code 2 leaves it `Timeout`, so `FATAL` is high when that response is presented; only `SND`
with busy check and `INI` end so. -/
def Obligations.TimeoutOnlyWithCodeTwo : Prop :=
  ∀ (s t : State) (i : Instr), s.status ≠ .timeout → exec i s = .next t →
    (t.status = .timeout ↔ t.rspCode = 2) ∧ (fatal t = true ↔ t.status = .timeout) ∧
    (t.rspCode = 2 → i = .ini ∨ ∃ d rs, i = .snd d rs true)

/-- 60_exceptions.md section 1 (R203): a latched timeout is cleared only by `CLR` or `RST`. -/
def Obligations.TimeoutClearedOnlyByClrOrRst : Prop :=
  ∀ s t : State, s.status = .timeout → s.seq = .idle → step s = .next t → t.status ≠ .timeout →
    s.rst = true ∨ (s.host.head? = some (encode .clr) ∧ t.status = .ready)

/-- 43_init_sequencer.md (R170), 10_state.md (R49 d): `PHASE` becomes `Operational` only in a step that runs `INI` to response
`OK`. -/
def Obligations.OperationalOnlyByOkIni : Prop :=
  ∀ s t : State, s.seq = .idle → s.phase ≠ .operational → step s = .next t → t.phase = .operational →
    s.rst = false ∧ s.host.head? = some (encode .ini) ∧ t.rspCode = 0

/-- 43_init_sequencer.md (R169 c): an operational block stays operational until `RST`. -/
def Obligations.OperationalUntilReset : Prop :=
  ∀ s t : State, s.seq = .idle → s.phase = .operational → step s = .next t →
    t.phase = .operational ∨ (s.rst = true ∧ t.phase = .uninit)

/-- 60_exceptions.md section 1 (R200): no request and no state stops the block: every step answers a next state. It rests
on the fairness assumption that the transport always completes (R57; log 2). -/
def Obligations.StepAlwaysGoesOn : Prop := ∀ s : State, ∃ t, step s = .next t

/-! ## Invariants -/

/-- The invariant of a block at rest is kept by every step, from every state that meets it. Of its clauses R49 of 10_state.md
gives (c), `PHASE` not `Running`, and (e), only probes while `Uninit`. `DLY = 0` holds by the model's choice (logs 5 and
7); the two clauses about `acRead` speak of the model's own bit (log 4); that an uninitialised block is `Busy` and that the
configuration is legal are added here, drawn from the model. -/
def Obligations.StepKeepsRest : Prop := ∀ s t : State, AtRest s → step s = .next t → AtRest t

/-- The state after reset meets the invariant of `StepKeepsRest`, of which 10_state.md section 9 (R49) gives two clauses; its
`DLY = 0` is the model's value (log 5) and its `acRead` the model's bit (log 4). -/
def Obligations.ResetAtRest : Prop := AtRest State.reset

/-! ## The sequencer, one primitive at a time -/

/-- R32 (decision D29): while an operation is in flight `REQ_READY` is low and no request is taken; the step is the next
primitive's. -/
def Obligations.NoRequestTakenInFlight : Prop :=
  ∀ (s : State) (op : Op) (n : Nat) (todo : List Micro) (v : Byte), s.seq = .flight op n todo v → s.rst = false →
    reqReady s = false ∧ step s = .next (seqStep s) ∧
    ∃ t, step s = .next t ∧ t.host = s.host ∧ t.req = s.req ∧ t.cfg = s.cfg

/-- R36 (decision D1): `Delay(n)` with `n > 0` loads `DLY <- n`; each tick with `DLY > 0` does `DLY <- DLY - 1`; no step of the
operation is taken before `DLY = 0`. One step while a delay runs is one tick (log 7). -/
def Obligations.DelayHoldsTheSequencer : Prop :=
  (∀ (s : State) (op : Op) (n : Nat) (todo : List Micro) (v : Byte),
    s.seq = .flight op n todo v → s.rst = false → s.dly ≠ 0 →
      step s = .next { s with dly := s.dly - 1 }) ∧
  (∀ (s : State) (op : Op) (n : Nat) (d : BitVec 6) (k : List Micro) (v : Byte),
    s.seq = .flight op n (.delay d :: k) v → s.rst = false → s.dly = 0 → d ≠ 0 →
      step s = .next { s with dly := d, trace := s.trace ++ [Event.D d.toNat], seq := .flight op (n + 1) k v })

/-- R52 (decision D25): a bus write in flight drives the port with kind `0b10` and its byte; when the transport answers
success the byte is written and the settle begins; when it answers failure there is no settle, no retry and no later line,
only the raise of `TransportFailure` is left (`RaiseEndsTheOperation`). That request and answer are one step is the
model's choice (log 15). -/
def Obligations.BusWriteStep : Prop :=
  ∀ (s : State) (op : Op) (n : Nat) (b : Byte) (k : List Micro) (v : Byte),
    s.seq = .flight op n (.write b :: k) v → s.rst = false → s.dly = 0 →
    busOut s = { valid := true, kind := 0b10, addr := s.cfg.devAddr, wdata := some b, tmo := s.cfg.tBus } ∧
    ((s.bus.at 0).ok = true → step s = .next { s with
      bus := s.bus.after 1, trace := s.trace ++ [Event.W b] ++ delayEvents s.cfg.tSettle, dly := s.cfg.tSettle,
      seq := .flight op (n + 1) k v }) ∧
    ((s.bus.at 0).ok = false → step s = .next { s with
      bus := s.bus.after 1, trace := s.trace ++ [Event.Wx b], seq := .flight op (n + 1) [.raise .transportFailure] v })

/-- 20_memory.md section 2 (R53, R54): a bus read in flight drives kind `0b11`; its byte is the transport's and a settle
begins, or only the raise of `TransportFailure` is left. A probe drives kind `0b01` and never fails: present, the operation
goes on without a settle; absent, only the raise of `DeviceUnavailable` is left. That request and answer are one step is the
model's choice (log 15). -/
def Obligations.BusReadAndProbeStep : Prop :=
  (∀ (s : State) (op : Op) (n : Nat) (k : List Micro) (v : Byte),
    s.seq = .flight op n (.read :: k) v → s.rst = false → s.dly = 0 →
    busOut s = { valid := true, kind := 0b11, addr := s.cfg.devAddr, wdata := none, tmo := s.cfg.tBus } ∧
    ((s.bus.at 0).ok = true → step s = .next { s with
      bus := s.bus.after 1, trace := s.trace ++ [Event.R (s.bus.at 0).rdata] ++ delayEvents s.cfg.tSettle,
      dly := s.cfg.tSettle, seq := .flight op (n + 1) k (s.bus.at 0).rdata }) ∧
    ((s.bus.at 0).ok = false → step s = .next { s with
      bus := s.bus.after 1, trace := s.trace ++ [Event.Rx], seq := .flight op (n + 1) [.raise .transportFailure] v })) ∧
  (∀ (s : State) (op : Op) (n : Nat) (k : List Micro) (v : Byte),
    s.seq = .flight op n (.probe :: k) v → s.rst = false → s.dly = 0 →
    busOut s = { valid := true, kind := 0b01, addr := s.cfg.devAddr, wdata := none, tmo := s.cfg.tBus } ∧
    ((s.bus.at 0).ok = true → step s = .next { s with
      bus := s.bus.after 1, trace := s.trace ++ [Event.P true], seq := .flight op (n + 1) k v }) ∧
    ((s.bus.at 0).ok = false → step s = .next { s with
      bus := s.bus.after 1, trace := s.trace ++ [Event.P false],
      seq := .flight op (n + 1) [.raise .deviceUnavailable] v }))

/-- 60_exceptions.md section 3 (R214), 43_init_sequencer.md (R168): a raise in flight does no later line of the operation. In a
running `INI` it first writes `PHASE <- Aborted`; then the response is written with the cause's code and data and `SEQ` is
idle, and nothing else changes. That the clean-up and the response are a step each is the model's choice (log 15). -/
def Obligations.RaiseEndsTheOperation : Prop :=
  ∀ (s : State) (op : Op) (n : Nat) (c : Cause) (k : List Micro) (v : Byte),
    s.seq = .flight op n (.raise c :: k) v → s.rst = false → s.dly = 0 →
    (s.phase = .running → step s = .next { s with phase := .aborted, seq := .flight op (n + 1) [.raise c] v }) ∧
    (s.phase ≠ .running → step s = .next { s with
      seq := .idle, rspCode := c.code, rspData := c.data, rspValid := true })

/-- 60_exceptions.md section 1 (R203), 42_command_dispatcher.md section 1 (R144): the step that finds the controller busy after
the last allowed poll writes `STATUS <- Timeout` and `FATAL` rises in it, while the response is not presented yet; it comes
one step later, or two in a running `INI`, whose `PHASE` becomes `Aborted` first, with code 2 and the last status byte, and
`FATAL` is still high. How many steps later is the model's choice (log 15). -/
def Obligations.FatalRisesWithTheLastPoll : Prop :=
  ∀ (s : State) (op : Op) (n : Nat) (k : List Micro) (v : Byte),
    s.seq = .flight op n (.pollTest :: k) v → s.rst = false → s.dly = 0 →
    s.status = .busy → s.pollcnt = s.cfg.pollBound →
    fatal s = false ∧ ∃ t, step s = .next t ∧ fatal t = true ∧ reqReady t = false ∧
      t = { s with
        status := .timeout,
        seq := .flight op (n + 1) [.raise (.timeout (statusByte s.nibh (nibbleField s.cfg.layout v)))] v } ∧
      fineRun (if s.phase = .running then 2 else 1) t = { s with
        status := .timeout, phase := if s.phase = .running then .aborted else s.phase, seq := .idle,
        rspCode := 2, rspData := statusByte s.nibh (nibbleField s.cfg.layout v), rspValid := true }

/-- 60_exceptions.md section 1 (R203): whichever request ends with code 2, `FATAL` "rises in the same step as
`STATUS <- Timeout`, before the response is presented": in the run of its primitives it is low at the start and high from
some state on in which the operation is in flight and no response is presented, and stays high to the response. -/
def Obligations.FatalRisesBeforeTheResponse : Prop :=
  ∀ s t : State, AtRest s → s.rst = false → s.host ≠ [] → step s = .next t → t.rspCode = 2 →
    fatal s = false ∧ ∃ m n, 0 < m ∧ m < n ∧ fineRun n s = t ∧ t.rspValid = true ∧ fatal t = true ∧
      ∀ j, m ≤ j → j < n →
        fatal (fineRun j s) = true ∧ (fineRun j s).rspValid = false ∧ reqReady (fineRun j s) = false

/-- 10_state.md section 4 (R30, R31): a whole operation run by one step is the run of its primitives: from a block at rest with
a request, single steps reach the very state the one step gives, with an operation in flight at every moment between. What
one step of each machine folds is the model's choice (logs 1 and 15). -/
def Obligations.StepIsARunOfPrimitives : Prop :=
  ∀ s t : State, AtRest s → s.rst = false → s.host ≠ [] → step s = .next t →
    ∃ n, 0 < n ∧ fineRun n s = t ∧ ∀ m, 0 < m → m < n → reqReady (fineRun m s) = false
end

