-- ==== Sys2Proof/Laws/State.lean ====
section
/-! SUPPORT. One lemma per field per named update of the state: each is true by definition, and the later
proofs need no unfolding of a record update. Beside them two updates the laws are stated with. -/

namespace Sys2Proof.Machine

/-- `k` bus operations have succeeded, with the events `es`, and every delay is over. -/
def State.ran (s : State) (k : Nat) (es : List Event) : State :=
  { s with bus := s.bus.after k, dly := 0, trace := s.trace ++ es }

/-- A bus operation has failed, with the event `e`. -/
def State.failed (s : State) (e : Event) : State := { s with bus := s.bus.rest, trace := s.trace ++ [e] }

/-! ### `emit` -/

@[simp] theorem emit_cfg (s : State) (es : List Event) : (s.emit es).cfg = s.cfg := rfl
@[simp] theorem emit_status (s : State) (es : List Event) : (s.emit es).status = s.status := rfl
@[simp] theorem emit_ac (s : State) (es : List Event) : (s.emit es).ac = s.ac := rfl
@[simp] theorem emit_phase (s : State) (es : List Event) : (s.emit es).phase = s.phase := rfl
@[simp] theorem emit_rspCode (s : State) (es : List Event) : (s.emit es).rspCode = s.rspCode := rfl
@[simp] theorem emit_rspData (s : State) (es : List Event) : (s.emit es).rspData = s.rspData := rfl
@[simp] theorem emit_rspValid (s : State) (es : List Event) : (s.emit es).rspValid = s.rspValid := rfl
@[simp] theorem emit_seq (s : State) (es : List Event) : (s.emit es).seq = s.seq := rfl
@[simp] theorem emit_pollcnt (s : State) (es : List Event) : (s.emit es).pollcnt = s.pollcnt := rfl
@[simp] theorem emit_nibh (s : State) (es : List Event) : (s.emit es).nibh = s.nibh := rfl
@[simp] theorem emit_dly (s : State) (es : List Event) : (s.emit es).dly = s.dly := rfl
@[simp] theorem emit_req (s : State) (es : List Event) : (s.emit es).req = s.req := rfl
@[simp] theorem emit_rst (s : State) (es : List Event) : (s.emit es).rst = s.rst := rfl
@[simp] theorem emit_host (s : State) (es : List Event) : (s.emit es).host = s.host := rfl
@[simp] theorem emit_bus (s : State) (es : List Event) : (s.emit es).bus = s.bus := rfl
@[simp] theorem emit_trace (s : State) (es : List Event) : (s.emit es).trace = s.trace ++ es := rfl
@[simp] theorem emit_acRead (s : State) (es : List Event) : (s.emit es).acRead = s.acRead := rfl

/-! ### `used` -/

@[simp] theorem used_cfg (s : State) : (s.used).cfg = s.cfg := rfl
@[simp] theorem used_status (s : State) : (s.used).status = s.status := rfl
@[simp] theorem used_ac (s : State) : (s.used).ac = s.ac := rfl
@[simp] theorem used_phase (s : State) : (s.used).phase = s.phase := rfl
@[simp] theorem used_rspCode (s : State) : (s.used).rspCode = s.rspCode := rfl
@[simp] theorem used_rspData (s : State) : (s.used).rspData = s.rspData := rfl
@[simp] theorem used_rspValid (s : State) : (s.used).rspValid = s.rspValid := rfl
@[simp] theorem used_seq (s : State) : (s.used).seq = s.seq := rfl
@[simp] theorem used_pollcnt (s : State) : (s.used).pollcnt = s.pollcnt := rfl
@[simp] theorem used_nibh (s : State) : (s.used).nibh = s.nibh := rfl
@[simp] theorem used_dly (s : State) : (s.used).dly = s.dly := rfl
@[simp] theorem used_req (s : State) : (s.used).req = s.req := rfl
@[simp] theorem used_rst (s : State) : (s.used).rst = s.rst := rfl
@[simp] theorem used_host (s : State) : (s.used).host = s.host := rfl
@[simp] theorem used_bus (s : State) : (s.used).bus = s.bus.rest := rfl
@[simp] theorem used_trace (s : State) : (s.used).trace = s.trace := rfl
@[simp] theorem used_acRead (s : State) : (s.used).acRead = s.acRead := rfl

/-! ### `delay` -/

@[simp] theorem delay_cfg (s : State) (n : BitVec 6) : (s.delay n).cfg = s.cfg := rfl
@[simp] theorem delay_status (s : State) (n : BitVec 6) : (s.delay n).status = s.status := rfl
@[simp] theorem delay_ac (s : State) (n : BitVec 6) : (s.delay n).ac = s.ac := rfl
@[simp] theorem delay_phase (s : State) (n : BitVec 6) : (s.delay n).phase = s.phase := rfl
@[simp] theorem delay_rspCode (s : State) (n : BitVec 6) : (s.delay n).rspCode = s.rspCode := rfl
@[simp] theorem delay_rspData (s : State) (n : BitVec 6) : (s.delay n).rspData = s.rspData := rfl
@[simp] theorem delay_rspValid (s : State) (n : BitVec 6) : (s.delay n).rspValid = s.rspValid := rfl
@[simp] theorem delay_seq (s : State) (n : BitVec 6) : (s.delay n).seq = s.seq := rfl
@[simp] theorem delay_pollcnt (s : State) (n : BitVec 6) : (s.delay n).pollcnt = s.pollcnt := rfl
@[simp] theorem delay_nibh (s : State) (n : BitVec 6) : (s.delay n).nibh = s.nibh := rfl
@[simp] theorem delay_dly (s : State) (n : BitVec 6) : (s.delay n).dly = 0 := rfl
@[simp] theorem delay_req (s : State) (n : BitVec 6) : (s.delay n).req = s.req := rfl
@[simp] theorem delay_rst (s : State) (n : BitVec 6) : (s.delay n).rst = s.rst := rfl
@[simp] theorem delay_host (s : State) (n : BitVec 6) : (s.delay n).host = s.host := rfl
@[simp] theorem delay_bus (s : State) (n : BitVec 6) : (s.delay n).bus = s.bus := rfl
@[simp] theorem delay_trace (s : State) (n : BitVec 6) : (s.delay n).trace = s.trace ++ delayEvents n := rfl
@[simp] theorem delay_acRead (s : State) (n : BitVec 6) : (s.delay n).acRead = s.acRead := rfl

/-! ### `respond` -/

@[simp] theorem respond_cfg (s : State) (c : BitVec 3) (d : Byte) : (s.respond c d).cfg = s.cfg := rfl
@[simp] theorem respond_status (s : State) (c : BitVec 3) (d : Byte) : (s.respond c d).status = s.status := rfl
@[simp] theorem respond_ac (s : State) (c : BitVec 3) (d : Byte) : (s.respond c d).ac = s.ac := rfl
@[simp] theorem respond_phase (s : State) (c : BitVec 3) (d : Byte) : (s.respond c d).phase = s.phase := rfl
@[simp] theorem respond_rspCode (s : State) (c : BitVec 3) (d : Byte) : (s.respond c d).rspCode = c := rfl
@[simp] theorem respond_rspData (s : State) (c : BitVec 3) (d : Byte) : (s.respond c d).rspData = d := rfl
@[simp] theorem respond_rspValid (s : State) (c : BitVec 3) (d : Byte) : (s.respond c d).rspValid = true := rfl
@[simp] theorem respond_seq (s : State) (c : BitVec 3) (d : Byte) : (s.respond c d).seq = .idle := rfl
@[simp] theorem respond_pollcnt (s : State) (c : BitVec 3) (d : Byte) : (s.respond c d).pollcnt = s.pollcnt := rfl
@[simp] theorem respond_nibh (s : State) (c : BitVec 3) (d : Byte) : (s.respond c d).nibh = s.nibh := rfl
@[simp] theorem respond_dly (s : State) (c : BitVec 3) (d : Byte) : (s.respond c d).dly = s.dly := rfl
@[simp] theorem respond_req (s : State) (c : BitVec 3) (d : Byte) : (s.respond c d).req = s.req := rfl
@[simp] theorem respond_rst (s : State) (c : BitVec 3) (d : Byte) : (s.respond c d).rst = s.rst := rfl
@[simp] theorem respond_host (s : State) (c : BitVec 3) (d : Byte) : (s.respond c d).host = s.host := rfl
@[simp] theorem respond_bus (s : State) (c : BitVec 3) (d : Byte) : (s.respond c d).bus = s.bus := rfl
@[simp] theorem respond_trace (s : State) (c : BitVec 3) (d : Byte) : (s.respond c d).trace = s.trace := rfl
@[simp] theorem respond_acRead (s : State) (c : BitVec 3) (d : Byte) : (s.respond c d).acRead = s.acRead := rfl

/-! ### `take` -/

@[simp] theorem take_cfg (s : State) (w : Word) (ws : List Word) : (s.take w ws).cfg = s.cfg := rfl
@[simp] theorem take_status (s : State) (w : Word) (ws : List Word) : (s.take w ws).status = s.status := rfl
@[simp] theorem take_ac (s : State) (w : Word) (ws : List Word) : (s.take w ws).ac = s.ac := rfl
@[simp] theorem take_phase (s : State) (w : Word) (ws : List Word) : (s.take w ws).phase = s.phase := rfl
@[simp] theorem take_rspCode (s : State) (w : Word) (ws : List Word) : (s.take w ws).rspCode = s.rspCode := rfl
@[simp] theorem take_rspData (s : State) (w : Word) (ws : List Word) : (s.take w ws).rspData = s.rspData := rfl
@[simp] theorem take_rspValid (s : State) (w : Word) (ws : List Word) : (s.take w ws).rspValid = false := rfl
@[simp] theorem take_seq (s : State) (w : Word) (ws : List Word) : (s.take w ws).seq = s.seq := rfl
@[simp] theorem take_pollcnt (s : State) (w : Word) (ws : List Word) : (s.take w ws).pollcnt = s.pollcnt := rfl
@[simp] theorem take_nibh (s : State) (w : Word) (ws : List Word) : (s.take w ws).nibh = s.nibh := rfl
@[simp] theorem take_dly (s : State) (w : Word) (ws : List Word) : (s.take w ws).dly = s.dly := rfl
@[simp] theorem take_req (s : State) (w : Word) (ws : List Word) : (s.take w ws).req = w := rfl
@[simp] theorem take_rst (s : State) (w : Word) (ws : List Word) : (s.take w ws).rst = s.rst := rfl
@[simp] theorem take_host (s : State) (w : Word) (ws : List Word) : (s.take w ws).host = ws := rfl
@[simp] theorem take_bus (s : State) (w : Word) (ws : List Word) : (s.take w ws).bus = s.bus := rfl
@[simp] theorem take_trace (s : State) (w : Word) (ws : List Word) : (s.take w ws).trace = s.trace := rfl
@[simp] theorem take_acRead (s : State) (w : Word) (ws : List Word) : (s.take w ws).acRead = s.acRead := rfl

/-! ### `latchHigh` -/

@[simp] theorem latchHigh_cfg (s : State) (n : Nibble) : (s.latchHigh n).cfg = s.cfg := rfl
@[simp] theorem latchHigh_status (s : State) (n : Nibble) : (s.latchHigh n).status = s.status := rfl
@[simp] theorem latchHigh_ac (s : State) (n : Nibble) : (s.latchHigh n).ac = s.ac := rfl
@[simp] theorem latchHigh_phase (s : State) (n : Nibble) : (s.latchHigh n).phase = s.phase := rfl
@[simp] theorem latchHigh_rspCode (s : State) (n : Nibble) : (s.latchHigh n).rspCode = s.rspCode := rfl
@[simp] theorem latchHigh_rspData (s : State) (n : Nibble) : (s.latchHigh n).rspData = s.rspData := rfl
@[simp] theorem latchHigh_rspValid (s : State) (n : Nibble) : (s.latchHigh n).rspValid = s.rspValid := rfl
@[simp] theorem latchHigh_seq (s : State) (n : Nibble) : (s.latchHigh n).seq = s.seq := rfl
@[simp] theorem latchHigh_pollcnt (s : State) (n : Nibble) : (s.latchHigh n).pollcnt = s.pollcnt := rfl
@[simp] theorem latchHigh_nibh (s : State) (n : Nibble) : (s.latchHigh n).nibh = n := rfl
@[simp] theorem latchHigh_dly (s : State) (n : Nibble) : (s.latchHigh n).dly = s.dly := rfl
@[simp] theorem latchHigh_req (s : State) (n : Nibble) : (s.latchHigh n).req = s.req := rfl
@[simp] theorem latchHigh_rst (s : State) (n : Nibble) : (s.latchHigh n).rst = s.rst := rfl
@[simp] theorem latchHigh_host (s : State) (n : Nibble) : (s.latchHigh n).host = s.host := rfl
@[simp] theorem latchHigh_bus (s : State) (n : Nibble) : (s.latchHigh n).bus = s.bus := rfl
@[simp] theorem latchHigh_trace (s : State) (n : Nibble) : (s.latchHigh n).trace = s.trace := rfl
@[simp] theorem latchHigh_acRead (s : State) (n : Nibble) : (s.latchHigh n).acRead = s.acRead := rfl

/-! ### `recordStatus` -/

@[simp] theorem recordStatus_cfg (s : State) (b : Byte) : (s.recordStatus b).cfg = s.cfg := rfl
@[simp] theorem recordStatus_status (s : State) (b : Byte) : (s.recordStatus b).status = statusOf b := rfl
@[simp] theorem recordStatus_ac (s : State) (b : Byte) : (s.recordStatus b).ac = addressOf b := rfl
@[simp] theorem recordStatus_phase (s : State) (b : Byte) : (s.recordStatus b).phase = s.phase := rfl
@[simp] theorem recordStatus_rspCode (s : State) (b : Byte) : (s.recordStatus b).rspCode = s.rspCode := rfl
@[simp] theorem recordStatus_rspData (s : State) (b : Byte) : (s.recordStatus b).rspData = s.rspData := rfl
@[simp] theorem recordStatus_rspValid (s : State) (b : Byte) : (s.recordStatus b).rspValid = s.rspValid := rfl
@[simp] theorem recordStatus_seq (s : State) (b : Byte) : (s.recordStatus b).seq = s.seq := rfl
@[simp] theorem recordStatus_pollcnt (s : State) (b : Byte) : (s.recordStatus b).pollcnt = s.pollcnt := rfl
@[simp] theorem recordStatus_nibh (s : State) (b : Byte) : (s.recordStatus b).nibh = s.nibh := rfl
@[simp] theorem recordStatus_dly (s : State) (b : Byte) : (s.recordStatus b).dly = s.dly := rfl
@[simp] theorem recordStatus_req (s : State) (b : Byte) : (s.recordStatus b).req = s.req := rfl
@[simp] theorem recordStatus_rst (s : State) (b : Byte) : (s.recordStatus b).rst = s.rst := rfl
@[simp] theorem recordStatus_host (s : State) (b : Byte) : (s.recordStatus b).host = s.host := rfl
@[simp] theorem recordStatus_bus (s : State) (b : Byte) : (s.recordStatus b).bus = s.bus := rfl
@[simp] theorem recordStatus_trace (s : State) (b : Byte) : (s.recordStatus b).trace = s.trace := rfl
@[simp] theorem recordStatus_acRead (s : State) (b : Byte) : (s.recordStatus b).acRead = true := rfl

/-! ### `setStatus` -/

@[simp] theorem setStatus_cfg (s : State) (v : Status) : (s.setStatus v).cfg = s.cfg := rfl
@[simp] theorem setStatus_status (s : State) (v : Status) : (s.setStatus v).status = v := rfl
@[simp] theorem setStatus_ac (s : State) (v : Status) : (s.setStatus v).ac = s.ac := rfl
@[simp] theorem setStatus_phase (s : State) (v : Status) : (s.setStatus v).phase = s.phase := rfl
@[simp] theorem setStatus_rspCode (s : State) (v : Status) : (s.setStatus v).rspCode = s.rspCode := rfl
@[simp] theorem setStatus_rspData (s : State) (v : Status) : (s.setStatus v).rspData = s.rspData := rfl
@[simp] theorem setStatus_rspValid (s : State) (v : Status) : (s.setStatus v).rspValid = s.rspValid := rfl
@[simp] theorem setStatus_seq (s : State) (v : Status) : (s.setStatus v).seq = s.seq := rfl
@[simp] theorem setStatus_pollcnt (s : State) (v : Status) : (s.setStatus v).pollcnt = s.pollcnt := rfl
@[simp] theorem setStatus_nibh (s : State) (v : Status) : (s.setStatus v).nibh = s.nibh := rfl
@[simp] theorem setStatus_dly (s : State) (v : Status) : (s.setStatus v).dly = s.dly := rfl
@[simp] theorem setStatus_req (s : State) (v : Status) : (s.setStatus v).req = s.req := rfl
@[simp] theorem setStatus_rst (s : State) (v : Status) : (s.setStatus v).rst = s.rst := rfl
@[simp] theorem setStatus_host (s : State) (v : Status) : (s.setStatus v).host = s.host := rfl
@[simp] theorem setStatus_bus (s : State) (v : Status) : (s.setStatus v).bus = s.bus := rfl
@[simp] theorem setStatus_trace (s : State) (v : Status) : (s.setStatus v).trace = s.trace := rfl
@[simp] theorem setStatus_acRead (s : State) (v : Status) : (s.setStatus v).acRead = s.acRead := rfl

/-! ### `setPhase` -/

@[simp] theorem setPhase_cfg (s : State) (v : Phase) : (s.setPhase v).cfg = s.cfg := rfl
@[simp] theorem setPhase_status (s : State) (v : Phase) : (s.setPhase v).status = s.status := rfl
@[simp] theorem setPhase_ac (s : State) (v : Phase) : (s.setPhase v).ac = s.ac := rfl
@[simp] theorem setPhase_phase (s : State) (v : Phase) : (s.setPhase v).phase = v := rfl
@[simp] theorem setPhase_rspCode (s : State) (v : Phase) : (s.setPhase v).rspCode = s.rspCode := rfl
@[simp] theorem setPhase_rspData (s : State) (v : Phase) : (s.setPhase v).rspData = s.rspData := rfl
@[simp] theorem setPhase_rspValid (s : State) (v : Phase) : (s.setPhase v).rspValid = s.rspValid := rfl
@[simp] theorem setPhase_seq (s : State) (v : Phase) : (s.setPhase v).seq = s.seq := rfl
@[simp] theorem setPhase_pollcnt (s : State) (v : Phase) : (s.setPhase v).pollcnt = s.pollcnt := rfl
@[simp] theorem setPhase_nibh (s : State) (v : Phase) : (s.setPhase v).nibh = s.nibh := rfl
@[simp] theorem setPhase_dly (s : State) (v : Phase) : (s.setPhase v).dly = s.dly := rfl
@[simp] theorem setPhase_req (s : State) (v : Phase) : (s.setPhase v).req = s.req := rfl
@[simp] theorem setPhase_rst (s : State) (v : Phase) : (s.setPhase v).rst = s.rst := rfl
@[simp] theorem setPhase_host (s : State) (v : Phase) : (s.setPhase v).host = s.host := rfl
@[simp] theorem setPhase_bus (s : State) (v : Phase) : (s.setPhase v).bus = s.bus := rfl
@[simp] theorem setPhase_trace (s : State) (v : Phase) : (s.setPhase v).trace = s.trace := rfl
@[simp] theorem setPhase_acRead (s : State) (v : Phase) : (s.setPhase v).acRead = s.acRead := rfl

/-! ### `countPoll` -/

@[simp] theorem countPoll_cfg (s : State) : (s.countPoll).cfg = s.cfg := rfl
@[simp] theorem countPoll_status (s : State) : (s.countPoll).status = s.status := rfl
@[simp] theorem countPoll_ac (s : State) : (s.countPoll).ac = s.ac := rfl
@[simp] theorem countPoll_phase (s : State) : (s.countPoll).phase = s.phase := rfl
@[simp] theorem countPoll_rspCode (s : State) : (s.countPoll).rspCode = s.rspCode := rfl
@[simp] theorem countPoll_rspData (s : State) : (s.countPoll).rspData = s.rspData := rfl
@[simp] theorem countPoll_rspValid (s : State) : (s.countPoll).rspValid = s.rspValid := rfl
@[simp] theorem countPoll_seq (s : State) : (s.countPoll).seq = s.seq := rfl
@[simp] theorem countPoll_pollcnt (s : State) : (s.countPoll).pollcnt = s.pollcnt + 1 := rfl
@[simp] theorem countPoll_nibh (s : State) : (s.countPoll).nibh = s.nibh := rfl
@[simp] theorem countPoll_dly (s : State) : (s.countPoll).dly = s.dly := rfl
@[simp] theorem countPoll_req (s : State) : (s.countPoll).req = s.req := rfl
@[simp] theorem countPoll_rst (s : State) : (s.countPoll).rst = s.rst := rfl
@[simp] theorem countPoll_host (s : State) : (s.countPoll).host = s.host := rfl
@[simp] theorem countPoll_bus (s : State) : (s.countPoll).bus = s.bus := rfl
@[simp] theorem countPoll_trace (s : State) : (s.countPoll).trace = s.trace := rfl
@[simp] theorem countPoll_acRead (s : State) : (s.countPoll).acRead = s.acRead := rfl

/-! ### `clearPolls` -/

@[simp] theorem clearPolls_cfg (s : State) : (s.clearPolls).cfg = s.cfg := rfl
@[simp] theorem clearPolls_status (s : State) : (s.clearPolls).status = s.status := rfl
@[simp] theorem clearPolls_ac (s : State) : (s.clearPolls).ac = s.ac := rfl
@[simp] theorem clearPolls_phase (s : State) : (s.clearPolls).phase = s.phase := rfl
@[simp] theorem clearPolls_rspCode (s : State) : (s.clearPolls).rspCode = s.rspCode := rfl
@[simp] theorem clearPolls_rspData (s : State) : (s.clearPolls).rspData = s.rspData := rfl
@[simp] theorem clearPolls_rspValid (s : State) : (s.clearPolls).rspValid = s.rspValid := rfl
@[simp] theorem clearPolls_seq (s : State) : (s.clearPolls).seq = s.seq := rfl
@[simp] theorem clearPolls_pollcnt (s : State) : (s.clearPolls).pollcnt = 0 := rfl
@[simp] theorem clearPolls_nibh (s : State) : (s.clearPolls).nibh = s.nibh := rfl
@[simp] theorem clearPolls_dly (s : State) : (s.clearPolls).dly = s.dly := rfl
@[simp] theorem clearPolls_req (s : State) : (s.clearPolls).req = s.req := rfl
@[simp] theorem clearPolls_rst (s : State) : (s.clearPolls).rst = s.rst := rfl
@[simp] theorem clearPolls_host (s : State) : (s.clearPolls).host = s.host := rfl
@[simp] theorem clearPolls_bus (s : State) : (s.clearPolls).bus = s.bus := rfl
@[simp] theorem clearPolls_trace (s : State) : (s.clearPolls).trace = s.trace := rfl
@[simp] theorem clearPolls_acRead (s : State) : (s.clearPolls).acRead = s.acRead := rfl

/-! ### `startDelay` -/

@[simp] theorem startDelay_cfg (s : State) (n : BitVec 6) : (s.startDelay n).cfg = s.cfg := rfl
@[simp] theorem startDelay_status (s : State) (n : BitVec 6) : (s.startDelay n).status = s.status := rfl
@[simp] theorem startDelay_ac (s : State) (n : BitVec 6) : (s.startDelay n).ac = s.ac := rfl
@[simp] theorem startDelay_phase (s : State) (n : BitVec 6) : (s.startDelay n).phase = s.phase := rfl
@[simp] theorem startDelay_rspCode (s : State) (n : BitVec 6) : (s.startDelay n).rspCode = s.rspCode := rfl
@[simp] theorem startDelay_rspData (s : State) (n : BitVec 6) : (s.startDelay n).rspData = s.rspData := rfl
@[simp] theorem startDelay_rspValid (s : State) (n : BitVec 6) : (s.startDelay n).rspValid = s.rspValid := rfl
@[simp] theorem startDelay_seq (s : State) (n : BitVec 6) : (s.startDelay n).seq = s.seq := rfl
@[simp] theorem startDelay_pollcnt (s : State) (n : BitVec 6) : (s.startDelay n).pollcnt = s.pollcnt := rfl
@[simp] theorem startDelay_nibh (s : State) (n : BitVec 6) : (s.startDelay n).nibh = s.nibh := rfl
@[simp] theorem startDelay_dly (s : State) (n : BitVec 6) : (s.startDelay n).dly = n := rfl
@[simp] theorem startDelay_req (s : State) (n : BitVec 6) : (s.startDelay n).req = s.req := rfl
@[simp] theorem startDelay_rst (s : State) (n : BitVec 6) : (s.startDelay n).rst = s.rst := rfl
@[simp] theorem startDelay_host (s : State) (n : BitVec 6) : (s.startDelay n).host = s.host := rfl
@[simp] theorem startDelay_bus (s : State) (n : BitVec 6) : (s.startDelay n).bus = s.bus := rfl
@[simp] theorem startDelay_trace (s : State) (n : BitVec 6) : (s.startDelay n).trace = s.trace ++ delayEvents n := rfl
@[simp] theorem startDelay_acRead (s : State) (n : BitVec 6) : (s.startDelay n).acRead = s.acRead := rfl

/-! ### `abortInit` -/

@[simp] theorem abortInit_cfg (s : State) : (abortInit s).cfg = s.cfg := rfl
@[simp] theorem abortInit_status (s : State) : (abortInit s).status = s.status := rfl
@[simp] theorem abortInit_ac (s : State) : (abortInit s).ac = s.ac := rfl
@[simp] theorem abortInit_phase (s : State) : (abortInit s).phase = .aborted := rfl
@[simp] theorem abortInit_rspCode (s : State) : (abortInit s).rspCode = s.rspCode := rfl
@[simp] theorem abortInit_rspData (s : State) : (abortInit s).rspData = s.rspData := rfl
@[simp] theorem abortInit_rspValid (s : State) : (abortInit s).rspValid = s.rspValid := rfl
@[simp] theorem abortInit_seq (s : State) : (abortInit s).seq = s.seq := rfl
@[simp] theorem abortInit_pollcnt (s : State) : (abortInit s).pollcnt = s.pollcnt := rfl
@[simp] theorem abortInit_nibh (s : State) : (abortInit s).nibh = s.nibh := rfl
@[simp] theorem abortInit_dly (s : State) : (abortInit s).dly = s.dly := rfl
@[simp] theorem abortInit_req (s : State) : (abortInit s).req = s.req := rfl
@[simp] theorem abortInit_rst (s : State) : (abortInit s).rst = s.rst := rfl
@[simp] theorem abortInit_host (s : State) : (abortInit s).host = s.host := rfl
@[simp] theorem abortInit_bus (s : State) : (abortInit s).bus = s.bus := rfl
@[simp] theorem abortInit_trace (s : State) : (abortInit s).trace = s.trace := rfl
@[simp] theorem abortInit_acRead (s : State) : (abortInit s).acRead = s.acRead := rfl

/-! ### `ran` -/

@[simp] theorem ran_cfg (s : State) (k : Nat) (es : List Event) : (s.ran k es).cfg = s.cfg := rfl
@[simp] theorem ran_status (s : State) (k : Nat) (es : List Event) : (s.ran k es).status = s.status := rfl
@[simp] theorem ran_ac (s : State) (k : Nat) (es : List Event) : (s.ran k es).ac = s.ac := rfl
@[simp] theorem ran_phase (s : State) (k : Nat) (es : List Event) : (s.ran k es).phase = s.phase := rfl
@[simp] theorem ran_rspCode (s : State) (k : Nat) (es : List Event) : (s.ran k es).rspCode = s.rspCode := rfl
@[simp] theorem ran_rspData (s : State) (k : Nat) (es : List Event) : (s.ran k es).rspData = s.rspData := rfl
@[simp] theorem ran_rspValid (s : State) (k : Nat) (es : List Event) : (s.ran k es).rspValid = s.rspValid := rfl
@[simp] theorem ran_seq (s : State) (k : Nat) (es : List Event) : (s.ran k es).seq = s.seq := rfl
@[simp] theorem ran_pollcnt (s : State) (k : Nat) (es : List Event) : (s.ran k es).pollcnt = s.pollcnt := rfl
@[simp] theorem ran_nibh (s : State) (k : Nat) (es : List Event) : (s.ran k es).nibh = s.nibh := rfl
@[simp] theorem ran_dly (s : State) (k : Nat) (es : List Event) : (s.ran k es).dly = 0 := rfl
@[simp] theorem ran_req (s : State) (k : Nat) (es : List Event) : (s.ran k es).req = s.req := rfl
@[simp] theorem ran_rst (s : State) (k : Nat) (es : List Event) : (s.ran k es).rst = s.rst := rfl
@[simp] theorem ran_host (s : State) (k : Nat) (es : List Event) : (s.ran k es).host = s.host := rfl
@[simp] theorem ran_bus (s : State) (k : Nat) (es : List Event) : (s.ran k es).bus = s.bus.after k := rfl
@[simp] theorem ran_trace (s : State) (k : Nat) (es : List Event) : (s.ran k es).trace = s.trace ++ es := rfl
@[simp] theorem ran_acRead (s : State) (k : Nat) (es : List Event) : (s.ran k es).acRead = s.acRead := rfl

/-! ### `failed` -/

@[simp] theorem failed_cfg (s : State) (e : Event) : (s.failed e).cfg = s.cfg := rfl
@[simp] theorem failed_status (s : State) (e : Event) : (s.failed e).status = s.status := rfl
@[simp] theorem failed_ac (s : State) (e : Event) : (s.failed e).ac = s.ac := rfl
@[simp] theorem failed_phase (s : State) (e : Event) : (s.failed e).phase = s.phase := rfl
@[simp] theorem failed_rspCode (s : State) (e : Event) : (s.failed e).rspCode = s.rspCode := rfl
@[simp] theorem failed_rspData (s : State) (e : Event) : (s.failed e).rspData = s.rspData := rfl
@[simp] theorem failed_rspValid (s : State) (e : Event) : (s.failed e).rspValid = s.rspValid := rfl
@[simp] theorem failed_seq (s : State) (e : Event) : (s.failed e).seq = s.seq := rfl
@[simp] theorem failed_pollcnt (s : State) (e : Event) : (s.failed e).pollcnt = s.pollcnt := rfl
@[simp] theorem failed_nibh (s : State) (e : Event) : (s.failed e).nibh = s.nibh := rfl
@[simp] theorem failed_dly (s : State) (e : Event) : (s.failed e).dly = s.dly := rfl
@[simp] theorem failed_req (s : State) (e : Event) : (s.failed e).req = s.req := rfl
@[simp] theorem failed_rst (s : State) (e : Event) : (s.failed e).rst = s.rst := rfl
@[simp] theorem failed_host (s : State) (e : Event) : (s.failed e).host = s.host := rfl
@[simp] theorem failed_bus (s : State) (e : Event) : (s.failed e).bus = s.bus.rest := rfl
@[simp] theorem failed_trace (s : State) (e : Event) : (s.failed e).trace = s.trace ++ [e] := rfl
@[simp] theorem failed_acRead (s : State) (e : Event) : (s.failed e).acRead = s.acRead := rfl

end Sys2Proof.Machine
end

