-- ==== Sys2Proof/Laws/Bus.lean ====
section
/-! SUPPORT. The transport's answers, the bus primitives and the two nibble cycles: what each does when the
transport lets it through and when it does not. -/

namespace Sys2Proof.Machine

/-! ### The transport -/

theorem Transport.after_add (b : Transport) (j k : Nat) : (b.after j).after k = b.after (j + k) := by
  induction j generalizing b with
  | zero => simp [Transport.after]
  | succ j ih => rw [Nat.add_right_comm]; exact ih b.rest

theorem Transport.at_after (b : Transport) (j k : Nat) : (b.after j).at k = b.at (j + k) := by
  simp [Transport.at, Transport.after_add]

theorem Transport.next_eq_at (b : Transport) : b.next = b.at 0 := rfl

theorem Transport.rest_eq_after (b : Transport) : b.rest = b.after 1 := rfl

theorem Transport.okFor_add {b : Transport} {j k : Nat} :
    b.okFor (j + k) ↔ b.okFor j ∧ (b.after j).okFor k := by
  refine ⟨fun h => ⟨fun i hi => h i (by omega), fun i hi => ?_⟩, fun ⟨h, h'⟩ i hi => ?_⟩
  · rw [Transport.at_after]; exact h _ (by omega)
  · by_cases hj : i < j
    · exact h i hj
    · have := h' (i - j) (by omega)
      rwa [Transport.at_after, Nat.add_sub_cancel' (by omega)] at this

theorem Transport.okFor_le {b : Transport} {j k : Nat} (h : b.okFor k) (hjk : j ≤ k) : b.okFor j :=
  fun i hi => h i (by omega)

theorem Transport.okFor_zero (b : Transport) : b.okFor 0 := fun _ h => absurd h (Nat.not_lt_zero _)

/-- Either the next `k` answers are all successes, or there is a first failure among them. -/
theorem Transport.okFor_or_first_failure (b : Transport) (k : Nat) :
    b.okFor k ∨ ∃ j, j < k ∧ b.okFor j ∧ (b.at j).ok = false := by
  induction k with
  | zero => exact .inl b.okFor_zero
  | succ k ih =>
    rcases ih with h | ⟨j, hj, h, hf⟩
    · cases hk : (b.at k).ok with
      | false => exact .inr ⟨k, by omega, h, hk⟩
      | true =>
        refine .inl fun i hi => ?_
        rcases Nat.lt_succ_iff_lt_or_eq.mp hi with h' | rfl
        · exact h i h'
        · exact hk
    · exact .inr ⟨j, by omega, h, hf⟩

/-! ### Composing runs -/

@[simp] theorem ran_ran (s : State) (j k : Nat) (es fs : List Event) :
    (s.ran j es).ran k fs = s.ran (j + k) (es ++ fs) := by
  simp [State.ran, Transport.after_add]

theorem ran_delay (s : State) (k : Nat) (es : List Event) (n : BitVec 6) :
    (s.ran k es).delay n = s.ran k (es ++ delayEvents n) := by
  simp [State.ran, State.delay]

theorem delay_eq_ran (s : State) (n : BitVec 6) : s.delay n = s.ran 0 (delayEvents n) := rfl

@[simp] theorem andThen_ok {α β : Type} (a : α) (s : State) (k : α → State → Result β) :
    (Result.ok a s).andThen k = k a s := rfl

@[simp] theorem andThen_raised {α β : Type} (c : Cause) (s : State) (k : α → State → Result β) :
    (Result.raised c s : Result α).andThen k = .raised c s := rfl

/-! ### The bus primitives -/

theorem busWrite_ok {b : Byte} {s : State} (h : (s.bus.at 0).ok = true) :
    busWrite b s = .ok () (s.ran 1 (settled s.cfg (.W b))) := by
  have h' : s.bus.next.ok = true := h
  simp [busWrite, h', State.ran, State.used, State.emit, State.delay, settled, Transport.after]

theorem busWrite_failed {b : Byte} {s : State} (h : (s.bus.at 0).ok = false) :
    busWrite b s = .raised .transportFailure (s.failed (.Wx b)) := by
  have h' : s.bus.next.ok = false := h
  simp [busWrite, h', State.failed, State.used, State.emit]

theorem busRead_ok {s : State} (h : (s.bus.at 0).ok = true) :
    busRead s = .ok (s.bus.at 0).rdata (s.ran 1 (settled s.cfg (.R (s.bus.at 0).rdata))) := by
  have h' : s.bus.next.ok = true := h
  simp [busRead, h', State.ran, State.used, State.emit, State.delay, settled, Transport.after, Transport.at]

theorem busRead_failed {s : State} (h : (s.bus.at 0).ok = false) :
    busRead s = .raised .transportFailure (s.failed .Rx) := by
  have h' : s.bus.next.ok = false := h
  simp [busRead, h', State.failed, State.used, State.emit]

/-! ### The nibble cycles -/

theorem wrnBody_ok {n : Nibble} {rs rw : Bool} {s : State} (h : s.bus.okFor 3) :
    wrnBody n rs rw s = .ok () (s.ran 3 (wrnEvents s.cfg n rs rw)) := by
  have h0 := h 0 (by omega)
  have h1 := h 1 (by omega)
  have h2 := h 2 (by omega)
  simp [wrnBody, busWrite_ok, h0, h1, h2, Transport.at_after, wrnEvents]

theorem rdnBody_ok {rs rw : Bool} {s : State} (h : s.bus.okFor 4) :
    rdnBody rs rw s = .ok (nibbleField s.cfg.layout (s.bus.at 2).rdata)
      (s.ran 4 (rdnEvents s.cfg rs rw (s.bus.at 2).rdata)) := by
  have h0 := h 0 (by omega)
  have h1 := h 1 (by omega)
  have h2 := h 2 (by omega)
  have h3 := h 3 (by omega)
  simp [rdnBody, busWrite_ok, busRead_ok, h0, h1, h2, h3, Transport.at_after, rdnEvents]

/-- The events of a write cycle whose write number `k` fails. -/
def wrnFailure (c : Config) (n : Nibble) (rs rw : Bool) (k : Nat) : List Event :=
  ([lineByte c n rs rw false, lineByte c n rs rw true].take k).flatMap (fun b => settled c (.W b)) ++
    [.Wx (lineByte c n rs rw (k = 1))]

/-- The events of a read cycle, reading `v`, whose bus operation number `k` fails. -/
def rdnFailure (c : Config) (rs rw : Bool) (v : Byte) (k : Nat) : List Event :=
  ([.W (lineByte c c.rdNib rs rw false), .W (lineByte c c.rdNib rs rw true), Event.R v].take k).flatMap (settled c) ++
    [if k = 2 then .Rx else .Wx (lineByte c c.rdNib rs rw (k = 1))]

/-- The state a cycle leaves whose bus operation number `k` failed, with the events `es`. -/
def State.stopped (s : State) (k : Nat) (es : List Event) : State :=
  { s with bus := s.bus.after (k + 1), dly := if k = 0 then s.dly else 0, trace := s.trace ++ es }

theorem wrnBody_failed {n : Nibble} {rs rw : Bool} {s : State} {k : Nat} (hk : k < 3) (h : s.bus.okFor k)
    (hf : (s.bus.at k).ok = false) :
    wrnBody n rs rw s = .raised .transportFailure (s.stopped k (wrnFailure s.cfg n rs rw k)) := by
  obtain rfl | rfl | rfl : k = 0 ∨ k = 1 ∨ k = 2 := by omega
  · simp [wrnBody, busWrite_failed, hf, State.stopped, State.failed, wrnFailure, Transport.rest_eq_after]
  · have h0 := h 0 (by omega)
    simp [wrnBody, busWrite_ok, busWrite_failed, h0, hf, Transport.at_after, State.stopped, State.failed, State.ran,
      wrnFailure, Transport.rest_eq_after, Transport.after_add]
  · have h0 := h 0 (by omega)
    have h1 := h 1 (by omega)
    simp [wrnBody, busWrite_ok, busWrite_failed, h0, h1, hf, Transport.at_after, State.stopped, State.failed, State.ran,
      wrnFailure, Transport.rest_eq_after, Transport.after_add]

theorem rdnBody_failed {rs rw : Bool} {s : State} {k : Nat} (hk : k < 4) (h : s.bus.okFor k)
    (hf : (s.bus.at k).ok = false) :
    rdnBody rs rw s =
      .raised .transportFailure (s.stopped k (rdnFailure s.cfg rs rw (s.bus.at 2).rdata k)) := by
  obtain rfl | rfl | rfl | rfl : k = 0 ∨ k = 1 ∨ k = 2 ∨ k = 3 := by omega
  · simp [rdnBody, busWrite_failed, hf, State.stopped, State.failed, rdnFailure, Transport.rest_eq_after]
  · have h0 := h 0 (by omega)
    simp [rdnBody, busWrite_ok, busWrite_failed, h0, hf, Transport.at_after, State.stopped, State.failed, State.ran,
      rdnFailure, Transport.rest_eq_after, Transport.after_add]
  · have h0 := h 0 (by omega)
    have h1 := h 1 (by omega)
    simp [rdnBody, busWrite_ok, busRead_failed, h0, h1, hf, Transport.at_after, State.stopped, State.failed, State.ran,
      rdnFailure, Transport.rest_eq_after, Transport.after_add]
  · have h0 := h 0 (by omega)
    have h1 := h 1 (by omega)
    have h2 := h 2 (by omega)
    simp [rdnBody, busWrite_ok, busRead_ok, busWrite_failed, h0, h1, h2, hf, Transport.at_after, State.stopped,
      State.failed, State.ran, rdnFailure, Transport.rest_eq_after, Transport.after_add]

end Sys2Proof.Machine
end

