-- ==== Sys2Proof/Laws/Bodies.lean ====
section
/-! SUPPORT. The status read, the poll loop and the byte send: what each does when the transport lets it
through, when the bound is exhausted, and when a transfer fails. -/

namespace Sys2Proof.Machine

/-! ### Status bytes -/

@[simp] theorem hiNibble_statusByte (n1 n2 : Nibble) : hiNibble (statusByte n1 n2) = n1 := by
  unfold hiNibble statusByte
  ext i hi
  simp only [BitVec.getElem_extractLsb', BitVec.getLsbD_append]
  have : ¬ (4 + i < 4) := by omega
  simp [this, BitVec.getLsbD_eq_getElem hi]

theorem statusOf_eq_ready {b : Byte} : statusOf b = .ready ↔ busyFlag b = false := by
  cases h : busyFlag b <;> simp [statusOf, h]

theorem statusOf_of_busy {b : Byte} (h : busyFlag b = true) : statusOf b = .busy := by simp [statusOf, h]

theorem statusOf_of_ready {b : Byte} (h : busyFlag b = false) : statusOf b = .ready := by simp [statusOf, h]

/-! ### The status read -/

/-- The registers a completed status read leaves. -/
def State.polled (s : State) (b : Byte) : State :=
  { s with nibh := hiNibble b, ac := addressOf b, acRead := true, status := statusOf b }

theorem rdsBody_ok {s : State} (h : s.bus.okFor 8) :
    rdsBody s = .ok (statusRead s.cfg s.bus)
      ((s.ran 8 (statusReadEvents s.cfg s.bus)).polled (statusRead s.cfg s.bus)) := by
  obtain ⟨h1, h2⟩ := Transport.okFor_add (j := 4) (k := 4) |>.mp h
  have h2' : ((s.ran 4 (rdnEvents s.cfg false true (s.bus.at 2).rdata)).latchHigh
      (nibbleField s.cfg.layout (s.bus.at 2).rdata)).bus.okFor 4 := by simpa using h2
  simp only [rdsBody, rdnBody_ok h1, andThen_ok, rdnBody_ok h2']
  simp [State.polled, statusRead, statusReadEvents, rdsEvents, State.ran, State.latchHigh, State.recordStatus,
    Transport.after_add, Transport.at_after]

/-- A failed transfer in a status read: nothing but the lines, `NIBH` and the trace has changed. -/
theorem rdsBody_failed {s : State} {k : Nat} (hk : k < 8) (h : s.bus.okFor k) (hf : (s.bus.at k).ok = false) :
    ∃ t, rdsBody s = .raised .transportFailure t ∧
      t.bus = s.bus.after (k + 1) ∧ t.status = s.status ∧ t.ac = s.ac ∧ t.acRead = s.acRead ∧
      t.phase = s.phase ∧ t.pollcnt = s.pollcnt := by
  by_cases h4 : k < 4
  · simp only [rdsBody, rdnBody_failed h4 h hf, andThen_raised]
    exact ⟨_, rfl, rfl, rfl, rfl, rfl, rfl, rfl⟩
  · obtain ⟨j, rfl⟩ : ∃ j, k = 4 + j := ⟨k - 4, by omega⟩
    obtain ⟨h1, h2⟩ := Transport.okFor_add.mp h
    rw [← Transport.at_after] at hf
    have h2' : ((s.ran 4 (rdnEvents s.cfg false true (s.bus.at 2).rdata)).latchHigh
      (nibbleField s.cfg.layout (s.bus.at 2).rdata)).bus.okFor j := by simpa using h2
    have hf' : (((s.ran 4 (rdnEvents s.cfg false true (s.bus.at 2).rdata)).latchHigh
      (nibbleField s.cfg.layout (s.bus.at 2).rdata)).bus.at j).ok = false := by simpa using hf
    simp only [rdsBody, rdnBody_ok h1, andThen_ok, rdnBody_failed (by omega : j < 4) h2' hf', andThen_raised]
    refine ⟨_, rfl, ?_, rfl, rfl, rfl, rfl, rfl⟩
    simp [State.stopped, Transport.after_add, Nat.add_assoc]

/-! ### The poll loop -/

theorem pollByte_after (c : Config) (b : Transport) (j k : Nat) :
    pollByte c (b.after (8 * j)) k = pollByte c b (j + k) := by
  simp [pollByte, Transport.after_add, Nat.mul_add]

/-- The first poll, then the rest. -/
theorem pollEvents_front (c : Config) (b : Transport) (k : Nat) :
    pollEvents c b (k + 2) =
      statusReadEvents c b ++ delayEvents c.tPollGap ++ pollEvents c (b.after 8) (k + 1) := by
  induction k with
  | zero => simp [pollEvents, Transport.after]
  | succ k ih =>
    rw [pollEvents, ih, pollEvents.eq_def c (b.after 8) (k + 1 + 1)]
    have : 8 + 8 * (k + 1) = 8 * (k + 1 + 1) := by omega
    simp [Transport.after_add, this]

/-- The registers that `k + 1` polls leave, the last of which read `b`. -/
def State.pollsDone (s : State) (k : Nat) (b : Byte) : State :=
  { (s.ran (8 * (k + 1)) (pollEvents s.cfg s.bus (k + 1))).polled b with pollcnt := s.pollcnt + BitVec.ofNat 5 (k + 1) }

/-- The state in which the loop turns: a poll has found the controller busy. -/
def State.turned (s : State) : State :=
  (((s.ran 8 (statusReadEvents s.cfg s.bus)).polled (statusRead s.cfg s.bus)).countPoll).delay s.cfg.tPollGap

theorem turned_bus (s : State) : s.turned.bus = s.bus.after 8 := rfl
theorem turned_cfg (s : State) : s.turned.cfg = s.cfg := rfl
theorem turned_pollcnt (s : State) : s.turned.pollcnt = s.pollcnt + 1 := rfl
theorem turned_phase (s : State) : s.turned.phase = s.phase := rfl
theorem turned_status {s : State} (h : busyFlag (statusRead s.cfg s.bus) = true) : s.turned.status = .busy :=
  statusOf_of_busy h

theorem turned_pollsDone (s : State) (k : Nat) (b : Byte) : s.turned.pollsDone k b = s.pollsDone (k + 1) b := by
  have h : 8 + 8 * (k + 1) = 8 * (k + 1 + 1) := by omega
  have h' : 1#5 + BitVec.ofNat 5 (k + 1) = BitVec.ofNat 5 (k + 1 + 1) := by
    apply BitVec.eq_of_toNat_eq
    simp only [BitVec.toNat_add, BitVec.toNat_ofNat]
    omega
  simp [State.pollsDone, State.turned, State.polled, State.ran, State.delay, State.countPoll, pollEvents_front,
    Transport.after_add, BitVec.add_assoc, h, h']

/-- One turn of the loop that finds the controller busy below the bound. -/
theorem pollLoop_turn {n : Nat} {s : State} (h8 : s.bus.okFor 8) (hb : busyFlag (statusRead s.cfg s.bus) = true)
    (hne : s.pollcnt + 1 ≠ s.cfg.pollBound) : pollLoop (n + 1) s = pollLoop n s.turned := by
  have hb' : ((s.ran 8 (statusReadEvents s.cfg s.bus)).polled (statusRead s.cfg s.bus)).countPoll.status ≠ .ready := by
    simp [State.polled, statusOf_of_busy hb]
  have hne' : ((s.ran 8 (statusReadEvents s.cfg s.bus)).polled (statusRead s.cfg s.bus)).countPoll.pollcnt ≠
      ((s.ran 8 (statusReadEvents s.cfg s.bus)).polled (statusRead s.cfg s.bus)).countPoll.cfg.pollBound := hne
  simp only [pollLoop, rdsBody_ok h8, andThen_ok, if_neg hb', if_neg hne']
  rfl

theorem pollcnt_ne_bound {n : Nat} {s : State} (hn : s.pollcnt.toNat + (n + 1) = s.cfg.pollBound.toNat) (h0 : 0 < n) :
    s.pollcnt + 1 ≠ s.cfg.pollBound := by
  intro h
  have h1 := congrArg BitVec.toNat h
  have h2 := s.cfg.pollBound.isLt
  have h3 : (1 : BitVec 5).toNat = 1 := rfl
  simp only [BitVec.toNat_add, h3] at h1
  omega

theorem turned_count {n : Nat} {s : State} (hn : s.pollcnt.toNat + (n + 1) = s.cfg.pollBound.toNat) :
    s.turned.pollcnt.toNat + n = s.turned.cfg.pollBound.toNat := by
  have h2 := s.cfg.pollBound.isLt
  have h3 : (1 : BitVec 5).toNat = 1 := rfl
  simp only [turned_pollcnt, turned_cfg, BitVec.toNat_add, h3]
  omega

theorem turned_pollByte (s : State) (k : Nat) :
    pollByte s.turned.cfg s.turned.bus k = pollByte s.cfg s.bus (k + 1) := by
  rw [turned_cfg, turned_bus, Nat.add_comm k 1]
  exact pollByte_after s.cfg s.bus 1 k

theorem turned_okFor {s : State} {k : Nat} (h : s.bus.okFor (8 + k)) : s.turned.bus.okFor k :=
  (Transport.okFor_add.mp h).2

theorem pollLoop_ready {n k : Nat} {s : State} (hn : s.pollcnt.toNat + n = s.cfg.pollBound.toNat) (hk : k < n)
    (hok : s.bus.okFor (8 * (k + 1))) (hbusy : ∀ j, j < k → busyFlag (pollByte s.cfg s.bus j) = true)
    (hready : busyFlag (pollByte s.cfg s.bus k) = false) :
    pollLoop n s = .ok () (s.pollsDone k (pollByte s.cfg s.bus k)) := by
  induction n generalizing k s with
  | zero => omega
  | succ n ih =>
    have h8 : s.bus.okFor 8 := Transport.okFor_le hok (by omega)
    cases k with
    | zero =>
      have hr : statusOf (statusRead s.cfg s.bus) = .ready := statusOf_of_ready hready
      simp [pollLoop, rdsBody_ok h8, State.polled, hr, State.pollsDone, State.ran, State.countPoll, pollEvents, pollByte,
        Transport.after]
    | succ k =>
      rw [pollLoop_turn h8 (hbusy 0 (by omega)) (pollcnt_ne_bound hn (by omega)), ← turned_pollByte, ← turned_pollsDone]
      refine ih (turned_count hn) (by omega) (turned_okFor (Transport.okFor_le hok (by omega))) (fun j hj => ?_) ?_
      · rw [turned_pollByte]; exact hbusy _ (by omega)
      · rwa [turned_pollByte]

theorem pollLoop_busy {n : Nat} {s : State} (hn : s.pollcnt.toNat + (n + 1) = s.cfg.pollBound.toNat)
    (hok : s.bus.okFor (8 * (n + 1))) (hbusy : ∀ j, j < n + 1 → busyFlag (pollByte s.cfg s.bus j) = true) :
    pollLoop (n + 1) s = .raised (.timeout (pollByte s.cfg s.bus n))
      ((s.pollsDone n (pollByte s.cfg s.bus n)).setStatus .timeout) := by
  induction n generalizing s with
  | zero =>
    have h8 : s.bus.okFor 8 := Transport.okFor_le hok (by omega)
    have hb : statusOf (statusRead s.cfg s.bus) = .busy := statusOf_of_busy (hbusy 0 (by omega))
    have he : s.pollcnt + 1#5 = s.cfg.pollBound := by
      have h2 := s.cfg.pollBound.isLt
      apply BitVec.eq_of_toNat_eq
      simp only [BitVec.toNat_add, BitVec.toNat_ofNat]
      omega
    simp [pollLoop, rdsBody_ok h8, State.polled, hb, State.pollsDone, State.ran, State.countPoll, pollEvents, pollByte,
      Transport.after, he, State.setStatus]
  | succ n ih =>
    have h8 : s.bus.okFor 8 := Transport.okFor_le hok (by omega)
    rw [pollLoop_turn h8 (hbusy 0 (by omega)) (pollcnt_ne_bound hn (by omega)), ← turned_pollByte, ← turned_pollsDone]
    refine ih (turned_count hn) (turned_okFor (Transport.okFor_le hok (by omega))) (fun j hj => ?_)
    rw [turned_pollByte]; exact hbusy _ (by omega)

theorem pollLoop_failed {n k j : Nat} {s : State} (hn : s.pollcnt.toNat + n = s.cfg.pollBound.toNat) (hk : k < n)
    (hj : j < 8) (hok : s.bus.okFor (8 * k + j)) (hf : (s.bus.at (8 * k + j)).ok = false)
    (hbusy : ∀ i, i < k → busyFlag (pollByte s.cfg s.bus i) = true) (hs : s.status = .busy) :
    ∃ t, pollLoop n s = .raised .transportFailure t ∧ t.status = .busy ∧ t.phase = s.phase ∧
      t.bus = s.bus.after (8 * k + j + 1) := by
  induction n generalizing k s with
  | zero => omega
  | succ n ih =>
    cases k with
    | zero =>
      simp only [Nat.mul_zero, Nat.zero_add] at hok hf ⊢
      obtain ⟨t, ht, hb, hst, -, -, hp, -⟩ := rdsBody_failed hj hok hf
      exact ⟨t, by simp [pollLoop, ht], hst.trans hs, hp, hb⟩
    | succ k =>
      have h8 : s.bus.okFor 8 := Transport.okFor_le hok (by omega)
      have e : 8 * (k + 1) + j = 8 + (8 * k + j) := by omega
      rw [pollLoop_turn h8 (hbusy 0 (by omega)) (pollcnt_ne_bound hn (by omega))]
      rw [e] at hok hf ⊢
      rw [← Transport.at_after] at hf
      obtain ⟨t, ht, hst, hp, hb⟩ := ih (s := s.turned) (turned_count hn) (by omega) (turned_okFor hok) hf
        (fun i hi => by rw [turned_pollByte]; exact hbusy _ (by omega)) (turned_status (hbusy 0 (by omega)))
      exact ⟨t, ht, hst, hp.trans (turned_phase s), by rw [hb, turned_bus, Transport.after_add]; rfl⟩

/-- The ways a poll loop can go, for any answers: ready at a poll, busy at all, or a failed transfer. -/
theorem pollLoop_trichotomy (c : Config) (b : Transport) (n : Nat) :
    (∃ k, k < n ∧ b.okFor (8 * (k + 1)) ∧ (∀ j, j < k → busyFlag (pollByte c b j) = true) ∧
      busyFlag (pollByte c b k) = false) ∨
    (b.okFor (8 * n) ∧ ∀ j, j < n → busyFlag (pollByte c b j) = true) ∨
    (∃ k j, k < n ∧ j < 8 ∧ b.okFor (8 * k + j) ∧ (b.at (8 * k + j)).ok = false ∧
      ∀ i, i < k → busyFlag (pollByte c b i) = true) := by
  induction n with
  | zero => exact .inr (.inl ⟨b.okFor_zero, fun _ h => absurd h (Nat.not_lt_zero _)⟩)
  | succ n ih =>
    rcases ih with ⟨k, hk, h⟩ | ⟨hok, hb⟩ | ⟨k, j, hk, h⟩
    · exact .inl ⟨k, by omega, h⟩
    · rcases (b.after (8 * n)).okFor_or_first_failure 8 with h8 | ⟨j, hj, h, hf⟩
      · have hok' : b.okFor (8 * (n + 1)) := by
          rw [Nat.mul_add]; exact Transport.okFor_add.mpr ⟨hok, h8⟩
        cases hn : busyFlag (pollByte c b n) with
        | false => exact .inl ⟨n, by omega, hok', hb, hn⟩
        | true =>
          refine .inr (.inl ⟨hok', fun j hj => ?_⟩)
          rcases Nat.lt_succ_iff_lt_or_eq.mp hj with h' | rfl
          · exact hb j h'
          · exact hn
      · rw [Transport.at_after] at hf
        exact .inr (.inr ⟨n, j, by omega, hj, Transport.okFor_add.mpr ⟨hok, h⟩, hf, hb⟩)
    · exact .inr (.inr ⟨k, j, by omega, h⟩)

/-! ### The byte send -/

theorem transmit_ok {d : Byte} {rs : Bool} {s : State} (h : s.bus.okFor 6) :
    transmit d rs s = .ok () ((s.setStatus .busy).ran 6 (transmitEvents s.cfg d rs)) := by
  obtain ⟨h1, h2⟩ := Transport.okFor_add (j := 3) (k := 3) |>.mp h
  have h1' : (s.setStatus .busy).bus.okFor 3 := h1
  have h2' : ((s.setStatus .busy).ran 3 (wrnEvents s.cfg (hiNibble d) rs false)).bus.okFor 3 := h2
  simp [transmit, wrnBody_ok h1', wrnBody_ok h2', transmitEvents]

theorem transmit_failed {d : Byte} {rs : Bool} {s : State} {k : Nat} (hk : k < 6) (h : s.bus.okFor k)
    (hf : (s.bus.at k).ok = false) :
    ∃ t, transmit d rs s = .raised .transportFailure t ∧ t.status = .busy ∧ t.phase = s.phase ∧
      t.bus = s.bus.after (k + 1) := by
  by_cases h3 : k < 3
  · have h' : (s.setStatus .busy).bus.okFor k := h
    have hf' : ((s.setStatus .busy).bus.at k).ok = false := hf
    simp only [transmit, wrnBody_failed h3 h' hf', andThen_raised]
    exact ⟨_, rfl, rfl, rfl, rfl⟩
  · obtain ⟨j, rfl⟩ : ∃ j, k = 3 + j := ⟨k - 3, by omega⟩
    obtain ⟨h1, h2⟩ := Transport.okFor_add.mp h
    rw [← Transport.at_after] at hf
    have h1' : (s.setStatus .busy).bus.okFor 3 := h1
    have h2' : ((s.setStatus .busy).ran 3 (wrnEvents s.cfg (hiNibble d) rs false)).bus.okFor j := h2
    have hf' : (((s.setStatus .busy).ran 3 (wrnEvents s.cfg (hiNibble d) rs false)).bus.at j).ok = false := hf
    simp only [transmit, wrnBody_ok h1', andThen_ok, setStatus_cfg, wrnBody_failed (by omega : j < 3) h2' hf']
    refine ⟨_, rfl, rfl, rfl, ?_⟩
    simp [State.stopped, Transport.after_add, Nat.add_assoc]

/-- What a send that is ready at poll `k` leaves. -/
def State.sent (s : State) (d : Byte) (rs : Bool) (k : Nat) : State :=
  { (s.ran (sendOps k) (sendEvents s.cfg d rs s.bus k)).polled (pollByte s.cfg (s.bus.after 6) k) with
    pollcnt := BitVec.ofNat 5 (k + 1) }

theorem sndBody_unchecked {d : Byte} {rs : Bool} {s : State} (h : s.bus.okFor 6) :
    sndBody d rs false s = .ok () ((s.ran 6 (transmitEvents s.cfg d rs)).setStatus .ready) := by
  simp only [sndBody, transmit_ok h, andThen_ok, Bool.false_eq_true, if_false]
  rfl

theorem sndBody_ready {d : Byte} {rs : Bool} {s : State} {k : Nat} (h : sendReady s.cfg s.bus k) :
    sndBody d rs true s = .ok () (s.sent d rs k) := by
  obtain ⟨hok, hk, hbusy, hready⟩ := h
  obtain ⟨h1, h2⟩ := Transport.okFor_add.mp hok
  simp only [sndBody, transmit_ok h1, andThen_ok, if_true]
  have hl := pollLoop_ready (n := s.cfg.pollBound.toNat) (k := k)
    (s := ((s.setStatus .busy).ran 6 (transmitEvents s.cfg d rs)).clearPolls) (by simp) hk h2 hbusy hready
  simp only [ran_cfg, setStatus_cfg]
  rw [hl]
  simp [State.pollsDone, State.sent, State.polled, State.ran, State.clearPolls, State.setStatus, sendEvents, sendOps,
    Transport.after_add]

/-- What a send leaves that every allowed poll finds busy. -/
def State.timedOut (s : State) (d : Byte) (rs : Bool) : State :=
  { (s.ran (6 + 8 * s.cfg.pollBound.toNat)
      (transmitEvents s.cfg d rs ++ pollEvents s.cfg (s.bus.after 6) s.cfg.pollBound.toNat)).polled
      (pollByte s.cfg (s.bus.after 6) (s.cfg.pollBound.toNat - 1)) with
    status := .timeout, pollcnt := s.cfg.pollBound }

theorem sndBody_busy {d : Byte} {rs : Bool} {s : State} (h : sendBusy s.cfg s.bus) (h0 : s.cfg.pollBound ≠ 0) :
    sndBody d rs true s =
      .raised (.timeout (pollByte s.cfg (s.bus.after 6) (s.cfg.pollBound.toNat - 1))) (s.timedOut d rs) := by
  obtain ⟨hok, hbusy⟩ := h
  obtain ⟨h1, h2⟩ := Transport.okFor_add.mp hok
  obtain ⟨n, hn⟩ : ∃ n, s.cfg.pollBound.toNat = n + 1 := by
    refine ⟨s.cfg.pollBound.toNat - 1, ?_⟩
    have : s.cfg.pollBound.toNat ≠ 0 := fun h => h0 (BitVec.eq_of_toNat_eq h)
    omega
  have hb : BitVec.ofNat 5 (n + 1) = s.cfg.pollBound := by rw [← hn]; simp
  simp only [sndBody, transmit_ok h1, andThen_ok, if_true]
  rw [hn] at h2 hbusy
  have hl := pollLoop_busy (n := n) (s := ((s.setStatus .busy).ran 6 (transmitEvents s.cfg d rs)).clearPolls)
    (by simp [hn]) h2 hbusy
  simp only [ran_cfg, setStatus_cfg, hn]
  rw [hl]
  simp [State.pollsDone, State.timedOut, State.polled, State.ran, State.clearPolls, State.setStatus, hn, hb,
    Transport.after_add]

theorem sndBody_transmit_failed {d : Byte} {rs cb : Bool} {s : State} {k : Nat} (hk : k < 6) (h : s.bus.okFor k)
    (hf : (s.bus.at k).ok = false) :
    ∃ t, sndBody d rs cb s = .raised .transportFailure t ∧ t.status = .busy ∧ t.phase = s.phase ∧
      t.bus = s.bus.after (k + 1) := by
  obtain ⟨t, ht, h'⟩ := transmit_failed (d := d) (rs := rs) hk h hf
  exact ⟨t, by simp [sndBody, ht], h'⟩

theorem sndBody_poll_failed {d : Byte} {rs : Bool} {s : State} {k j : Nat} (hk : k < s.cfg.pollBound.toNat) (hj : j < 8)
    (h : s.bus.okFor (6 + (8 * k + j))) (hf : (s.bus.at (6 + (8 * k + j))).ok = false)
    (hbusy : ∀ i, i < k → busyFlag (pollByte s.cfg (s.bus.after 6) i) = true) :
    ∃ t, sndBody d rs true s = .raised .transportFailure t ∧ t.status = .busy ∧ t.phase = s.phase ∧
      t.bus = s.bus.after (6 + (8 * k + j) + 1) := by
  obtain ⟨h1, h2⟩ := Transport.okFor_add.mp h
  rw [← Transport.at_after] at hf
  simp only [sndBody, transmit_ok h1, andThen_ok, if_true]
  obtain ⟨t, ht, hs, hp, hb⟩ := pollLoop_failed (n := s.cfg.pollBound.toNat)
    (s := ((s.setStatus .busy).ran 6 (transmitEvents s.cfg d rs)).clearPolls) (by simp) hk hj h2 hf hbusy rfl
  refine ⟨t, ht, hs, hp, ?_⟩
  rw [hb]; simp [Transport.after_add, Nat.add_assoc]

/-- Every way a busy-checked send can end. -/
theorem sndBody_cases (d : Byte) (rs : Bool) {s : State} (h0 : s.cfg.pollBound ≠ 0) :
    (∃ k, sendReady s.cfg s.bus k ∧ sndBody d rs true s = .ok () (s.sent d rs k)) ∨
    (sendBusy s.cfg s.bus ∧ sndBody d rs true s =
      .raised (.timeout (pollByte s.cfg (s.bus.after 6) (s.cfg.pollBound.toNat - 1))) (s.timedOut d rs)) ∨
    (∃ t, sndBody d rs true s = .raised .transportFailure t ∧ t.status = .busy ∧ t.phase = s.phase) := by
  rcases s.bus.okFor_or_first_failure 6 with h6 | ⟨k, hk, h, hf⟩
  · rcases pollLoop_trichotomy s.cfg (s.bus.after 6) s.cfg.pollBound.toNat with
      ⟨k, hk, hok, hb, hr⟩ | ⟨hok, hb⟩ | ⟨k, j, hk, hj, hok, hf, hb⟩
    · have hr' : sendReady s.cfg s.bus k := ⟨Transport.okFor_add.mpr ⟨h6, hok⟩, hk, hb, hr⟩
      exact .inl ⟨k, hr', sndBody_ready hr'⟩
    · have hb' : sendBusy s.cfg s.bus := ⟨Transport.okFor_add.mpr ⟨h6, hok⟩, hb⟩
      exact .inr (.inl ⟨hb', sndBody_busy hb' h0⟩)
    · rw [Transport.at_after] at hf
      obtain ⟨t, ht, hs, hp, -⟩ := sndBody_poll_failed (d := d) (rs := rs) hk hj (Transport.okFor_add.mpr ⟨h6, hok⟩) hf hb
      exact .inr (.inr ⟨t, ht, hs, hp⟩)
  · obtain ⟨t, ht, hs, hp, -⟩ := sndBody_transmit_failed (d := d) (rs := rs) (cb := true) hk h hf
    exact .inr (.inr ⟨t, ht, hs, hp⟩)

end Sys2Proof.Machine
end

