-- ==== Sys2Proof/Laws/Decode.lean ====
section
/-! SUPPORT. Words and fields: the fields of a word give it back, and decoding fields succeeds exactly on the
well-formed ones, with an instruction that has those fields. -/

namespace Sys2Proof

theorem ofWord_toWord (w : Word) : (Fields.ofWord w).toWord = w := by
  unfold Fields.ofWord Fields.toWord
  apply BitVec.eq_of_getLsbD_eq
  intro i hi
  simp only [BitVec.getLsbD_append]
  interval_cases i <;> simp [BitVec.getLsbD_extractLsb']

/-- Fields that decode are well-formed, and are those of the instruction they decode to. -/
theorem fieldsDecode_sound {f : Fields} {i : Instr} (h : f.decode = .ok i) : i.wellFormed = true ∧ i.fields = f ∧ f.wellFormed = true := by
  obtain ⟨op, z, cb, rw, rs, data⟩ := f
  unfold Fields.decode at h
  split at h
  · cases h
  · next o ho =>
    split at h
    · next hz =>
      obtain rfl := Except.ok.inj h
      have e : op = o.opcode := (by decide : ∀ (v : BitVec 4) (o : Op), Op.ofOpcode v = some o → v = o.opcode) op o ho
      subst e
      have hd : ∀ data : Byte, data.extractLsb' 4 4 = 0 → (data.extractLsb' 0 4).setWidth 8 = data := by decide +kernel
      have hd' : ∀ data : Byte, data.extractLsb' 4 4 = 0 → data.toNat < 16 := by decide +kernel
      cases o <;> simp_all [Fields.zerosOk, Op.instr, Instr.wellFormed, Instr.fields, Fields.wellFormed, Op.opcode]
    · cases h

/-- Well-formed fields decode. -/
theorem fieldsDecode_complete {f : Fields} (h : f.wellFormed = true) : ∃ i, f.decode = .ok i := by
  obtain ⟨op, z, cb, rw, rs, data⟩ := f
  revert h
  have hd' : ∀ data : Byte, data.toNat < 16 → data.extractLsb' 4 4 = 0 := by decide +kernel
  have hd0 : ∀ data : Byte, data.toNat = 0 → data = 0 := by decide +kernel
  have eo : ∀ n : Nat, op.toNat = n → op = BitVec.ofNat 4 n := by rintro n rfl; simp
  intro h
  unfold Fields.wellFormed at h
  split at h
  all_goals first
    | (next e => 
        replace e := eo _ e
        subst e
        simp only [Bool.and_eq_true, Bool.not_eq_true', decide_eq_true_eq] at h
        have := hd' data
        have := hd0 data
        simp_all [Fields.decode, Op.ofOpcode, Fields.zerosOk])
    | cases h

end Sys2Proof
end

