-- ==== Sys2Proof/Laws/Events.lean ====
section
/-! SUPPORT. Counting and timing event lists: every count of `Safety` is additive over `++`, and what each expected
event list counts to. -/

namespace Sys2Proof.Machine

/-! ### Additivity -/

theorem pinsAfter_append (p : Option Byte) (es fs : List Event) : pinsAfter p (es ++ fs) = pinsAfter (pinsAfter p es) fs := by
  induction es generalizing p with
  | nil => rfl
  | cons e es ih => cases e <;> simp [pinsAfter, ih]

@[simp] theorem pinsAfter_delay (p : Option Byte) (n : BitVec 6) : pinsAfter p (delayEvents n) = p := by
  unfold delayEvents; split <;> rfl

theorem pulses_append (c : Config) (es fs : List Event) : enablePulses c (es ++ fs) = enablePulses c es + enablePulses c fs := by
  induction es with
  | nil => simp [enablePulses]
  | cons e es ih => cases e <;> simp [enablePulses, ih]; omega
@[simp] theorem pulses_delay (c : Config) (n : BitVec 6) : enablePulses c (delayEvents n) = 0 := by
  unfold delayEvents; split <;> rfl

theorem countW_append (es fs : List Event) : countW (es ++ fs) = countW es + countW fs := by
  induction es with
  | nil => simp [countW]
  | cons e es ih => cases e <;> simp [countW, ih]; omega
theorem countR_append (es fs : List Event) : countR (es ++ fs) = countR es + countR fs := by
  induction es with
  | nil => simp [countR]
  | cons e es ih => cases e <;> simp [countR, ih]; omega
theorem minTime_append (es fs : List Event) : minTime (es ++ fs) = minTime es + minTime fs := by
  induction es with
  | nil => simp [minTime]
  | cons e es ih => cases e <;> simp [minTime, ih]; omega
@[simp] theorem countW_delay (n : BitVec 6) : countW (delayEvents n) = 0 := by unfold delayEvents; split <;> rfl
@[simp] theorem countR_delay (n : BitVec 6) : countR (delayEvents n) = 0 := by unfold delayEvents; split <;> rfl
@[simp] theorem minTime_delay (n : BitVec 6) : minTime (delayEvents n) = n.toNat := by
  unfold delayEvents; split
  · next h => subst h; rfl
  · simp [minTime]

/-! ### What the cycles count to -/

theorem pins_wrn (c : Config) (p : Option Byte) (n : Nibble) (rs rw : Bool) : pinsAfter p (wrnEvents c n rs rw) = some (lineByte c n rs rw false) := by
  simp [wrnEvents, settled, pinsAfter_append, pinsAfter]
theorem pins_rdn (c : Config) (p : Option Byte) (rs rw : Bool) (v : Byte) : pinsAfter p (rdnEvents c rs rw v) = some (lineByte c c.rdNib rs rw false) := by
  simp [rdnEvents, settled, pinsAfter_append, pinsAfter]

theorem counts_wrn (c : Config) (n : Nibble) (rs rw : Bool) : countW (wrnEvents c n rs rw) = 3 ∧ countR (wrnEvents c n rs rw) = 0 ∧ minTime (wrnEvents c n rs rw) = 3 * c.tSettle.toNat := by
  refine ⟨?_, ?_, ?_⟩ <;> simp [wrnEvents, settled, countW_append, countR_append, minTime_append, countW, countR, minTime]; omega
theorem counts_rdn (c : Config) (rs rw : Bool) (v : Byte) : countW (rdnEvents c rs rw v) = 3 ∧ countR (rdnEvents c rs rw v) = 1 ∧ minTime (rdnEvents c rs rw v) = 4 * c.tSettle.toNat := by
  refine ⟨?_, ?_, ?_⟩ <;> simp [rdnEvents, settled, countW_append, countR_append, minTime_append, countW, countR, minTime]; omega

theorem counts_poll (c : Config) (b : Transport) (k : Nat) : countW (pollEvents c b k) = 6 * k ∧ countR (pollEvents c b k) = 2 * k := by
  induction k with
  | zero => exact ⟨rfl, rfl⟩
  | succ k ih =>
    have a : countW (if k = 0 then [] else delayEvents c.tPollGap) = 0 := by split <;> simp [countW]
    have b : countR (if k = 0 then [] else delayEvents c.tPollGap) = 0 := by split <;> simp [countR]
    simp [pollEvents, countW_append, countR_append, ih.1, ih.2, a, b, statusReadEvents, rdsEvents, (counts_rdn _ _ _ _).1, (counts_rdn _ _ _ _).2.1]
    omega
theorem time_poll (c : Config) (b : Transport) (k : Nat) (hg : c.tPollGap = 0) : minTime (pollEvents c b k) = 8 * c.tSettle.toNat * k := by
  induction k with
  | zero => rfl
  | succ k ih =>
    simp [pollEvents, minTime_append, hg, ih, statusReadEvents, rdsEvents, (counts_rdn _ _ _ _).2.2, delayEvents, minTime]
    ring

theorem counts_transmit (c : Config) (d : Byte) (rs : Bool) : countW (transmitEvents c d rs) = 6 ∧ countR (transmitEvents c d rs) = 0 ∧ minTime (transmitEvents c d rs) = 6 * c.tSettle.toNat := by
  refine ⟨?_, ?_, ?_⟩ <;> simp [transmitEvents, countW_append, countR_append, minTime_append, counts_wrn]; omega

theorem time_send (c : Config) (d : Byte) (rs : Bool) (b : Transport) (k : Nat) (h1 : c.tSettle = 1) (h2 : c.tPollGap = 0) :
    minTime (sendEvents c d rs b k) = 6 + 8 * (k + 1) := by
  simp [sendEvents, minTime_append, (counts_transmit c d rs).2.2, time_poll _ _ _ h2, h1]

theorem time_sends (c : Config) (ds : List Byte) (ks : List Nat) (b : Transport) (h1 : c.tSettle = 1)
    (h2 : c.tPollGap = 0) (hl : ds.length = ks.length) :
    minTime (sendsEvents c ds ks b) = 14 * ks.length + 8 * ks.sum := by
  induction ks generalizing ds b with
  | nil => cases ds <;> simp_all [sendsEvents, minTime]
  | cons k ks ih =>
    cases ds with
    | nil => simp at hl
    | cons d ds =>
      rw [sendsEvents, minTime_append, time_send _ _ _ _ _ h1 h2, ih _ _ (by simpa using hl), List.length_cons,
        List.sum_cons]
      omega

/-- An initialisation with the default delays: `45 + (3 + 5) + (3 + 1) + (3 + 1) + 3` and its sends
(70_reset_and_hazards.md R251). -/
theorem time_init (ks : List Nat) (b : Transport) (hl : ks.length = 5) :
    minTime (initEvents Config.default ks b) = 134 + 8 * ks.sum := by
  have h := time_sends Config.default Config.default.initCommands ks (b.after 13) rfl rfl (by rw [hl]; rfl)
  have e1 : Config.default.tPowerOn.toNat = 45 := rfl
  have e2 : Config.default.tRst1.toNat = 5 := rfl
  have e3 : Config.default.tRst2.toNat = 1 := rfl
  have e4 : Config.default.tRst3.toNat = 1 := rfl
  have e5 : Config.default.tSettle.toNat = 1 := rfl
  simp only [initEvents, minTime_append, h, hl, (counts_wrn _ _ _ _).2.2, minTime_delay, minTime, e1, e2, e3, e4, e5]
  omega

end Sys2Proof.Machine
end

