-- ==== Sys2Proof/Laws/Init.lean ====
section
/-! SUPPORT. The initialisation sequence: what it leaves when every step succeeds, and every way it can
end. -/

namespace Sys2Proof.Machine

theorem resetPulse_ok {t : BitVec 6} {s : State} (h : s.bus.okFor 3) :
    resetPulse t s = .ok () (s.ran 3 (wrnEvents s.cfg s.cfg.nibReset false false ++ delayEvents t)) := by
  simp [resetPulse, wrnBody_ok h, ran_delay]

/-! ### The five sends -/

/-- What a sequence of ready sends leaves. -/
def State.sentAll (s : State) : List Byte → List Nat → State
  | d :: ds, k :: ks => (s.sent d false k).sentAll ds ks
  | [], _            => s
  | _ :: _, []       => s

theorem sent_bus (s : State) (d : Byte) (rs : Bool) (k : Nat) : (s.sent d rs k).bus = s.bus.after (sendOps k) := rfl

theorem sent_cfg (s : State) (d : Byte) (rs : Bool) (k : Nat) : (s.sent d rs k).cfg = s.cfg := rfl

/-- The closed form of a non-empty sequence of ready sends. -/
theorem sentAll_eq (s : State) (ds : List Byte) (ks : List Nat) (hl : ds.length = ks.length) (hks : ks ≠ []) :
    s.sentAll ds ks =
      { (s.ran (ks.map sendOps).sum (sendsEvents s.cfg ds ks s.bus)).polled (lastPollByte s.cfg ks s.bus) with
        pollcnt := BitVec.ofNat 5 (ks.getLastD 0 + 1) } := by
  induction ks generalizing s ds with
  | nil => exact absurd rfl hks
  | cons k ks ih =>
    obtain ⟨d, ds, rfl⟩ : ∃ d ds', ds = d :: ds' := by
      cases ds with
      | nil => simp at hl
      | cons d ds => exact ⟨d, ds, rfl⟩
    cases ks with
    | nil =>
      obtain rfl : ds = [] := by simpa using hl
      simp [State.sentAll, State.sent, sendsEvents, lastPollByte]
    | cons j ks =>
      rw [State.sentAll, ih (s.sent d false k) ds (by simpa using hl) (by simp)]
      simp [State.sent, State.polled, State.ran, sendsEvents, lastPollByte, Transport.after_add]

theorem sendCommands_ready {ds : List Byte} {ks : List Nat} {s : State} (hl : ds.length = ks.length)
    (h : sendsReady s.cfg ks s.bus) : sendCommands ds s = .ok () (s.sentAll ds ks) := by
  induction ds generalizing s ks with
  | nil => simp [sendCommands, State.sentAll]
  | cons d ds ih =>
    cases ks with
    | nil => simp at hl
    | cons k ks =>
      simp only [sendCommands, sndBody_ready h.1, andThen_ok]
      exact ih (by simpa using hl) (by simpa [sent_cfg, sent_bus] using h.2)

/-- Every way the sends can end. -/
theorem sendCommands_cases (ds : List Byte) {s : State} (h0 : s.cfg.pollBound ≠ 0) :
    (∃ ks, ks.length = ds.length ∧ sendsReady s.cfg ks s.bus ∧ sendCommands ds s = .ok () (s.sentAll ds ks)) ∨
    (∃ b t, sendCommands ds s = .raised (.timeout b) t ∧ busyFlag b = true ∧ t.status = .timeout ∧
      t.ac = addressOf b ∧ t.acRead = true ∧ t.phase = s.phase) ∨
    (∃ t, sendCommands ds s = .raised .transportFailure t ∧ t.status = .busy ∧ t.phase = s.phase) := by
  induction ds generalizing s with
  | nil => exact .inl ⟨[], rfl, trivial, rfl⟩
  | cons d ds ih =>
    rcases sndBody_cases d false h0 with ⟨k, hk, h⟩ | ⟨hb, h⟩ | ⟨t, h, hs, hp⟩
    · rcases ih (s := s.sent d false k) h0 with ⟨ks, hl, hr, he⟩ | ⟨b, t, he, h'⟩ | ⟨t, he, h'⟩
      · exact .inl ⟨k :: ks, by simp [hl], ⟨hk, hr⟩, by simp [sendCommands, h, he, State.sentAll]⟩
      · exact .inr (.inl ⟨b, t, by simp [sendCommands, h, he], h'⟩)
      · exact .inr (.inr ⟨t, by simp [sendCommands, h, he], h'⟩)
    · refine .inr (.inl ⟨pollByte s.cfg (s.bus.after 6) (s.cfg.pollBound.toNat - 1), s.timedOut d false,
        by simp only [sendCommands, h, andThen_raised], ?_, rfl, rfl, rfl, rfl⟩)
      have h1 : s.cfg.pollBound.toNat ≠ 0 := fun h => h0 (BitVec.eq_of_toNat_eq h)
      exact hb.2 _ (by omega)
    · exact .inr (.inr ⟨t, by simp [sendCommands, h], hs, hp⟩)

/-! ### The sequence -/

/-- The events of steps 1 to 3 after the probe. -/
def wakeEvents (c : Config) : List Event :=
  delayEvents c.tPowerOn ++
  (wrnEvents c c.nibReset false false ++ delayEvents c.tRst1) ++
  (wrnEvents c c.nibReset false false ++ delayEvents c.tRst2) ++
  (wrnEvents c c.nibReset false false ++ delayEvents c.tRst3) ++
  wrnEvents c c.nibMode4 false false

/-- With the twelve writes of steps 2 and 3 let through, the sequence is its sends. -/
theorem iniSequence_awake {s : State} (h : s.bus.okFor 12) :
    iniSequence s = (sendCommands s.cfg.initCommands (s.ran 12 (wakeEvents s.cfg))).andThen
      fun _ t => .ok () (t.setPhase .operational) := by
  obtain ⟨h1, h'⟩ := Transport.okFor_add (j := 3) (k := 9) |>.mp h
  obtain ⟨h2, h'⟩ := Transport.okFor_add (j := 3) (k := 6) |>.mp h'
  obtain ⟨h3, h4⟩ := Transport.okFor_add (j := 3) (k := 3) |>.mp h'
  simp only [Transport.after_add] at h2 h3 h4
  have h1' : (s.ran 0 (delayEvents s.cfg.tPowerOn)).bus.okFor 3 := h1
  simp only [iniSequence, delay_eq_ran, resetPulse_ok h1', andThen_ok, ran_ran, ran_cfg]
  rw [resetPulse_ok (by simpa using h2)]
  simp only [andThen_ok, ran_ran, ran_cfg]
  rw [resetPulse_ok (by simpa using h3)]
  simp only [andThen_ok, ran_ran, ran_cfg]
  rw [wrnBody_ok (by simpa using h4)]
  simp only [andThen_ok, ran_ran, ran_cfg]
  simp [wakeEvents]

theorem resetPulse_failed {t : BitVec 6} {s : State} {k : Nat} (hk : k < 3) (h : s.bus.okFor k)
    (hf : (s.bus.at k).ok = false) :
    ∃ u, resetPulse t s = .raised .transportFailure u ∧ u.status = s.status ∧ u.phase = s.phase := by
  simp only [resetPulse, wrnBody_failed hk h hf, andThen_raised]
  exact ⟨_, rfl, rfl, rfl⟩

theorem iniSequence_not_awake {s : State} {k : Nat} (hk : k < 12) (h : s.bus.okFor k) (hf : (s.bus.at k).ok = false) :
    ∃ u, iniSequence s = .raised .transportFailure u ∧ u.status = s.status ∧ u.phase = s.phase := by
  by_cases k1 : k < 3
  · have h' : (s.ran 0 (delayEvents s.cfg.tPowerOn)).bus.okFor k := h
    have hf' : ((s.ran 0 (delayEvents s.cfg.tPowerOn)).bus.at k).ok = false := hf
    obtain ⟨u, hu, h''⟩ := resetPulse_failed (t := s.cfg.tRst1) k1 h' hf'
    exact ⟨u, by simp [iniSequence, delay_eq_ran, hu], h''⟩
  have h1 : (s.ran 0 (delayEvents s.cfg.tPowerOn)).bus.okFor 3 := Transport.okFor_le (k := k) h (by omega)
  simp only [iniSequence, delay_eq_ran, resetPulse_ok h1, andThen_ok, ran_ran, ran_cfg]
  by_cases k2 : k < 6
  · obtain ⟨j, rfl⟩ : ∃ j, k = 3 + j := ⟨k - 3, by omega⟩
    have h2 := (Transport.okFor_add.mp h).2
    rw [← Transport.at_after] at hf
    obtain ⟨u, hu, h''⟩ := resetPulse_failed (t := s.cfg.tRst2)
      (s := s.ran (0 + 3) (delayEvents s.cfg.tPowerOn ++
        (wrnEvents s.cfg s.cfg.nibReset false false ++ delayEvents s.cfg.tRst1))) (by omega : j < 3) h2 hf
    exact ⟨u, by rw [hu]; rfl, h''⟩
  have h2 : (s.bus.after 3).okFor 3 := (Transport.okFor_add.mp (Transport.okFor_le h (by omega : 3 + 3 ≤ k))).2
  rw [resetPulse_ok (by simpa using h2)]
  simp only [andThen_ok, ran_ran, ran_cfg]
  by_cases k3 : k < 9
  · obtain ⟨j, rfl⟩ : ∃ j, k = 6 + j := ⟨k - 6, by omega⟩
    have h3 := (Transport.okFor_add.mp h).2
    rw [← Transport.at_after] at hf
    obtain ⟨u, hu, h''⟩ := resetPulse_failed (t := s.cfg.tRst3)
      (s := s.ran (0 + 3 + 3) (delayEvents s.cfg.tPowerOn ++
        (wrnEvents s.cfg s.cfg.nibReset false false ++ delayEvents s.cfg.tRst1) ++
        (wrnEvents s.cfg s.cfg.nibReset false false ++ delayEvents s.cfg.tRst2))) (by omega : j < 3) h3 hf
    exact ⟨u, by rw [hu]; rfl, h''⟩
  have h3 : (s.bus.after 6).okFor 3 := (Transport.okFor_add.mp (Transport.okFor_le h (by omega : 6 + 3 ≤ k))).2
  rw [resetPulse_ok (by simpa using h3)]
  simp only [andThen_ok, ran_ran, ran_cfg]
  obtain ⟨j, rfl⟩ : ∃ j, k = 9 + j := ⟨k - 9, by omega⟩
  have h4 := (Transport.okFor_add.mp h).2
  rw [← Transport.at_after] at hf
  rw [wrnBody_failed (by omega : j < 3) (by simpa using h4) (by simpa using hf)]
  exact ⟨_, rfl, rfl, rfl⟩

/-- What a whole initialisation leaves. -/
def State.initialised (s : State) (ks : List Nat) : State :=
  { s with
    phase := .operational, status := statusOf (lastPollByte s.cfg ks (s.bus.after 13)),
    ac := addressOf (lastPollByte s.cfg ks (s.bus.after 13)), acRead := true,
    nibh := hiNibble (lastPollByte s.cfg ks (s.bus.after 13)),
    pollcnt := BitVec.ofNat 5 (ks.getLastD 0 + 1),
    bus := s.bus.after (13 + (ks.map sendOps).sum), dly := 0,
    trace := s.trace ++ initEvents s.cfg ks s.bus }

theorem lastPollByte_ready {c : Config} {ks : List Nat} {b : Transport} (hks : ks ≠ []) (h : sendsReady c ks b) :
    busyFlag (lastPollByte c ks b) = false := by
  induction ks generalizing b with
  | nil => exact absurd rfl hks
  | cons k ks ih =>
    cases ks with
    | nil => exact h.1.2.2.2
    | cons j ks => exact ih (by simp) h.2

/-- The state in which the sequence after the probe starts. -/
def State.probed (s : State) : State := (s.used.emit [.P true]).setPhase .running

theorem iniBody_present {s : State} (h : (s.bus.at 0).ok = true) :
    iniBody s = (iniSequence s.probed).onRaise abortInit := by
  have h' : s.bus.next.ok = true := h
  simp [iniBody, busProbe, h', State.probed]

theorem iniBody_absent {s : State} (h : (s.bus.at 0).ok = false) :
    iniBody s = .raised .deviceUnavailable (s.used.emit [.P false]) := by
  have h' : s.bus.next.ok = false := h
  simp [iniBody, busProbe, h']

theorem probed_bus (s : State) : s.probed.bus = s.bus.after 1 := rfl

theorem probed_cfg (s : State) : s.probed.cfg = s.cfg := rfl

theorem iniBody_ready {s : State} {ks : List Nat} (hl : ks.length = 5) (h : s.bus.okFor 13)
    (hr : sendsReady s.cfg ks (s.bus.after 13)) : iniBody s = .ok () (s.initialised ks) := by
  obtain ⟨h0, h12⟩ := Transport.okFor_add (j := 1) (k := 12) |>.mp h
  have h12' : s.probed.bus.okFor 12 := h12
  have hc : s.probed.cfg.initCommands.length = ks.length := by rw [hl]; rfl
  have hne : ks ≠ [] := by rintro rfl; simp at hl
  rw [iniBody_present (h0 0 (by omega)), iniSequence_awake h12', sendCommands_ready hc (by simpa [probed_bus, probed_cfg, Transport.after_add] using hr),
    sentAll_eq _ _ _ hc hne]
  simp [Result.onRaise, State.initialised, State.probed, State.polled, State.ran, State.setPhase, State.used, State.emit,
    initEvents, wakeEvents, Transport.rest_eq_after, Transport.after_add]

/-- Every way an initialisation can end. -/
theorem iniBody_cases {s : State} (h0 : s.cfg.pollBound ≠ 0) :
    ((s.bus.at 0).ok = false ∧ iniBody s = .raised .deviceUnavailable (s.used.emit [.P false])) ∨
    (∃ ks, ks.length = 5 ∧ s.bus.okFor 13 ∧ sendsReady s.cfg ks (s.bus.after 13) ∧
      iniBody s = .ok () (s.initialised ks)) ∨
    (∃ b t, iniBody s = .raised (.timeout b) t ∧ busyFlag b = true ∧ t.status = .timeout ∧
      t.ac = addressOf b ∧ t.acRead = true ∧ t.phase = .aborted) ∨
    (∃ t, iniBody s = .raised .transportFailure t ∧ (t.status = s.status ∨ t.status = .busy) ∧ t.phase = .aborted) := by
  cases hp : (s.bus.at 0).ok with
  | false => exact .inl ⟨rfl, iniBody_absent hp⟩
  | true =>
    right
    rcases s.probed.bus.okFor_or_first_failure 12 with h | ⟨k, hk, h, hf⟩
    · have h13 : s.bus.okFor 13 := by
        refine Transport.okFor_add (j := 1) (k := 12) |>.mpr ⟨fun i hi => ?_, h⟩
        obtain rfl : i = 0 := by omega
        exact hp
      rcases sendCommands_cases s.probed.cfg.initCommands (s := s.probed.ran 12 (wakeEvents s.probed.cfg)) h0 with
        ⟨ks, hl, hr, -⟩ | ⟨b, t, he, hb, hs, ha, hr, -⟩ | ⟨t, he, hs, -⟩
      · have hr' : sendsReady s.cfg ks (s.bus.after 13) := by
          simpa [probed_bus, probed_cfg, Transport.after_add] using hr
        exact .inl ⟨ks, hl, h13, hr', iniBody_ready hl h13 hr'⟩
      · refine .inr (.inl ⟨b, abortInit t, ?_, hb, hs, ha, hr, rfl⟩)
        rw [iniBody_present hp, iniSequence_awake h, he]; rfl
      · refine .inr (.inr ⟨abortInit t, ?_, .inr hs, rfl⟩)
        rw [iniBody_present hp, iniSequence_awake h, he]; rfl
    · obtain ⟨u, hu, hs, -⟩ := iniSequence_not_awake hk h hf
      refine .inr (.inr ⟨abortInit u, ?_, .inl hs, rfl⟩)
      rw [iniBody_present hp, hu]; rfl

end Sys2Proof.Machine
end

