-- ==== Sys2Proof/Laws/Traffic.lean ====
section
/-! SUPPORT. What every body and every operation keeps, said once: the registers no body writes, and that its
bus events are lines of the expander, each settled, the only failed one being the last. -/

namespace Sys2Proof.Machine

/-! ### Properties of event lists -/

/-- Every byte written is one of the block's lines. -/
def OnlyLines (c : Config) (es : List Event) : Prop :=
  ∀ e ∈ es, ∀ b, e.written = some b → ∃ n rs rw en, b = lineByte c n rs rw en

theorem OnlyLines.append {c : Config} {es fs : List Event} (h : OnlyLines c es) (h' : OnlyLines c fs) :
    OnlyLines c (es ++ fs) := fun e he => (List.mem_append.mp he).elim (h e) (h' e)

theorem onlyLines_nil (c : Config) : OnlyLines c [] := fun _ h => absurd h (by simp)

theorem onlyLines_delay (c : Config) (n : BitVec 6) : OnlyLines c (delayEvents n) := by
  intro e he b hb
  unfold delayEvents at he
  split at he <;> simp at he
  subst he; simp [Event.written] at hb

theorem startsWithDelay_append {n : Nat} {es fs : List Event} (h : startsWithDelay n es = true) :
    startsWithDelay n (es ++ fs) = true := by
  cases es with
  | nil => simp [startsWithDelay] at h
  | cons e es => cases e <;> simp_all [startsWithDelay]

theorem spaced_append {n : Nat} {es fs : List Event} (h : spaced n es = true) (h' : spaced n fs = true) :
    spaced n (es ++ fs) = true := by
  induction es with
  | nil => exact h'
  | cons e es ih =>
    cases e <;> simp only [List.cons_append, spaced, Bool.and_eq_true] at h ⊢
    all_goals first
      | exact ih h
      | exact ⟨startsWithDelay_append h.1, ih h.2⟩

theorem spaced_delay (k : Nat) (n : BitVec 6) : spaced k (delayEvents n) = true := by
  unfold delayEvents; split <;> rfl

/-- No transfer of the list failed. -/
def NoFailure (es : List Event) : Prop := ∀ e ∈ es, e.failed = false

theorem NoFailure.append {es fs : List Event} (h : NoFailure es) (h' : NoFailure fs) : NoFailure (es ++ fs) :=
  fun e he => (List.mem_append.mp he).elim (h e) (h' e)

theorem noFailure_delay (n : BitVec 6) : NoFailure (delayEvents n) := by
  intro e he
  unfold delayEvents at he
  split at he <;> simp at he
  subst he; rfl

/-! ### Traffic -/

/-- `t` comes from `s` by the bus events `es`, which keep the rules of the lines and of the settles; the
registers no body writes are unchanged. -/
structure Traffic (s : State) (es : List Event) (t : State) : Prop where
  cfg      : t.cfg = s.cfg
  req      : t.req = s.req
  rst      : t.rst = s.rst
  host     : t.host = s.host
  trace    : t.trace = s.trace ++ es
  lines    : OnlyLines s.cfg es
  settles  : s.cfg.tSettle ≠ 0 → spaced s.cfg.tSettle.toNat es = true

theorem Traffic.trans {s t u : State} {es fs : List Event} (h : Traffic s es t) (h' : Traffic t fs u) :
    Traffic s (es ++ fs) u where
  cfg := h'.cfg.trans h.cfg
  req := h'.req.trans h.req
  rst := h'.rst.trans h.rst
  host := h'.host.trans h.host
  trace := by rw [h'.trace, h.trace, List.append_assoc]
  lines := h.lines.append (h.cfg ▸ h'.lines)
  settles := fun h0 => spaced_append (h.settles h0) (h.cfg ▸ h'.settles (h.cfg ▸ h0))

/-- A change of registers without bus events. -/
theorem Traffic.still {s t : State} (hc : t.cfg = s.cfg) (hr : t.req = s.req) (hrst : t.rst = s.rst)
    (hh : t.host = s.host) (ht : t.trace = s.trace) : Traffic s [] t where
  cfg := hc
  req := hr
  rst := hrst
  host := hh
  trace := by simp [ht]
  lines := onlyLines_nil _
  settles := fun _ => rfl

theorem Traffic.delay (s : State) (n : BitVec 6) : Traffic s (delayEvents n) (s.delay n) :=
  ⟨rfl, rfl, rfl, rfl, rfl, onlyLines_delay _ _, fun _ => spaced_delay _ _⟩

/-- Nothing failed; or the cause is a transport failure, and only the last event is one. -/
def Result.Lawful {α : Type} (s : State) : Result α → Prop
  | .ok _ t     => ∃ es, Traffic s es t ∧ NoFailure es
  | .raised c t => ∃ es, Traffic s es t ∧
      ((c ≠ .transportFailure ∧ NoFailure es) ∨
       (c = .transportFailure ∧ ∃ pre e, es = pre ++ [e] ∧ NoFailure pre ∧ e.failed = true))

theorem Result.Lawful.after {α : Type} {s t : State} {es : List Event} {r : Result α} (h : r.Lawful t)
    (ht : Traffic s es t) (hf : NoFailure es) : r.Lawful s := by
  cases r with
  | ok a u =>
    obtain ⟨fs, hu, hn⟩ := h
    exact ⟨es ++ fs, ht.trans hu, hf.append hn⟩
  | raised c u =>
    obtain ⟨fs, hu, h⟩ := h
    refine ⟨es ++ fs, ht.trans hu, h.imp (fun h => ⟨h.1, hf.append h.2⟩) ?_⟩
    rintro ⟨hc, pre, e, rfl, hp, he⟩
    exact ⟨hc, es ++ pre, e, by simp, hf.append hp, he⟩

theorem Result.Lawful.andThen {α β : Type} {s : State} {r : Result α} {k : α → State → Result β} (h : r.Lawful s)
    (hk : ∀ a t, (k a t).Lawful t) : (r.andThen k).Lawful s := by
  cases r with
  | ok a t => obtain ⟨es, ht, hn⟩ := h; exact (hk a t).after ht hn
  | raised c t => exact h

theorem noFailure_nil : NoFailure [] := fun _ h => absurd h (by simp)

/-- A body that starts with writing registers. -/
theorem Result.Lawful.still {α : Type} {s t : State} {r : Result α} (h : r.Lawful t) (ht : Traffic s [] t) :
    r.Lawful s := h.after ht noFailure_nil

theorem lawful_ok {α : Type} (a : α) (s : State) : (Result.ok a s).Lawful s :=
  ⟨[], .still rfl rfl rfl rfl rfl, fun _ h => absurd h (by simp)⟩

theorem settled_noFailure {c : Config} {e : Event} (h : e.failed = false) : NoFailure (settled c e) := by
  intro x hx
  rcases List.mem_cons.mp hx with rfl | hx
  · exact h
  · exact noFailure_delay _ x hx

theorem spaced_settled {c : Config} {e : Event} (h0 : c.tSettle ≠ 0) :
    spaced c.tSettle.toNat (settled c e) = true := by
  simp only [settled, delayEvents, if_neg h0]
  cases e <;> simp [spaced, startsWithDelay]

theorem busWrite_lawful (n : Nibble) (rs rw en : Bool) (s : State) :
    (busWrite (lineByte s.cfg n rs rw en) s).Lawful s := by
  cases h : (s.bus.at 0).ok with
  | true =>
    rw [busWrite_ok h]
    refine ⟨_, ⟨rfl, rfl, rfl, rfl, rfl, ?_, fun h0 => spaced_settled h0⟩, settled_noFailure rfl⟩
    intro e he b hb
    rcases List.mem_cons.mp he with rfl | he
    · exact ⟨n, rs, rw, en, (Option.some.inj hb).symm⟩
    · exact onlyLines_delay s.cfg _ e he b hb
  | false =>
    rw [busWrite_failed h]
    refine ⟨_, ⟨rfl, rfl, rfl, rfl, rfl, ?_, fun _ => rfl⟩, .inr ⟨rfl, [], _, rfl, fun _ h => absurd h (by simp), rfl⟩⟩
    intro e he b hb
    obtain rfl := List.mem_singleton.mp he
    exact ⟨n, rs, rw, en, (Option.some.inj hb).symm⟩

theorem busRead_lawful (s : State) : (busRead s).Lawful s := by
  cases h : (s.bus.at 0).ok with
  | true =>
    rw [busRead_ok h]
    refine ⟨_, ⟨rfl, rfl, rfl, rfl, rfl, ?_, fun h0 => spaced_settled h0⟩, settled_noFailure rfl⟩
    intro e he b hb
    rcases List.mem_cons.mp he with rfl | he
    · simp [Event.written] at hb
    · exact onlyLines_delay s.cfg _ e he b hb
  | false =>
    rw [busRead_failed h]
    refine ⟨_, ⟨rfl, rfl, rfl, rfl, rfl, ?_, fun _ => rfl⟩, .inr ⟨rfl, [], _, rfl, fun _ h => absurd h (by simp), rfl⟩⟩
    intro e he b hb
    obtain rfl := List.mem_singleton.mp he
    simp [Event.written] at hb

/-! ### The bodies -/

theorem wrnBody_lawful (n : Nibble) (rs rw : Bool) (s : State) : (wrnBody n rs rw s).Lawful s :=
  (busWrite_lawful n rs rw false s).andThen fun _ t =>
    (busWrite_lawful n rs rw true t).andThen fun _ u => busWrite_lawful n rs rw false u

theorem rdnBody_lawful (rs rw : Bool) (s : State) : (rdnBody rs rw s).Lawful s :=
  (busWrite_lawful _ rs rw false s).andThen fun _ t =>
    (busWrite_lawful _ rs rw true t).andThen fun _ u => (busRead_lawful u).andThen fun _ v =>
      (busWrite_lawful _ rs rw false v).andThen fun _ w => lawful_ok _ w

theorem rdsBody_lawful (s : State) : (rdsBody s).Lawful s :=
  (rdnBody_lawful false true s).andThen fun hi t =>
    ((rdnBody_lawful false true (t.latchHigh hi)).andThen fun lo u =>
      (lawful_ok _ (u.recordStatus (statusByte u.nibh lo))).still (.still rfl rfl rfl rfl rfl)).still
      (.still rfl rfl rfl rfl rfl)

theorem raised_timeout_lawful {α : Type} {s t : State} {b : Byte} (h : Traffic s [] t) :
    (Result.raised (.timeout b) t : Result α).Lawful s :=
  ⟨[], h, .inl ⟨by simp, noFailure_nil⟩⟩

theorem pollLoop_lawful (k : Nat) (s : State) : (pollLoop k s).Lawful s := by
  induction k generalizing s with
  | zero => exact raised_timeout_lawful (.still rfl rfl rfl rfl rfl)
  | succ k ih =>
    refine (rdsBody_lawful s).andThen fun b t => ?_
    refine Result.Lawful.still (t := t.countPoll) ?_ (.still rfl rfl rfl rfl rfl)
    dsimp only
    split
    · exact lawful_ok _ _
    · split
      · exact raised_timeout_lawful (.still rfl rfl rfl rfl rfl)
      · exact (ih _).after (Traffic.delay t.countPoll _) (noFailure_delay _)

theorem transmit_lawful (d : Byte) (rs : Bool) (s : State) : (transmit d rs s).Lawful s :=
  Result.Lawful.still (t := s.setStatus .busy)
    ((wrnBody_lawful _ rs false _).andThen fun _ t => wrnBody_lawful _ rs false t) (.still rfl rfl rfl rfl rfl)

theorem sndBody_lawful (d : Byte) (rs cb : Bool) (s : State) : (sndBody d rs cb s).Lawful s := by
  refine (transmit_lawful d rs s).andThen fun _ t => ?_
  cases cb with
  | true => exact (pollLoop_lawful t.cfg.pollBound.toNat t.clearPolls).still (.still rfl rfl rfl rfl rfl)
  | false => exact (lawful_ok () (t.setStatus .ready)).still (.still rfl rfl rfl rfl rfl)

theorem resetPulse_lawful (n : BitVec 6) (s : State) : (resetPulse n s).Lawful s :=
  (wrnBody_lawful _ _ _ s).andThen fun _ t => (lawful_ok () (t.delay n)).after (Traffic.delay t n) (noFailure_delay n)

theorem sendCommands_lawful (ds : List Byte) (s : State) : (sendCommands ds s).Lawful s := by
  induction ds generalizing s with
  | nil => exact lawful_ok _ _
  | cons d ds ih => exact (sndBody_lawful d false true s).andThen fun _ t => ih t

theorem iniSequence_lawful (s : State) : (iniSequence s).Lawful s := by
  refine Result.Lawful.after (t := s.delay s.cfg.tPowerOn) ?_ (Traffic.delay s _) (noFailure_delay _)
  refine (resetPulse_lawful _ _).andThen fun _ s1 => ?_
  refine (resetPulse_lawful _ _).andThen fun _ s2 => ?_
  refine (resetPulse_lawful _ _).andThen fun _ s3 => ?_
  refine (wrnBody_lawful _ _ _ s3).andThen fun _ s4 => ?_
  refine (sendCommands_lawful _ s4).andThen fun _ s5 => ?_
  exact (lawful_ok () (s5.setPhase .operational)).still (.still rfl rfl rfl rfl rfl)

theorem Result.Lawful.onRaiseAbort {α : Type} {s : State} {r : Result α} (h : r.Lawful s) :
    (r.onRaise abortInit).Lawful s := by
  cases r with
  | ok a t => exact h
  | raised c t =>
    obtain ⟨es, ht, h⟩ := h
    exact ⟨es, ⟨ht.cfg, ht.req, ht.rst, ht.host, ht.trace, ht.lines, ht.settles⟩, h⟩

theorem probe_traffic (s : State) (r : Bool) : Traffic s [.P r] (s.used.emit [.P r]) :=
  ⟨rfl, rfl, rfl, rfl, rfl, by intro e he b hb; simp at he; subst he; simp [Event.written] at hb, fun _ => rfl⟩

theorem probe_noFailure (r : Bool) : NoFailure [.P r] := by intro e he; simp at he; subst he; rfl

theorem iniBody_lawful (s : State) : (iniBody s).Lawful s := by
  cases h : (s.bus.at 0).ok with
  | true =>
    rw [iniBody_present h]
    exact ((iniSequence_lawful s.probed).onRaiseAbort.still (s := s.used.emit [.P true])
      (.still rfl rfl rfl rfl rfl)).after (probe_traffic s true) (probe_noFailure true)
  | false =>
    rw [iniBody_absent h]
    exact ⟨_, probe_traffic s false, .inl ⟨by simp, probe_noFailure false⟩⟩

/-! ### The operations -/

/-- The body of an instruction, as its meaning serves it. -/
def bodyOf : Instr → State → Result Byte
  | .wrn n rs rw => fun s => (wrnBody n rs rw s).andThen fun _ s => .ok 0 s
  | .rdn rs rw   => fun s => (rdnBody rs rw s).andThen fun n s => .ok (nibbleData n) s
  | .rds         => rdsBody
  | .snd d rs cb => fun s => (sndBody d rs cb s).andThen fun _ s => .ok 0 s
  | .ini         => fun s => (iniBody s).andThen fun _ s => .ok 0 s
  | .clr         => fun s => .ok 0 (returnFromTimeout s)

/-- Every meaning is a request served with its body. -/
theorem exec_eq_serve (i : Instr) (s : State) : exec i s = .next (serve i.op (bodyOf i) s) := by
  cases i <;> rfl

theorem returnFromTimeout_still (s : State) : Traffic s [] (returnFromTimeout s) := by
  unfold returnFromTimeout; split <;> exact .still rfl rfl rfl rfl rfl

theorem bodyOf_lawful (i : Instr) (s : State) : (bodyOf i s).Lawful s := by
  cases i with
  | wrn n rs rw => exact (wrnBody_lawful n rs rw s).andThen fun _ t => lawful_ok _ t
  | rdn rs rw => exact (rdnBody_lawful rs rw s).andThen fun _ t => lawful_ok _ t
  | rds => exact rdsBody_lawful s
  | snd d rs cb => exact (sndBody_lawful d rs cb s).andThen fun _ t => lawful_ok _ t
  | ini => exact (iniBody_lawful s).andThen fun _ t => lawful_ok _ t
  | clr => exact (lawful_ok 0 (returnFromTimeout s)).still (returnFromTimeout_still s)

/-- What a request can do: be refused, end `OK`, or end with a cause; the response says which. -/
theorem serve_cases (op : Op) (body : State → Result Byte) (s : State) :
    (∃ c, admission op s = some c ∧ serve op body s = takeException c s) ∨
    (admission op s = none ∧ ∃ d t, body s = .ok d t ∧ serve op body s = t.respond 0 d) ∨
    (admission op s = none ∧ ∃ c t, body s = .raised c t ∧ serve op body s = takeException c t) := by
  cases h : admission op s with
  | some c => exact .inl ⟨c, rfl, by simp [serve, h]⟩
  | none =>
    cases hb : body s with
    | ok d t => exact .inr (.inl ⟨rfl, d, t, rfl, by simp [serve, h, hb]⟩)
    | raised c t => exact .inr (.inr ⟨rfl, c, t, rfl, by simp [serve, h, hb]⟩)

theorem code_eq_three {c : Cause} : c.code = 3 ↔ c = .transportFailure := by
  cases c <;> simp [Cause.code]

/-- Admission refuses with a refusal, never with a failure. -/
theorem admit_ne_failure {op : Op} {s : State} {c : Cause} (h : admission op s = some c) : c ≠ .transportFailure := by
  rintro rfl
  unfold admission at h
  split at h <;> [simp at h; skip]
  split at h <;> [simp at h; skip]
  split at h <;> split at h <;> simp at h

end Sys2Proof.Machine
end

