-- ==== Sys2Proof/Laws/Exec.lean ====
section
/-! SUPPORT. What `exec` and `step` answer, said once: the state a request ends in, its events, the causes a body can
raise, and what is known of a request that ended `OK`. -/

namespace Sys2Proof.Machine

/-! ### The state a body ends in -/

/-- The state a body leaves, whether or not it raised. -/
def Result.final {α : Type} : Result α → State
  | .ok _ t     => t
  | .raised _ t => t

theorem andThen_ok_inv {α β : Type} {r : Result α} {k : α → State → Result β} {b : β} {u : State} (h : r.andThen k = .ok b u) :
    ∃ a t, r = .ok a t ∧ k a t = .ok b u := by
  cases r with
  | ok a t => exact ⟨a, t, rfl, h⟩
  | raised c t => cases h

/-! ### A request -/

/-- An operation that an operational block without a latched timeout admits. -/
theorem admit_op {op : Op} {s : State} (h : s.phase = .operational) (h' : s.status ≠ .timeout) (hi : op ≠ .ini) :
    admission op s = none := by simp [admission, h, h', hi]

theorem exec_next {i : Instr} {s t : State} (h : exec i s = .next t) : serve i.op (bodyOf i) s = t := by
  rw [exec_eq_serve] at h; injection h

/-- The causes of a refusal. -/
theorem admit_causes {op : Op} {s : State} {c : Cause} (h : admission op s = some c) : c = .timeoutLatched ∨ c = .initState ∨ c = .notInitialised := by
  unfold admission at h
  split at h <;> [simp at h; skip]
  split at h <;> [(simp at h; simp [← h]); skip]
  split at h <;> split at h <;> simp at h <;> simp [← h]

/-- A request ends in the state it started from or in the one its body left, with a response. -/
theorem exec_final {i : Instr} {s t : State} (h : exec i s = .next t) :
    ∃ code data, t = s.respond code data ∨ t = (bodyOf i s).final.respond code data := by
  replace h := exec_next h
  rcases serve_cases i.op (bodyOf i) s with ⟨c, ha, hs⟩ | ⟨-, d, u, hb, hs⟩ | ⟨-, c, u, hb, hs⟩
  · exact ⟨c.code, c.data, .inl (h.symm.trans hs)⟩
  · exact ⟨0, d, .inr (h.symm.trans (by rw [hs, hb]; rfl))⟩
  · exact ⟨c.code, c.data, .inr (h.symm.trans (by rw [hs, hb]; rfl))⟩

/-- The events of a request: no failed transfer, or code 3 and the last event the only failed one. -/
theorem exec_traffic {i : Instr} {s t : State} (h : exec i s = .next t) :
    ∃ es, Traffic s es t ∧ ((t.rspCode ≠ 3 ∧ NoFailure es) ∨ (t.rspCode = 3 ∧ ∃ pre e, es = pre ++ [e] ∧ NoFailure pre ∧ e.failed = true)) := by
  replace h := exec_next h
  rcases serve_cases i.op (bodyOf i) s with ⟨c, ha, hs⟩ | ⟨-, d, u, hb, hs⟩ | ⟨-, c, u, hb, hs⟩
  · rw [hs] at h; subst h
    exact ⟨[], .still rfl rfl rfl rfl rfl, .inl ⟨fun h => admit_ne_failure ha (code_eq_three.mp h), noFailure_nil⟩⟩
  · have hl := bodyOf_lawful i s
    rw [hb] at hl; obtain ⟨es, ht, hn⟩ := hl
    rw [hs] at h; subst h
    exact ⟨es, ⟨ht.cfg, ht.req, ht.rst, ht.host, ht.trace, ht.lines, ht.settles⟩, .inl ⟨by simp [State.respond], hn⟩⟩
  · have hl := bodyOf_lawful i s
    rw [hb] at hl; obtain ⟨es, ht, hn⟩ := hl
    rw [hs] at h; subst h
    refine ⟨es, ⟨ht.cfg, ht.req, ht.rst, ht.host, ht.trace, ht.lines, ht.settles⟩, hn.imp (fun h => ⟨fun h' => h.1 (code_eq_three.mp h'), h.2⟩) (fun h => ⟨code_eq_three.mpr h.1, h.2⟩)⟩

/-- A request that ends `OK` was admitted and its body ended with the response data. -/
theorem exec_ok {i : Instr} {s t : State} (h : exec i s = .next t) (h0 : t.rspCode = 0) :
    ∃ d u, bodyOf i s = .ok d u ∧ t = u.respond 0 d ∧ admission i.op s = none := by
  replace h := exec_next h
  rcases serve_cases i.op (bodyOf i) s with ⟨c, ha, hs⟩ | ⟨ha, d, u, hb, hs⟩ | ⟨-, c, u, hb, hs⟩
  · rw [hs] at h; subst h; cases c <;> simp [takeException, State.respond, Cause.code] at h0
  · exact ⟨d, u, hb, (h.symm.trans hs), ha⟩
  · rw [hs] at h; subst h; cases c <;> simp [takeException, State.respond, Cause.code] at h0

/-! ### Bodies that end without a raise -/

/-- A busy-checked send that ends found the controller ready at some poll within the bound. -/
theorem sndBody_ok_inv {d : Byte} {rs : Bool} {s u : State} {a : Unit} (h : sndBody d rs true s = .ok a u) :
    ∃ k, sendReady s.cfg s.bus k ∧ u = s.sent d rs k := by
  by_cases h0 : s.cfg.pollBound = 0
  · exfalso
    rcases s.bus.okFor_or_first_failure 6 with h6 | ⟨k, hk, h6, hf⟩
    · simp [sndBody, transmit_ok h6, h0, pollLoop] at h
    · obtain ⟨v, hv, -⟩ := sndBody_transmit_failed (d := d) (rs := rs) (cb := true) hk h6 hf
      rw [hv] at h; cases h
  · rcases sndBody_cases d rs h0 with ⟨k, hk, e⟩ | ⟨-, e⟩ | ⟨v, e, -⟩ <;> rw [e] at h <;> cases h
    exact ⟨k, hk, rfl⟩

theorem sendCommands_ok_inv {ds : List Byte} {s u : State} {a : Unit} (h : sendCommands ds s = .ok a u) :
    ∃ ks, ks.length = ds.length ∧ sendsReady s.cfg ks s.bus := by
  induction ds generalizing s with
  | nil => exact ⟨[], rfl, trivial⟩
  | cons d ds ih =>
    obtain ⟨_, t, h1, h2⟩ := andThen_ok_inv h
    obtain ⟨k, hk, rfl⟩ := sndBody_ok_inv h1
    obtain ⟨ks, hl, hr⟩ := ih h2
    exact ⟨k :: ks, by simp [hl], hk, hr⟩

/-- An initialisation that ends had its device, its twelve writes and its five ready sends. -/
theorem iniBody_ok_inv {s u : State} {a : Unit} (h : iniBody s = .ok a u) :
    ∃ ks, ks.length = 5 ∧ s.bus.okFor 13 ∧ sendsReady s.cfg ks (s.bus.after 13) ∧ u = s.initialised ks := by
  cases hp : (s.bus.at 0).ok with
  | false => rw [iniBody_absent hp] at h; cases h
  | true =>
    rcases s.probed.bus.okFor_or_first_failure 12 with h12 | ⟨k, hk, h12, hf⟩
    · have h13 : s.bus.okFor 13 := by
        refine Transport.okFor_add (j := 1) (k := 12) |>.mpr ⟨fun i hi => ?_, h12⟩
        obtain rfl : i = 0 := by omega
        exact hp
      have h' := h
      rw [iniBody_present hp, iniSequence_awake h12] at h'
      cases hr : sendCommands s.probed.cfg.initCommands (s.probed.ran 12 (wakeEvents s.probed.cfg)) with
      | raised c t => rw [hr] at h'; cases h'
      | ok a t =>
        obtain ⟨ks, hl, hr⟩ := sendCommands_ok_inv hr
        have hr' : sendsReady s.cfg ks (s.bus.after 13) := by
          simpa [probed_bus, probed_cfg, Transport.after_add] using hr
        refine ⟨ks, hl, h13, hr', ?_⟩
        rw [iniBody_ready hl h13 hr'] at h; cases h; rfl
    · obtain ⟨v, hv, -⟩ := iniSequence_not_awake hk h12 hf
      rw [iniBody_present hp, hv] at h; cases h

/-- The events of an operation that ended `OK`. -/
def OkEvents (s t : State) (es : List Event) (i : Instr) : Prop :=
    match i with
    | .wrn n rs rw => es = wrnEvents s.cfg n rs rw
    | .rdn rs rw => ∃ v, es = rdnEvents s.cfg rs rw v
    | .rds => ∃ v w, es = rdsEvents s.cfg v w
    | .snd d rs false => es = transmitEvents s.cfg d rs
    | .snd d rs true => ∃ k, sendReady s.cfg s.bus k ∧ es = sendEvents s.cfg d rs s.bus k ∧ t.pollcnt = BitVec.ofNat 5 (k + 1)
    | .ini => ∃ ks, ks.length = 5 ∧ es = initEvents s.cfg ks s.bus
    | .clr => es = []

theorem ok_events {i : Instr} {s t : State} (h : exec i s = .next t) (h0 : t.rspCode = 0) :
    ∃ es, t.trace = s.trace ++ es ∧ OkEvents s t es i := by
  obtain ⟨d, u, hb, rfl, -⟩ := exec_ok h h0
  cases i with
  | wrn n rs rw =>
    rcases s.bus.okFor_or_first_failure 3 with h3 | ⟨k, hk, h3, hf⟩
    · simp only [bodyOf, wrnBody_ok h3, andThen_ok] at hb; cases hb; exact ⟨_, rfl, rfl⟩
    · simp [bodyOf, wrnBody_failed hk h3 hf] at hb
  | rdn rs rw =>
    rcases s.bus.okFor_or_first_failure 4 with h3 | ⟨k, hk, h3, hf⟩
    · simp only [bodyOf, rdnBody_ok h3, andThen_ok] at hb; cases hb; exact ⟨_, rfl, _, rfl⟩
    · simp [bodyOf, rdnBody_failed hk h3 hf] at hb
  | rds =>
    rcases s.bus.okFor_or_first_failure 8 with h3 | ⟨k, hk, h3, hf⟩
    · simp only [bodyOf, rdsBody_ok h3] at hb; cases hb; exact ⟨_, rfl, _, _, rfl⟩
    · obtain ⟨v, hv, -⟩ := rdsBody_failed hk h3 hf
      simp [bodyOf, hv] at hb
  | snd d rs cb =>
    cases cb with
    | false =>
      rcases s.bus.okFor_or_first_failure 6 with h3 | ⟨k, hk, h3, hf⟩
      · simp only [bodyOf, sndBody_unchecked h3, andThen_ok] at hb; cases hb; exact ⟨_, rfl, rfl⟩
      · obtain ⟨v, hv, -⟩ := sndBody_transmit_failed (d := d) (rs := rs) (cb := false) hk h3 hf
        simp [bodyOf, hv] at hb
    | true =>
      obtain ⟨a, v, h1, h2⟩ := andThen_ok_inv hb
      obtain ⟨k, hk, rfl⟩ := sndBody_ok_inv h1
      cases h2
      exact ⟨_, rfl, k, hk, rfl, rfl⟩
  | ini =>
    obtain ⟨a, v, h1, h2⟩ := andThen_ok_inv hb
    obtain ⟨ks, hl, -, -, rfl⟩ := iniBody_ok_inv h1
    cases h2
    exact ⟨_, rfl, ks, hl, rfl⟩
  | clr => cases hb; exact ⟨[], by simp [(returnFromTimeout_still s).trace], rfl⟩

/-! ### What a body can raise -/

theorem pollLoop_causes (n : Nat) (s : State) {c : Cause} {t : State} (h : pollLoop n s = .raised c t) :
    c = .transportFailure ∨ ∃ b, c = .timeout b := by
  induction n generalizing s with
  | zero => cases h; exact .inr ⟨_, rfl⟩
  | succ n ih =>
    rcases s.bus.okFor_or_first_failure 8 with h8 | ⟨k, hk, h8, hf⟩
    · simp only [pollLoop, rdsBody_ok h8, andThen_ok] at h
      split at h
      · cases h
      · split at h
        · cases h; exact .inr ⟨_, rfl⟩
        · exact ih _ h
    · obtain ⟨v, hv, -⟩ := rdsBody_failed hk h8 hf
      simp only [pollLoop, hv, andThen_raised] at h; cases h; exact .inl rfl

theorem sndBody_causes {d : Byte} {rs cb : Bool} {s : State} {c : Cause} {t : State}
    (h : sndBody d rs cb s = .raised c t) : c = .transportFailure ∨ ∃ b, c = .timeout b := by
  rcases s.bus.okFor_or_first_failure 6 with h6 | ⟨k, hk, h6, hf⟩
  · cases cb with
    | false => rw [sndBody_unchecked h6] at h; cases h
    | true => simp only [sndBody, transmit_ok h6, andThen_ok, if_true] at h; exact pollLoop_causes _ _ h
  · obtain ⟨u, hu, -⟩ := sndBody_transmit_failed (d := d) (rs := rs) (cb := cb) hk h6 hf
    rw [hu] at h; cases h; exact .inl rfl

theorem sendCommands_causes {ds : List Byte} {s : State} {c : Cause} {t : State}
    (h : sendCommands ds s = .raised c t) : c = .transportFailure ∨ ∃ b, c = .timeout b := by
  induction ds generalizing s with
  | nil => cases h
  | cons d ds ih =>
    simp only [sendCommands] at h
    cases hr : sndBody d false true s with
    | ok a u => rw [hr] at h; exact ih h
    | raised c' u => rw [hr] at h; cases h; exact sndBody_causes hr

theorem iniSequence_causes {s : State} {c : Cause} {t : State} (h : iniSequence s = .raised c t) :
    c = .transportFailure ∨ ∃ b, c = .timeout b := by
  rcases s.bus.okFor_or_first_failure 12 with h12 | ⟨k, hk, h12, hf⟩
  · rw [iniSequence_awake h12] at h
    cases hr : sendCommands s.cfg.initCommands (s.ran 12 (wakeEvents s.cfg)) with
    | ok a t => rw [hr] at h; cases h
    | raised c t => rw [hr] at h; cases h; exact sendCommands_causes hr
  · obtain ⟨v, hv, -⟩ := iniSequence_not_awake hk h12 hf
    rw [hv] at h; cases h; exact .inl rfl

/-! ### PHASE -/

theorem pollLoop_phase (n : Nat) (s : State) : (pollLoop n s).final.phase = s.phase := by
  induction n generalizing s with
  | zero => rfl
  | succ n ih =>
    rcases s.bus.okFor_or_first_failure 8 with h8 | ⟨k, hk, h8, hf⟩
    · simp only [pollLoop, rdsBody_ok h8, andThen_ok]
      split
      · rfl
      · split
        · rfl
        · rw [ih]; rfl
    · obtain ⟨v, hv, -, -, -, -, hp, hq⟩ := rdsBody_failed hk h8 hf
      simp only [pollLoop, hv, andThen_raised]; exact hp

/-- No body but that of `INI` writes `PHASE`. -/
theorem bodyOf_phase {i : Instr} (hi : i.op ≠ .ini) (s : State) : (bodyOf i s).final.phase = s.phase := by
  cases i with
  | wrn n rs rw =>
    rcases s.bus.okFor_or_first_failure 3 with h | ⟨k, hk, h, hf⟩
    · simp [bodyOf, wrnBody_ok h, Result.final]
    · simp [bodyOf, wrnBody_failed hk h hf, State.stopped, Result.final]
  | rdn rs rw =>
    rcases s.bus.okFor_or_first_failure 4 with h | ⟨k, hk, h, hf⟩
    · simp [bodyOf, rdnBody_ok h, Result.final]
    · simp [bodyOf, rdnBody_failed hk h hf, State.stopped, Result.final]
  | rds =>
    rcases s.bus.okFor_or_first_failure 8 with h8 | ⟨k, hk, h8, hf⟩
    · rw [bodyOf, rdsBody_ok h8]; rfl
    · obtain ⟨v, hv, -, -, -, -, hp, hq⟩ := rdsBody_failed hk h8 hf
      rw [bodyOf, hv]; exact hp
  | snd d rs cb =>
    rcases s.bus.okFor_or_first_failure 6 with h6 | ⟨k, hk, h6, hf⟩
    · cases cb with
      | false => simp only [bodyOf, sndBody_unchecked h6]; rfl
      | true =>
        have h : ∀ r : Result Unit, (r.andThen fun _ s => Result.ok (0 : Byte) s).final = r.final := by
          intro r; cases r <;> rfl
        simp only [bodyOf, sndBody, transmit_ok h6, andThen_ok, if_true, h, pollLoop_phase]; rfl
    · obtain ⟨u, hu, hs, hp, -⟩ := sndBody_transmit_failed (d := d) (rs := rs) (cb := cb) hk h6 hf
      simp only [bodyOf, hu]; exact hp
  | ini => exact absurd rfl hi
  | clr => simp only [bodyOf, Result.final, returnFromTimeout]; split <;> rfl

/-! ### A step of an idle block -/

/-- The three things a step of an idle block can be: a reset, a wait, a request taken. -/
theorem step_idle {s t : State} (hi : s.seq = .idle) (h : step s = .next t) :
    (s.rst = true ∧ t = s.applyReset) ∨ (s.rst = false ∧ s.host = [] ∧ t = s) ∨
    (s.rst = false ∧ ∃ w ws, s.host = w :: ws ∧ ((∃ i, decode w = .ok i ∧ exec i (s.take w ws) = .next t) ∨
      (∃ e, decode w = .error e ∧ t = takeException .illegalRequest (s.take w ws)))) := by
  unfold step at h
  cases hr : s.rst with
  | true => simp [hr] at h; exact .inl ⟨rfl, h.symm⟩
  | false =>
    simp only [hr, hi, serveNext] at h
    simp only [Bool.false_eq_true, if_false] at h
    split at h
    · next e => cases h; exact .inr (.inl ⟨rfl, e, rfl⟩)
    · next w ws e =>
      refine .inr (.inr ⟨rfl, w, ws, e, ?_⟩)
      split at h
      · next i e => exact .inl ⟨i, e, h⟩
      · next x e => cases h; exact .inr ⟨x, e, rfl⟩

end Sys2Proof.Machine
end

