-- ==== Sys2Proof/Laws/PerInstr.lean ====
section
/-! SUPPORT. The law stated instruction by instruction: an instruction is well-formed whatever its operands (their types
carry the widths), and the `OP` field of its word is its opcode (30_encoding.md R90). -/

namespace Sys2Proof.Laws.WordFits

/-- The instruction is well-formed, and its word has its opcode in bits 15:12. -/
def Statement (i : Instr) : Prop := i.wellFormed = true ∧ (encode i).extractLsb' 12 4 = i.op.opcode

theorem wrn (n : Nibble) (rs rw : Bool) : Statement (.wrn n rs rw) := by
  unfold Statement; revert n rs rw; decide

theorem rdn (rs rw : Bool) : Statement (.rdn rs rw) := by
  unfold Statement; revert rs rw; decide

theorem rds : Statement .rds := by unfold Statement; decide

theorem snd (d : Byte) (rs cb : Bool) : Statement (.snd d rs cb) := by
  unfold Statement; revert d rs cb; decide +kernel

theorem ini : Statement .ini := by unfold Statement; decide

theorem clr : Statement .clr := by unfold Statement; decide

end Sys2Proof.Laws.WordFits
end

