-- ==== Sys2Proof/Laws/Run.lean ====
section
/-! SUPPORT. The sequencer against the bodies: each body, run by single steps from a state in flight at the first of its
primitives, reaches the state the body leaves. -/

namespace Sys2Proof.Machine

/-! ### Runs in flight -/

/-- `s` with an operation in flight. -/
def inFlight (s : State) (op : Op) (n : Nat) (k : List Micro) (v : Byte) : State := { s with seq := .flight op n k v }

/-- Single steps lead from `a` to `b`, with no request taken before `b`. -/
def Run (a b : State) : Prop := ∃ n, fineRun n a = b ∧ ∀ m, m < n → reqReady (fineRun m a) = false

theorem fineRun_add (m n : Nat) (s : State) : fineRun (m + n) s = fineRun n (fineRun m s) := by
  induction m generalizing s with
  | zero => simp [fineRun]
  | succ m ih => rw [Nat.add_right_comm]; exact ih _

theorem Run.refl (a : State) : Run a a := ⟨0, rfl, fun _ h => absurd h (Nat.not_lt_zero _)⟩
theorem Run.trans {a b c} (h : Run a b) (h' : Run b c) : Run a c := by
  obtain ⟨m, rfl, hm⟩ := h
  obtain ⟨n, rfl, hn⟩ := h'
  refine ⟨m + n, fineRun_add _ _ _, fun j hj => ?_⟩
  by_cases h : j < m
  · exact hm j h
  · obtain ⟨i, rfl⟩ := Nat.exists_eq_add_of_le (Nat.le_of_not_lt h)
    rw [fineRun_add]; exact hn i (by omega)
theorem Run.one {s : State} {op n k v} {b : State} (hr : s.rst = false) (h : seqStep (inFlight s op n k v) = b) : Run (inFlight s op n k v) b := by
  refine ⟨1, ?_, fun m hm => ?_⟩
  · subst h
    have : (inFlight s op n k v).rst = false := hr
    simp only [fineRun, fineStep, this]
    rfl
  · obtain rfl : m = 0 := by omega
    simp [fineRun, reqReady, inFlight]

/-- A delay counts down to 0. -/
theorem run_drain (s : State) (op n k v) (hr : s.rst = false) : ∀ (d : Nat) (x : BitVec 6), x.toNat = d → 
   Run (inFlight { s with dly := x } op n k v) (inFlight { s with dly := 0 } op n k v) := by
  intro d
  induction d with
  | zero =>
    intro x hx
    obtain rfl : x = 0 := BitVec.eq_of_toNat_eq (by simpa using hx)
    exact Run.refl _
  | succ d ih =>
    intro x hx
    have h0 : x ≠ 0#6 := by rintro rfl; simp at hx
    have h1 : (x - 1#6).toNat = d := by 
      have := BitVec.toNat_sub_of_le (x := x) (y := 1#6) (by simp [BitVec.le_def]; omega)
      rw [this, hx]; simp
    refine Run.trans (b := inFlight { s with dly := x - 1 } op n k v) (Run.one (s := {s with dly := x}) hr ?_) (ih _ h1)
    simp [seqStep, inFlight, h0, State.tick]

/-- What a raise in flight comes to: the clean-up of `INI` when its sequence is running, then the exception. -/
def afterRaise (c : Cause) (s : State) : State := takeException c (if s.phase = .running then abortInit s else s)

/-- A raise runs to its response. -/
theorem run_raise {t : State} {op : Op} {n : Nat} {c : Cause} {v : Byte} (hd : t.dly = 0) (hr : t.rst = false) :
    Run (inFlight t op n [.raise c] v) (afterRaise c t) := by
  have hd' : t.dly = 0#6 := hd
  by_cases hp : t.phase = .running
  · refine Run.trans (b := inFlight (abortInit t) op (n + 1) [.raise c] v) (Run.one hr ?_) (Run.one (s := abortInit t) hr ?_)
    · simp [seqStep, inFlight, hd', doMicro, hp, State.raising, abortInit]
    · simp [seqStep, inFlight, hd', doMicro, hp, afterRaise, abortInit, takeException, State.respond]
  · refine Run.one hr ?_
    simp [seqStep, inFlight, hd', doMicro, hp, afterRaise, takeException, State.respond]

/-- The run from `start`, in which `s0` is in flight, ends as the result says: before the primitives `k`, with `P` of the
value, the state and the byte of the last bus read, or before the raise. -/
def EndsAt {α : Type} (s0 start : State) (op : Op) (k : List Micro) (P : α → State → Byte → Prop) : Result α → Prop
  | .ok a t => t.dly = 0 ∧ t.rst = false ∧ t.cfg = s0.cfg ∧ t.rspValid = s0.rspValid ∧
      ∃ n' v', P a t v' ∧ Run start (inFlight t op n' k v')
  | .raised c t => t.dly = 0 ∧ t.rst = false ∧ t.rspValid = s0.rspValid ∧
      ∃ n' v', Run start (inFlight t op n' [.raise c] v')
/-- The primitives `code`, run from `s`, end as the result `r`. -/
def SimAt {α : Type} (s : State) (v : Byte) (code : List Micro) (r : Result α) (post : α → State → Byte → Prop) : Prop :=
  s.dly = 0 → s.rst = false → ∀ op n k, EndsAt s (inFlight s op n (code ++ k) v) op k post r

theorem EndsAt.pre {α : Type} {s0 s1 a b : State} {op : Op} {k : List Micro} {P : α → State → Byte → Prop} {r : Result α}
    (hc : s1.cfg = s0.cfg) (hv : s1.rspValid = s0.rspValid) (hx : Run a b) (h : EndsAt s1 b op k P r) :
    EndsAt s0 a op k P r := by
  cases r with
  | raised c u => obtain ⟨h1, h2, h3, n', v', h4⟩ := h; exact ⟨h1, h2, h3.trans hv, n', v', hx.trans h4⟩
  | ok a u =>
    obtain ⟨h1, h2, h3, h4, n', v', h5, h6⟩ := h
    exact ⟨h1, h2, h3.trans hc, h4.trans hv, n', v', h5, hx.trans h6⟩

/-- One body after another. -/
theorem SimAt.andThen {α β} {s : State} {v : Byte} {c1 c2 : List Micro} {r : Result α} {f : α → State → Result β} {P : α → State → Byte → Prop} {Q : β → State → Byte → Prop}
    (h : SimAt s v c1 r P) (hf : ∀ a t v', t.cfg = s.cfg → P a t v' → r = .ok a t → SimAt t v' c2 (f a t) Q) : SimAt s v (c1 ++ c2) (r.andThen f) Q := by
  intro hd hr op n k
  have h1 := h hd hr op n (c2 ++ k)
  rw [← List.append_assoc] at h1
  cases r with
  | raised c t => exact h1
  | ok a t =>
    obtain ⟨td, tr, tc, tv, n', v', hp, hrun⟩ := h1
    rw [andThen_ok]
    exact EndsAt.pre tc tv hrun (hf a t v' tc hp rfl td tr op n' k)

/-- A primitive that only writes registers. -/
theorem SimAt.set {α : Type} {s t : State} {v : Byte} {m : Micro} {code : List Micro} {r : Result α}
    {P : α → State → Byte → Prop}
    (hm : ∀ op n n' k, doMicro op n' k v m (inFlight s op n (m :: k) v) = inFlight t op n' k v)
    (hd : t.dly = s.dly) (hr : t.rst = s.rst) (hc : t.cfg = s.cfg) (hv : t.rspValid = s.rspValid) (h : SimAt t v code r P) : SimAt s v (m :: code) r P := by
  intro sd sr op n k
  have h1 := h (hd.trans sd) (hr.trans sr) op (n+1) k
  have hx : Run (inFlight s op n (m :: (code ++ k)) v) (inFlight t op (n+1) (code ++ k) v) := Run.one sr (by
    have : (inFlight s op n (m :: (code ++ k)) v).dly = 0 := sd
    simp only [seqStep, this]
    exact hm op n (n+1) (code++k))
  exact EndsAt.pre hc hv hx h1

theorem SimAt.nil {α} {s : State} {v : Byte} (a : α) {P : α → State → Byte → Prop} (h : P a s v) : SimAt s v [] (.ok a s) P := by
  intro sd sr op n k
  exact ⟨sd, sr, rfl, rfl, n, v, h, Run.refl _⟩

theorem SimAt.mono {α} {s : State} {v : Byte} {code} {r : Result α} {P Q : α → State → Byte → Prop} (h : SimAt s v code r P) (hpq : ∀ a t v, P a t v → Q a t v) : SimAt s v code r Q := by
  intro sd sr op n k
  have := h sd sr op n k
  cases r with
  | raised c t => exact this
  | ok a t => obtain ⟨h1, h2, h3, h4, n', v', hp, hrun⟩ := this; exact ⟨h1, h2, h3, h4, n', v', hpq _ _ _ hp, hrun⟩

theorem sim_write (b : Byte) (s : State) (v : Byte) : SimAt s v [Micro.write b] (busWrite b s) (fun _ _ v' => v' = v) := by
  intro sd sr op n k
  cases h : (s.bus.at 0).ok with
  | true =>
    rw [busWrite_ok h]
    refine ⟨rfl, sr, rfl, rfl, n + 1, v, rfl, Run.trans (Run.one sr (b := inFlight { (s.ran 1 (settled s.cfg (.W b))) with dly := s.cfg.tSettle } op (n+1) k v) ?_) (run_drain (s.ran 1 (settled s.cfg (.W b))) op (n+1) k v sr _ _ rfl)⟩
    have h' : s.bus.next.ok = true := h
    have sd' : s.dly = 0#6 := sd
    simp [seqStep, inFlight, sd', doMicro, h', State.startDelay, State.used, State.emit, State.ran, settled]
    rfl
  | false =>
    rw [busWrite_failed h]
    refine ⟨sd, sr, rfl, n + 1, v, Run.one sr ?_⟩
    have h' : s.bus.next.ok = false := h
    have sd' : s.dly = 0#6 := sd
    simp [seqStep, inFlight, sd', doMicro, h', State.used, State.emit, State.raising, State.failed]

theorem sim_read (s : State) (v : Byte) : SimAt s v [Micro.read] (busRead s) (fun a _ v' => v' = a) := by
  intro sd sr op n k
  cases h : (s.bus.at 0).ok with
  | true =>
    rw [busRead_ok h]
    refine ⟨rfl, sr, rfl, rfl, n + 1, _, rfl, Run.trans (Run.one sr (b := inFlight { (s.ran 1 (settled s.cfg (.R (s.bus.at 0).rdata))) with dly := s.cfg.tSettle } op (n+1) k (s.bus.at 0).rdata) ?_) (run_drain (s.ran 1 (settled s.cfg (.R (s.bus.at 0).rdata))) op (n+1) k _ sr _ _ rfl)⟩
    have h' : s.bus.next.ok = true := h
    have sd' : s.dly = 0#6 := sd
    simp [seqStep, inFlight, sd', doMicro, h', State.startDelay, State.used, State.emit, State.ran, settled]
    exact ⟨rfl, rfl, rfl⟩
  | false =>
    rw [busRead_failed h]
    refine ⟨sd, sr, rfl, n + 1, v, Run.one sr ?_⟩
    have h' : s.bus.next.ok = false := h
    have sd' : s.dly = 0#6 := sd
    simp [seqStep, inFlight, sd', doMicro, h', State.used, State.emit, State.raising, State.failed]

/-- A delay primitive. -/
theorem SimAt.delay {α} {s : State} {v : Byte} {d : BitVec 6} {code} {r : Result α} {P} (h : SimAt (s.delay d) v code r P) : SimAt s v (.delay d :: code) r P := by
  intro sd sr op n k
  have h1 := h rfl sr op (n+1) k
  have hx : Run (inFlight s op n (.delay d :: (code ++ k)) v) (inFlight (s.delay d) op (n+1) (code ++ k) v) := 
    Run.trans (Run.one sr (b := inFlight { (s.delay d) with dly := d } op (n+1) (code ++ k) v) (by
      have sd' : s.dly = 0#6 := sd
      simp [seqStep, inFlight, sd', doMicro, State.startDelay, State.delay])) (run_drain (s.delay d) op (n+1) _ v sr _ _ rfl)
  exact EndsAt.pre (s1 := s.delay d) rfl rfl hx h1

theorem sim_wrn (n rs rw) (s : State) (v) : SimAt s v (wrnCode s.cfg n rs rw) (wrnBody n rs rw s) (fun _ _ v' => v' = v) := by
  refine SimAt.andThen (c1 := [_]) (c2 := [_, _]) (sim_write _ s v) fun _ t v1 hc hv _ => ?_
  subst hv; rw [← hc]
  refine SimAt.andThen (c1 := [_]) (c2 := [_]) (sim_write _ t v1) fun _ u v2 hc hv _ => ?_
  subst hv; rw [← hc]
  exact sim_write _ u v2

theorem sim_rdn (rs rw) (s : State) (v) : SimAt s v (rdnCode s.cfg rs rw) (rdnBody rs rw s) (fun a t v' => nibbleField t.cfg.layout v' = a) := by
  refine SimAt.andThen (c1 := [_]) (c2 := [_, _, _]) (sim_write _ s v) fun _ t v1 hc hv _ => ?_
  rw [← hc]
  refine SimAt.andThen (c1 := [_]) (c2 := [_, _]) (sim_write _ t v1) fun _ u v2 hc hv _ => ?_
  rw [← hc]
  refine SimAt.andThen (c1 := [_]) (c2 := [_]) (sim_read u v2) fun b w v3 hc hv _ => ?_
  rw [← hc]
  refine SimAt.andThen (c1 := [_]) (c2 := []) (sim_write _ w v3) fun _ x v4 hc hv' _ => ?_
  subst hv hv'
  exact SimAt.nil _ rfl

theorem sim_rds (s : State) (v) : SimAt s v (rdsCode s.cfg) (rdsBody s) (fun a t v' => statusByte t.nibh (nibbleField t.cfg.layout v') = a) := by
  show SimAt s v (rdnCode s.cfg false true ++ (.latchHigh :: (rdnCode s.cfg false true ++ [Micro.recordStatus]))) _ _
  refine SimAt.andThen (sim_rdn false true s v) fun hi t v1 hc hv _ => ?_
  rw [← hc]
  refine SimAt.set (t := t.latchHigh hi) (fun _ _ _ _ => by simp only [doMicro]; rw [← hv]; rfl) rfl rfl rfl rfl ?_
  refine SimAt.andThen (sim_rdn false true (t.latchHigh hi) v1) fun lo u v2 hc hv _ => ?_
  refine SimAt.set (t := u.recordStatus (statusByte u.nibh lo)) (fun _ _ _ _ => by simp only [doMicro]; rw [← hv]; rfl) rfl rfl rfl rfl ?_
  refine SimAt.nil _ ?_
  show statusByte u.nibh (nibbleField u.cfg.layout v2) = _
  rw [hv]

theorem rds_pollcnt {s t : State} {b} (h : rdsBody s = .ok b t) : t.pollcnt = s.pollcnt := by
  rcases s.bus.okFor_or_first_failure 8 with h8 | ⟨k, hk, h8, hf⟩
  · rw [rdsBody_ok h8] at h; cases h; rfl
  · obtain ⟨v, hv, -⟩ := rdsBody_failed hk h8 hf
    rw [hv] at h; cases h

/-- The poll loop: `pollTest` puts the next poll before the rest while the controller is busy. -/
theorem sim_poll (n : Nat) (s : State) (v : Byte) (hn : s.pollcnt.toNat + (n + 1) = s.cfg.pollBound.toNat) :
    SimAt s v (pollCode s.cfg) (pollLoop (n + 1) s) (fun _ _ _ => True) := by
  have h2 := s.cfg.pollBound.isLt
  induction n generalizing s v with
  | zero =>
    refine SimAt.andThen (sim_rds s v) fun b t v1 hc hv hb => ?_
    have hp := rds_pollcnt hb
    refine SimAt.set (t := t.countPoll) (fun _ _ _ _ => rfl) rfl rfl rfl rfl ?_
    intro sd sr op m k
    have sd' : t.dly = 0#6 := sd
    have he : t.countPoll.pollcnt = t.countPoll.cfg.pollBound := by
      apply BitVec.eq_of_toNat_eq
      simp only [countPoll_pollcnt, countPoll_cfg, hp, hc, BitVec.toNat_add, BitVec.toNat_ofNat, show BitVec.toNat (1 : BitVec 5) = 1 from rfl]
      omega
    by_cases hs : t.status = .ready
    · simp only [countPoll_status, hs, if_true]
      refine ⟨sd, sr, rfl, rfl, m + 1, v1, trivial, Run.one sr ?_⟩
      simp [seqStep, inFlight, sd', doMicro, hs]
    · simp only [countPoll_status, hs, if_false]
      rw [if_pos he]
      refine ⟨sd, sr, rfl, m + 1, v1, Run.one sr ?_⟩
      have he' : t.pollcnt + 1#5 = t.cfg.pollBound := he
      simp [seqStep, inFlight, sd', doMicro, hs, he', State.raising, State.countPoll, State.setStatus, hv]
  | succ n ih =>
    refine SimAt.andThen (sim_rds s v) fun b t v1 hc hv hb => ?_
    have hp := rds_pollcnt hb
    refine SimAt.set (t := t.countPoll) (fun _ _ _ _ => rfl) rfl rfl rfl rfl ?_
    intro sd sr op m k
    have sd' : t.dly = 0#6 := sd
    have he : t.countPoll.pollcnt ≠ t.countPoll.cfg.pollBound := by
      intro h
      have h1 := congrArg BitVec.toNat h
      simp only [countPoll_pollcnt, countPoll_cfg, hp, hc, BitVec.toNat_add, BitVec.toNat_ofNat, show BitVec.toNat (1 : BitVec 5) = 1 from rfl] at h1
      omega
    by_cases hs : t.status = .ready
    · simp only [countPoll_status, hs, if_true]
      refine ⟨sd, sr, rfl, rfl, m + 1, v1, trivial, Run.one sr ?_⟩
      simp [seqStep, inFlight, sd', doMicro, hs]
    · simp only [countPoll_status, hs, if_false]
      rw [if_neg he]
      have hx : Run (inFlight t.countPoll op m ([Micro.pollTest] ++ k) v1) (inFlight (t.countPoll.delay t.cfg.tPollGap) op (m+1) (pollCode t.cfg ++ k) v1) := by
        refine Run.trans (Run.one sr (b := inFlight { (t.countPoll.delay t.cfg.tPollGap) with dly := t.cfg.tPollGap } op (m+1) (pollCode t.cfg ++ k) v1) ?_) (run_drain (t.countPoll.delay t.cfg.tPollGap) op (m+1) _ v1 sr _ _ rfl)
        have he' : ¬ t.pollcnt + 1#5 = t.cfg.pollBound := he
        simp [seqStep, inFlight, sd', doMicro, hs, he', State.countPoll, State.startDelay, State.delay]
      have h3 := ih (t.countPoll.delay t.cfg.tPollGap) v1 (by
        simp only [delay_pollcnt, countPoll_pollcnt, delay_cfg, countPoll_cfg, hp, hc, BitVec.toNat_add, BitVec.toNat_ofNat, show BitVec.toNat (1 : BitVec 5) = 1 from rfl]
        omega) (by simp [hc, h2]) rfl sr op (m+1) k
      exact EndsAt.pre (s1 := t.countPoll.delay t.cfg.tPollGap) rfl rfl hx h3

theorem sim_snd (d rs cb) (s : State) (v) (h0 : s.cfg.pollBound ≠ 0) : SimAt s v (sndCode s.cfg d rs cb) (sndBody d rs cb s) (fun _ _ _ => True) := by
  have e : sndCode s.cfg d rs cb = ((.setStatus .busy :: (wrnCode s.cfg (hiNibble d) rs false ++ wrnCode s.cfg (loNibble d) rs false)) ++
    if cb then (.clearPolls :: pollCode s.cfg) else [Micro.setStatus .ready]) := by simp [sndCode]
  rw [e]
  refine SimAt.andThen (P := fun _ _ _ => True) (SimAt.set (t := s.setStatus .busy) (fun _ _ _ _ => rfl) rfl rfl rfl rfl
    (SimAt.andThen (sim_wrn _ _ _ (s.setStatus .busy) v) fun _ t v1 hc _ _ => ?_)) fun _ t v1 hc _ _ => ?_
  · rw [show s.cfg = t.cfg from hc.symm]
    exact (sim_wrn _ _ _ t v1).mono fun _ _ _ _ => trivial
  · cases cb with
    | false => exact SimAt.set (t := t.setStatus .ready) (fun _ _ _ _ => rfl) rfl rfl rfl rfl (SimAt.nil _ trivial)
    | true =>
      rw [← hc]
      refine SimAt.set (t := t.clearPolls) (fun _ _ _ _ => rfl) rfl rfl rfl rfl ?_
      obtain ⟨n, hn⟩ : ∃ n, t.cfg.pollBound.toNat = n + 1 := by
        refine ⟨t.cfg.pollBound.toNat - 1, ?_⟩
        have : t.cfg.pollBound.toNat ≠ 0 := fun h => h0 (by rw [← hc]; exact BitVec.eq_of_toNat_eq h)
        omega
      simp only [hn]
      exact sim_poll n t.clearPolls v1 (by simp [hn])

theorem sim_sends (ds) (s : State) (v) (h0 : s.cfg.pollBound ≠ 0) : SimAt s v (ds.flatMap (fun d => sndCode s.cfg d false true)) (sendCommands ds s) (fun _ _ _ => True) := by
  induction ds generalizing s v with
  | nil => exact SimAt.nil _ trivial
  | cons d ds ih =>
    rw [List.flatMap_cons]
    refine SimAt.andThen (sim_snd d false true s v h0) fun _ t v1 hc _ _ => ?_
    rw [← hc]
    exact ih t v1 (by rw [hc]; exact h0)

theorem sim_pulse (x) (s : State) (v) : SimAt s v (wrnCode s.cfg s.cfg.nibReset false false ++ [Micro.delay x]) (resetPulse x s) (fun _ _ _ => True) :=
  SimAt.andThen (sim_wrn _ _ _ s v) fun _ t v1 hc _ _ => SimAt.delay (SimAt.nil _ trivial)

/-- The primitives of `INI` after `PHASE <- Running`. -/
def seqCode (c : Config) : List Micro :=
  .delay c.tPowerOn :: ((wrnCode c c.nibReset false false ++ [Micro.delay c.tRst1]) ++
   ((wrnCode c c.nibReset false false ++ [Micro.delay c.tRst2]) ++ ((wrnCode c c.nibReset false false ++ [Micro.delay c.tRst3]) ++
    (wrnCode c c.nibMode4 false false ++ (c.initCommands.flatMap (fun d => sndCode c d false true) ++ [Micro.setPhase .operational])))))

theorem sim_iniSeq (s : State) (v) (h0 : s.cfg.pollBound ≠ 0) : SimAt s v (seqCode s.cfg) (iniSequence s) (fun _ _ _ => True) := by
  refine SimAt.delay ?_
  refine SimAt.andThen (sim_pulse s.cfg.tRst1 (s.delay s.cfg.tPowerOn) v) fun _ t1 v1 hc _ _ => ?_
  have hc1 : t1.cfg = s.cfg := hc
  rw [← hc1]
  refine SimAt.andThen (sim_pulse _ t1 v1) fun _ t2 v2 hc _ _ => ?_
  rw [← hc]
  refine SimAt.andThen (sim_pulse _ t2 v2) fun _ t3 v3 hc _ _ => ?_
  rw [← hc]
  refine SimAt.andThen (sim_wrn _ _ _ t3 v3) fun _ t4 v4 hc _ _ => ?_
  rw [← hc]
  have h4 : t4.cfg.pollBound ≠ 0 := by simp_all
  refine SimAt.andThen (sim_sends _ t4 v4 h4) fun _ t5 v5 hc _ _ => ?_
  exact SimAt.set (t := t5.setPhase .operational) (fun _ _ _ _ => rfl) rfl rfl rfl rfl (SimAt.nil _ trivial)

theorem iniSequence_raised_phase {s : State} {c t} (h0 : s.cfg.pollBound ≠ 0) (h : iniSequence s = .raised c t) : t.phase = s.phase := by
  rcases s.bus.okFor_or_first_failure 12 with h12 | ⟨k, hk, h12, hf⟩
  · rw [iniSequence_awake h12] at h
    rcases sendCommands_cases s.cfg.initCommands (s := s.ran 12 (wakeEvents s.cfg)) h0 with
        ⟨ks, hl, hr, he⟩ | ⟨b, t, he, hb, hs, ha, hr, hp⟩ | ⟨t, he, hs, hp⟩
    · rw [he] at h; cases h
    · rw [he] at h; cases h; exact hp
    · rw [he] at h; cases h; exact hp
  · obtain ⟨u, hu, -, hp⟩ := iniSequence_not_awake hk h12 hf
    rw [hu] at h; cases h; exact hp

/-- The state after the response to a body's result. -/
def endState : Result Byte → State
  | .ok a t => t.respond 0 a
  | .raised c t => takeException c t

/-- An operation `op` run from `start`, in which `s` is in flight, ends as the result of its body says: at the response; or
at a raise whose state `u` differs from the one the body leaves in `PHASE` at most, before the clean-up and the response. -/
def Finishes (s start : State) (op : Op) : Result Byte → Prop
  | .ok a t => Run start (t.respond 0 a)
  | .raised c t => ∃ u n v, u.dly = 0 ∧ u.rst = false ∧ u.rspValid = s.rspValid ∧ u.status = t.status ∧
      afterRaise c u = takeException c t ∧ Run start (inFlight u op n [.raise c] v)

/-- Either way the run reaches the state after the response. -/
theorem Finishes.run {s start : State} {op : Op} {r : Result Byte} (h : Finishes s start op r) : Run start (endState r) := by
  cases r with
  | ok a t => exact h
  | raised c t =>
    obtain ⟨u, n, v, hd, hr, -, -, he, hrun⟩ := h
    have := hrun.trans (run_raise hd hr)
    rwa [he] at this

/-- `INI` in flight from its first primitive. -/
theorem run_ini (s : State) (v) (sd : s.dly = 0) (sr : s.rst = false) (hph : s.phase ≠ .running) (h0 : s.cfg.pollBound ≠ 0)
    (n) : Finishes s (inFlight s .ini n (iniCode s.cfg) v) .ini (bodyOf .ini s) := by
  have sd' : s.dly = 0#6 := sd
  have e : iniCode s.cfg = .probe :: .setPhase .running :: seqCode s.cfg := by simp [iniCode, seqCode]
  rw [e]
  simp only [bodyOf]
  cases hp : (s.bus.at 0).ok with
  | false =>
    have h' : s.bus.next.ok = false := hp
    rw [iniBody_absent hp]
    refine ⟨s.used.emit [.P false], n + 1, v, sd, sr, rfl, rfl, ?_, Run.one sr ?_⟩
    · have hph' : (s.used.emit [.P false]).phase ≠ .running := hph
      simp only [afterRaise, if_neg hph']
    · simp [seqStep, inFlight, sd', doMicro, h', State.raising, State.used, State.emit]
  | true =>
    have h' : s.bus.next.ok = true := hp
    rw [iniBody_present hp]
    have r1 : Run (inFlight s .ini n (.probe :: .setPhase .running :: seqCode s.cfg) v) (inFlight s.probed .ini (n+2) (seqCode s.probed.cfg) v) := by
      refine Run.trans (Run.one sr (b := inFlight (s.used.emit [Event.P true]) .ini (n+1) (.setPhase .running :: seqCode s.cfg) v) ?_) (Run.one (s := s.used.emit [Event.P true]) sr ?_)
      · simp [seqStep, inFlight, sd', doMicro, h', State.used, State.emit]
      · simp [seqStep, inFlight, sd', doMicro, State.probed, State.setPhase, State.used, State.emit]
    have r2 := sim_iniSeq s.probed v h0 sd sr .ini (n+2) []
    rw [List.append_nil] at r2
    have hph := @iniSequence_raised_phase s.probed
    cases hq : iniSequence s.probed with
    | ok a t =>
      rw [hq] at r2
      obtain ⟨td, tr, tc, -, n', v', -, hrun⟩ := r2
      refine (r1.trans hrun).trans (Run.one tr ?_)
      have td' : t.dly = 0#6 := td
      simp [seqStep, inFlight, td', doneData, State.respond]
    | raised c t =>
      rw [hq] at r2
      obtain ⟨td, tr, tv, n', v', hrun⟩ := r2
      have htp : t.phase = .running := hph h0 hq
      exact ⟨t, n', v', td, tr, tv, rfl, by simp only [afterRaise, if_pos htp], r1.trans hrun⟩

/-- A body whose primitives end as its result, run to the response or the raise. -/
theorem run_sim {op : Op} {s : State} {v} {code} {r : Result Byte} {P} (sd : s.dly = 0) (sr : s.rst = false) (n) (h : SimAt s v code r P)
   (hph : ∀ c t, r = .raised c t → t.phase ≠ .running) (hp : ∀ a t v', P a t v' → doneData t v' op = a) :
   Finishes s (inFlight s op n code v) op r := by
  have h1 := h sd sr op n []
  rw [List.append_nil] at h1
  cases r with
  | ok a t =>
    obtain ⟨td, tr, tc, -, n', v', hq, hrun⟩ := h1
    refine hrun.trans (Run.one tr ?_)
    have h2 : doneData (inFlight t op n' [] v') v' op = a := by rw [← hp _ _ _ hq]; cases op <;> rfl
    show (if t.dly = 0 then _ else _) = t.respond 0 a
    rw [if_pos td]
    show State.respond (inFlight t op n' [] v') 0 (doneData (inFlight t op n' [] v') v' op) = _
    rw [h2]; rfl
  | raised c t =>
    obtain ⟨td, tr, tv, n', v', hrun⟩ := h1
    exact ⟨t, n', v', td, tr, tv, rfl, by simp only [afterRaise, if_neg (hph c t rfl)], hrun⟩

theorem sim_map {α β} {s : State} {v code} {r : Result α} {g : α → β} {P Q} (h : SimAt s v code r P) (hq : ∀ a t v, P a t v → Q (g a) t v) : 
    SimAt s v code (r.andThen fun a t => .ok (g a) t) Q := by
  have := SimAt.andThen (c2 := []) (f := fun a t => .ok (g a) t) (Q := Q) h fun a t v' _ hp _ => SimAt.nil _ (hq _ _ _ hp)
  rwa [List.append_nil] at this

/-- Every operation in flight from its first primitive runs as its body says. -/
theorem run_finishes (i : Instr) (s : State) (sd : s.dly = 0) (sr : s.rst = false) (h0 : s.cfg.pollBound ≠ 0) (hph : s.phase ≠ .running) :
    Finishes s (inFlight s i.op 0 (codeOf s.cfg i) 0) i.op (bodyOf i s) := by
  by_cases hi : i = .ini
  · subst hi; exact run_ini s 0 sd sr hph h0 0
  · have hph' : ∀ c t, bodyOf i s = .raised c t → t.phase ≠ .running := by
      intro c t h
      have e := bodyOf_phase (i := i) (fun h => hi (by cases i <;> simp [Instr.op] at h; rfl)) s
      rw [h] at e
      exact fun h => hph (e.symm.trans h)
    cases i with
    | wrn n rs rw => exact run_sim (op := (Instr.wrn n rs rw).op) sd sr 0 (P := fun a _ _ => a = 0) (sim_map (g := fun _ => 0) (sim_wrn n rs rw s 0) fun _ _ _ _ => rfl) hph' fun _ _ _ h => h.symm
    | rdn rs rw => exact run_sim (op := (Instr.rdn rs rw).op) sd sr 0 (P := fun a t v' => nibbleData (nibbleField t.cfg.layout v') = a) (sim_map (g := nibbleData) (sim_rdn rs rw s 0) fun _ _ _ h => by rw [h]) hph' fun _ _ _ h => h
    | rds => exact run_sim (op := (Instr.rds).op) sd sr 0 (sim_rds s 0) hph' fun _ _ _ h => h
    | snd d rs cb => exact run_sim (op := (Instr.snd d rs cb).op) sd sr 0 (P := fun a _ _ => a = 0) (sim_map (g := fun _ => 0) (sim_snd d rs cb s 0 h0) fun _ _ _ _ => rfl) hph' fun _ _ _ h => h.symm
    | ini => exact absurd rfl hi
    | clr => 
      refine run_sim (op := .clr) (P := fun a _ _ => a = 0) sd sr 0 (SimAt.set (t := returnFromTimeout s) (fun op n n' k => ?_) ?_ ?_ ?_ ?_ (SimAt.nil _ rfl)) hph' fun _ _ _ h => h.symm
      · by_cases hs : s.status = .timeout <;> simp [doMicro, inFlight, returnFromTimeout, hs]
      all_goals simp only [returnFromTimeout]; split <;> rfl

/-- So it reaches the state its body and the response give. -/
theorem run_body (i : Instr) (s : State) (sd : s.dly = 0) (sr : s.rst = false) (h0 : s.cfg.pollBound ≠ 0) (hph : s.phase ≠ .running) :
    Run (inFlight s i.op 0 (codeOf s.cfg i) 0) (endState (bodyOf i s)) := (run_finishes i s sd sr h0 hph).run

end Sys2Proof.Machine
end

