-- ==== Sys2Proof/Laws/Status.lean ====
section
/-! SUPPORT. STATUS, DLY and the model's bit "a status read has completed", through every body: a body leaves STATUS at
`Timeout` exactly when it raises a timeout, a finished delay stays finished, a completed status read stays one. -/

namespace Sys2Proof.Machine

/-! ### STATUS -/

/-- `STATUS` is `Timeout` exactly when the result is a raised timeout. -/
def TimeoutSaid {α : Type} (r : Result α) : Prop :=
    match r with
    | .ok _ t => t.status ≠ .timeout
    | .raised c t => ((¬ ∃ b, c = .timeout b) ∧ t.status ≠ .timeout) ∨ (∃ b, c = .timeout b) ∧ t.status = .timeout

theorem timeoutSaid_timeout {α : Type} {b : Byte} {t : State} (h : t.status = .timeout) : TimeoutSaid (.raised (.timeout b) t : Result α) := .inr ⟨⟨_, rfl⟩, h⟩
theorem timeoutSaid_fail {α : Type} {t : State} (h : t.status ≠ .timeout) : TimeoutSaid (.raised .transportFailure t : Result α) := .inl ⟨by simp, h⟩
theorem timeoutSaid_poll (n : Nat) (s : State) (hs : s.status ≠ .timeout) : TimeoutSaid (pollLoop n s) := by
  induction n generalizing s with
  | zero => exact timeoutSaid_timeout rfl
  | succ n ih =>
    rcases s.bus.okFor_or_first_failure 8 with h8 | ⟨k, hk, h8, hf⟩
    · simp only [pollLoop, rdsBody_ok h8, andThen_ok]
      by_cases h1 : ((s.ran 8 (statusReadEvents s.cfg s.bus)).polled (statusRead s.cfg s.bus)).countPoll.status = .ready
      · rw [if_pos h1]; show State.status _ ≠ _; rw [h1]; simp
      · rw [if_neg h1]
        split
        · exact timeoutSaid_timeout rfl
        · refine ih _ ?_
          simp only [delay_status, countPoll_status, State.polled, statusOf]; split <;> simp
    · obtain ⟨v, hv, -, hst, -, -, hp, hq⟩ := rdsBody_failed hk h8 hf
      simp only [pollLoop, hv, andThen_raised]; exact timeoutSaid_fail (by rw [hst]; exact hs)

theorem timeoutSaid_snd (d rs cb) (s : State) : TimeoutSaid (sndBody d rs cb s) := by
  rcases s.bus.okFor_or_first_failure 6 with h6 | ⟨k, hk, h6, hf⟩
  · cases cb with
    | false => rw [sndBody_unchecked h6]; simp [TimeoutSaid]
    | true =>
      simp only [sndBody, transmit_ok h6, andThen_ok, if_true]
      exact timeoutSaid_poll _ _ (by simp)
  · obtain ⟨v, hv, hs, -⟩ := sndBody_transmit_failed (d := d) (rs := rs) (cb := cb) hk h6 hf
    rw [hv]; simp [TimeoutSaid, hs]

theorem timeoutSaid_andThen {α β} {r : Result α} {k : α → State → Result β} (h : TimeoutSaid r) (hk : ∀ a t, r = .ok a t → t.status ≠ .timeout → TimeoutSaid (k a t)) : TimeoutSaid (r.andThen k) := by
  cases r with
  | ok a t => exact hk a t rfl h
  | raised c t => exact h

theorem timeoutSaid_sends (ds) (s : State) (hs : s.status ≠ .timeout) : TimeoutSaid (sendCommands ds s) := by
  induction ds generalizing s with
  | nil => exact hs
  | cons d ds ih => exact timeoutSaid_andThen (timeoutSaid_snd d false true s) fun _ t _ ht => ih t ht

theorem timeoutSaid_ini (s : State) (hs : s.status ≠ .timeout) : TimeoutSaid (iniBody s) := by
  cases hp : (s.bus.at 0).ok with
  | false => rw [iniBody_absent hp]; simp [TimeoutSaid]; exact hs
  | true =>
    rw [iniBody_present hp]
    have key : TimeoutSaid (iniSequence s.probed) := by
      rcases s.probed.bus.okFor_or_first_failure 12 with h12 | ⟨k, hk, h12, hf⟩
      · rw [iniSequence_awake h12]
        exact timeoutSaid_andThen (timeoutSaid_sends _ _ hs) fun _ t _ ht => ht
      · obtain ⟨v, hv, hst, -⟩ := iniSequence_not_awake hk h12 hf
        rw [hv]; simp [TimeoutSaid, hst]; exact hs
    revert key
    cases iniSequence s.probed <;> exact id

theorem code_two {c : Cause} : c.code = 2 ↔ ∃ b, c = .timeout b := by cases c <;> simp [Cause.code]

theorem timeoutSaid_body (i : Instr) (s : State) (hs : s.status ≠ .timeout) : TimeoutSaid (bodyOf i s) := by
  cases i with
  | wrn n rs rw =>
      rcases s.bus.okFor_or_first_failure 3 with h | ⟨k, hk, h, hf⟩
      · simp [bodyOf, wrnBody_ok h, TimeoutSaid, hs]
      · simp [bodyOf, wrnBody_failed hk h hf, State.stopped, TimeoutSaid, hs]
  | rdn rs rw =>
      rcases s.bus.okFor_or_first_failure 4 with h | ⟨k, hk, h, hf⟩
      · simp [bodyOf, rdnBody_ok h, TimeoutSaid, hs]
      · simp [bodyOf, rdnBody_failed hk h hf, State.stopped, TimeoutSaid, hs]
  | rds =>
      rcases s.bus.okFor_or_first_failure 8 with h | ⟨k, hk, h, hf⟩
      · simp only [bodyOf, rdsBody_ok h, TimeoutSaid, State.polled, statusOf]; split <;> simp
      · obtain ⟨v, hv, -, hst, -⟩ := rdsBody_failed hk h hf
        simp [bodyOf, hv, TimeoutSaid, hst, hs]
  | snd d rs cb => exact timeoutSaid_andThen (timeoutSaid_snd d rs cb s) fun _ t _ ht => ht
  | ini => exact timeoutSaid_andThen (timeoutSaid_ini s hs) fun _ t _ ht => ht
  | clr => simp only [bodyOf, TimeoutSaid, returnFromTimeout, if_neg hs]; exact hs

/-! ### DLY and the status-read bit -/

/-- A finished delay stays finished, and a completed status read stays one. -/
def Keep (s t : State) : Prop := (s.dly = 0 → t.dly = 0) ∧ (s.acRead = true → t.acRead = true)
theorem Keep.trans {s t u} (h : Keep s t) (h' : Keep t u) : Keep s u := ⟨fun a => h'.1 (h.1 a), fun a => h'.2 (h.2 a)⟩
theorem keep_andThen {α β} {s : State} {r : Result α} {k : α → State → Result β} (h : Keep s r.final) (hk : ∀ a t, Keep t (k a t).final) : Keep s (r.andThen k).final := by
  cases r with
  | ok a t => exact h.trans (hk a t)
  | raised c t => exact h
theorem keep_write (b s) : Keep s (busWrite b s).final := by
  cases h : (s.bus.at 0).ok with
  | true => rw [busWrite_ok h]; exact ⟨fun _ => rfl, id⟩
  | false => rw [busWrite_failed h]; exact ⟨id, id⟩
theorem keep_read (s) : Keep s (busRead s).final := by
  cases h : (s.bus.at 0).ok with
  | true => rw [busRead_ok h]; exact ⟨fun _ => rfl, id⟩
  | false => rw [busRead_failed h]; exact ⟨id, id⟩
theorem keep_wrn (n rs rw s) : Keep s (wrnBody n rs rw s).final :=
  keep_andThen (keep_write _ _) fun _ _ => keep_andThen (keep_write _ _) fun _ _ => keep_write _ _
theorem keep_rdn (rs rw s) : Keep s (rdnBody rs rw s).final :=
  keep_andThen (keep_write _ _) fun _ _ => keep_andThen (keep_write _ _) fun _ _ => keep_andThen (keep_read _) fun _ _ => keep_andThen (keep_write _ _) fun _ _ => ⟨id, id⟩
theorem keep_rds (s) : Keep s (rdsBody s).final :=
  keep_andThen (keep_rdn _ _ _) fun hi t => Keep.trans (t := t.latchHigh hi) ⟨id, id⟩ (keep_andThen (keep_rdn _ _ _) fun _ _ => ⟨id, fun _ => rfl⟩)
theorem keep_poll (n s) : Keep s (pollLoop n s).final := by
  induction n generalizing s with
  | zero => exact ⟨id, id⟩
  | succ n ih =>
    refine keep_andThen (keep_rds s) fun b t => ?_
    dsimp only
    split
    · exact ⟨id, id⟩
    · split
      · exact ⟨id, id⟩
      · exact Keep.trans (t := t.countPoll.delay t.countPoll.cfg.tPollGap) ⟨fun _ => rfl, id⟩ (ih _)
theorem keep_snd (d rs cb s) : Keep s (sndBody d rs cb s).final := by
  refine keep_andThen (Keep.trans (t := s.setStatus .busy) ⟨id, id⟩ (keep_andThen (keep_wrn _ _ _ _) fun _ _ => keep_wrn _ _ _ _)) fun _ t => ?_
  cases cb
  · exact ⟨id, id⟩
  · exact Keep.trans (t := t.clearPolls) ⟨id, id⟩ (keep_poll _ _)
theorem keep_sends (ds s) : Keep s (sendCommands ds s).final := by
  induction ds generalizing s with
  | nil => exact ⟨id, id⟩
  | cons d ds ih => exact keep_andThen (keep_snd _ _ _ _) fun _ t => ih t
theorem keep_pulse (n s) : Keep s (resetPulse n s).final := keep_andThen (keep_wrn _ _ _ _) fun _ t => ⟨fun _ => rfl, id⟩
theorem keep_iniSeq (s) : Keep s (iniSequence s).final :=
  Keep.trans (t := s.delay s.cfg.tPowerOn) ⟨fun _ => rfl, id⟩ <|
  keep_andThen (keep_pulse _ _) fun _ _ => keep_andThen (keep_pulse _ _) fun _ _ => keep_andThen (keep_pulse _ _) fun _ _ =>
  keep_andThen (keep_wrn _ _ _ _) fun _ _ => keep_andThen (keep_sends _ _) fun _ _ => ⟨id, id⟩
theorem keep_ini (s) : Keep s (iniBody s).final := by
  cases h : (s.bus.at 0).ok with
  | false => rw [iniBody_absent h]; exact ⟨id, id⟩
  | true =>
    rw [iniBody_present h]
    have := keep_iniSeq s.probed
    revert this
    cases iniSequence s.probed <;> exact id
theorem keep_body (i s) : Keep s (bodyOf i s).final := by
  cases i with
  | wrn n rs rw => exact keep_andThen (keep_wrn _ _ _ _) fun _ _ => ⟨id, id⟩
  | rdn rs rw => exact keep_andThen (keep_rdn _ _ _) fun _ _ => ⟨id, id⟩
  | rds => exact keep_rds s
  | snd d rs cb => exact keep_andThen (keep_snd _ _ _ _) fun _ _ => ⟨id, id⟩
  | ini => exact keep_andThen (keep_ini _) fun _ _ => ⟨id, id⟩
  | clr => simp only [bodyOf, Result.final, returnFromTimeout]; split <;> exact ⟨id, id⟩

theorem exec_keep {i s t} (h : exec i s = .next t) : Keep s t := by
  obtain ⟨c, d, rfl | rfl⟩ := exec_final h
  · exact ⟨id, id⟩
  · exact keep_body i s

end Sys2Proof.Machine
end

