-- ==== Sys2Proof/Laws/Written.lean ====
section
/-! SUPPORT. The bytes every body writes, in the layout of this hardware: those the rules give, all of them where it
ends without a raise and a first part of them where it raises. -/

namespace Sys2Proof.Machine

/-- The bytes that events put, or try to put, on the pins. -/
abbrev bytesOf (es : List Event) : List Byte := es.filterMap Event.written

theorem bytesOf_delay (n : BitVec 6) : bytesOf (delayEvents n) = [] := by
  unfold delayEvents; split <;> rfl

theorem bytesOf_settled (c : Config) (e : Event) : bytesOf (settled c e) = e.written.toList := by
  have h : List.filterMap Event.written (delayEvents c.tSettle) = [] := bytesOf_delay _
  rw [bytesOf, settled, List.filterMap_cons, h]
  cases e.written <;> rfl

theorem lineByte_standard {c : Config} (h : c.layout = Layout.standard) (n : Nibble) (rs rw en : Bool) :
    lineByte c n rs rw en = expByte n c.bl en rw rs := by
  unfold lineByte
  rw [h]
  generalize c.bl = bl
  revert n rs rw en bl
  decide

/-- From `s` the body writes `bs`, or a first part of `bs` if it raises; it keeps the configuration. -/
def Result.Wrote {α : Type} (s : State) (bs : List Byte) : Result α → Prop
  | .ok _ t     => t.cfg = s.cfg ∧ ∃ es, t.trace = s.trace ++ es ∧ bytesOf es = bs
  | .raised _ t => ∃ es, t.trace = s.trace ++ es ∧ bytesOf es <+: bs

/-- Where the first part raises, what the rest would write does not matter. -/
theorem Result.Wrote.raised_append {α : Type} {s t : State} {c : Cause} {bs bs' : List Byte}
    (h : (Result.raised c t : Result α).Wrote s bs) : (Result.raised c t : Result α).Wrote s (bs ++ bs') := by
  obtain ⟨es, ht, hp⟩ := h
  exact ⟨es, ht, hp.trans (List.prefix_append _ _)⟩

/-- A body that starts after `bs` has been written. -/
theorem Result.Wrote.after {α : Type} {s t : State} {bs bs' : List Byte} {r : Result α} (h : r.Wrote t bs')
    (hc : t.cfg = s.cfg) (ht : ∃ es, t.trace = s.trace ++ es ∧ bytesOf es = bs) : r.Wrote s (bs ++ bs') := by
  obtain ⟨es, ht, rfl⟩ := ht
  cases r with
  | ok a u =>
    obtain ⟨hu, fs, hf, rfl⟩ := h
    exact ⟨hu.trans hc, es ++ fs, by rw [hf, ht, List.append_assoc], List.filterMap_append⟩
  | raised c u =>
    obtain ⟨fs, hf, hp⟩ := h
    refine ⟨es ++ fs, by rw [hf, ht, List.append_assoc], ?_⟩
    rw [bytesOf, List.filterMap_append]
    exact (List.prefix_append_right_inj _).mpr hp

theorem Result.Wrote.andThen {α β : Type} {s : State} {bs bs' : List Byte} {r : Result α} {k : α → State → Result β}
    (h : r.Wrote s bs) (hk : ∀ a t, t.cfg = s.cfg → (k a t).Wrote t bs') : (r.andThen k).Wrote s (bs ++ bs') := by
  cases r with
  | ok a t => exact (hk a t h.1).after h.1 h.2
  | raised c t => exact Result.Wrote.raised_append (α := β) h

theorem wrote_ok {α : Type} {a : α} {s t : State} (hc : t.cfg = s.cfg) (ht : t.trace = s.trace) :
    (Result.ok a t).Wrote s [] := ⟨hc, [], by simp [ht], rfl⟩

/-- A body that starts with writing registers. -/
theorem Result.Wrote.still {α : Type} {s t : State} {bs : List Byte} {r : Result α} (h : r.Wrote t bs)
    (hc : t.cfg = s.cfg) (ht : t.trace = s.trace) : r.Wrote s bs := h.after (bs := []) hc ⟨[], by simp [ht], rfl⟩

theorem Result.Wrote.delayed {α : Type} {s : State} {n : BitVec 6} {bs : List Byte} {r : Result α}
    (h : r.Wrote (s.delay n) bs) : r.Wrote s bs := h.after (bs := []) rfl ⟨_, rfl, bytesOf_delay n⟩

/-- The same, the last part writing nothing. -/
theorem Result.Wrote.andOk {α β : Type} {s : State} {bs : List Byte} {r : Result α} {k : α → State → Result β}
    (h : r.Wrote s bs) (hk : ∀ a t, (k a t).Wrote t []) : (r.andThen k).Wrote s bs := by
  have := h.andThen (bs' := []) (fun a t _ => hk a t)
  rwa [List.append_nil] at this

/-! ### The bodies -/

theorem busWrite_wrote (b : Byte) (s : State) : (busWrite b s).Wrote s [b] := by
  cases h : (s.bus.at 0).ok with
  | true => rw [busWrite_ok h]; exact ⟨rfl, _, rfl, bytesOf_settled _ _⟩
  | false => rw [busWrite_failed h]; exact ⟨_, rfl, List.prefix_rfl⟩

theorem busRead_wrote (s : State) : (busRead s).Wrote s [] := by
  cases h : (s.bus.at 0).ok with
  | true => rw [busRead_ok h]; exact ⟨rfl, _, rfl, bytesOf_settled _ _⟩
  | false => rw [busRead_failed h]; exact ⟨_, rfl, List.prefix_rfl⟩

/-- One write of a cycle. -/
theorem line_wrote {c : Config} {s : State} (hc : s.cfg = c) (hl : c.layout = Layout.standard) (n : Nibble)
    (rs rw en : Bool) : (busWrite (lineByte s.cfg n rs rw en) s).Wrote s [expByte n c.bl en rw rs] := by
  rw [hc, lineByte_standard hl]; exact busWrite_wrote _ s

theorem wrnBody_wrote {c : Config} {s : State} (hc : s.cfg = c) (hl : c.layout = Layout.standard) (n : Nibble)
    (rs rw : Bool) : (wrnBody n rs rw s).Wrote s (cycleBytes c n rs rw) :=
  (line_wrote hc hl n rs rw false).andThen (bs' := [_, _]) fun _ t ht =>
    (line_wrote (ht.trans hc) hl n rs rw true).andThen fun _ u hu =>
      line_wrote (hu.trans (ht.trans hc)) hl n rs rw false

theorem rdnBody_wrote {c : Config} {s : State} (hc : s.cfg = c) (hl : c.layout = Layout.standard) (rs rw : Bool) :
    (rdnBody rs rw s).Wrote s (cycleBytes c c.rdNib rs rw) := by
  subst hc
  refine (line_wrote rfl hl _ rs rw false).andThen (bs' := [_, _]) fun _ t ht => ?_
  rw [← ht]
  rw [← ht] at hl
  refine (line_wrote rfl hl _ rs rw true).andThen fun _ u hu => ?_
  refine (busRead_wrote u).andThen (bs := []) fun v w hw => ?_
  rw [← hu, ← hw]
  rw [← hu, ← hw] at hl
  exact (line_wrote rfl hl _ rs rw false).andOk fun _ x => wrote_ok rfl rfl

theorem rdsBody_wrote {c : Config} {s : State} (hc : s.cfg = c) (hl : c.layout = Layout.standard) :
    (rdsBody s).Wrote s (statusBytes c) :=
  (rdnBody_wrote hc hl false true).andThen fun hi t ht =>
    Result.Wrote.still (t := t.latchHigh hi)
      ((rdnBody_wrote (s := t.latchHigh hi) (ht.trans hc) hl false true).andOk fun lo u =>
        wrote_ok (t := u.recordStatus (statusByte u.nibh lo)) rfl rfl) rfl rfl

theorem pollLoop_wrote {c : Config} (hl : c.layout = Layout.standard) (n : Nat) {s : State} (hc : s.cfg = c) :
    ∃ k, k ≤ n ∧ (pollLoop n s).Wrote s (pollsBytes c k) := by
  induction n generalizing s with
  | zero => exact ⟨0, Nat.le_refl _, [], by simp [State.setStatus], List.prefix_rfl⟩
  | succ n ih =>
    have hr := rdsBody_wrote hc hl
    cases h : rdsBody s with
    | raised x t =>
      rw [h] at hr
      refine ⟨1, by omega, ?_⟩
      simp only [pollLoop, h, andThen_raised]
      exact Result.Wrote.raised_append (α := Unit) hr
    | ok b t =>
      rw [h] at hr
      simp only [pollLoop, h, andThen_ok]
      split
      · exact ⟨1, by omega, (wrote_ok rfl rfl).after hr.1 hr.2⟩
      · split
        · refine ⟨1, by omega, Result.Wrote.after (t := t) ?_ hr.1 hr.2⟩
          exact ⟨[], by simp [State.setStatus, State.countPoll], List.prefix_rfl⟩
        · obtain ⟨k, hk, hw⟩ := ih (s := t.countPoll.delay t.countPoll.cfg.tPollGap) (hr.1.trans hc)
          refine ⟨k + 1, by omega, Result.Wrote.after (t := t) ?_ hr.1 hr.2⟩
          exact (Result.Wrote.delayed hw).still rfl rfl

theorem transmit_wrote {c : Config} {s : State} (hc : s.cfg = c) (hl : c.layout = Layout.standard) (d : Byte) (rs : Bool) :
    (transmit d rs s).Wrote s (cycleBytes c (hiNibble d) rs false ++ cycleBytes c (loNibble d) rs false) :=
  Result.Wrote.still (t := s.setStatus .busy)
    ((wrnBody_wrote (s := s.setStatus .busy) hc hl _ rs false).andThen fun _ t ht =>
      wrnBody_wrote (ht.trans hc) hl _ rs false) rfl rfl

theorem sndBody_wrote_unchecked {c : Config} {s : State} (hc : s.cfg = c) (hl : c.layout = Layout.standard) (d : Byte)
    (rs : Bool) : (sndBody d rs false s).Wrote s (sendBytes c d rs 0) :=
  (transmit_wrote hc hl d rs).andThen fun _ t _ => wrote_ok rfl rfl

theorem sndBody_wrote {c : Config} {s : State} (hc : s.cfg = c) (hl : c.layout = Layout.standard) (d : Byte) (rs : Bool) :
    ∃ k, k ≤ c.pollBound.toNat ∧ (sndBody d rs true s).Wrote s (sendBytes c d rs k) := by
  have ht := transmit_wrote hc hl d rs
  unfold sndBody
  cases h : transmit d rs s with
  | raised x t => rw [h] at ht; exact ⟨0, by omega, Result.Wrote.raised_append (α := Unit) ht⟩
  | ok a t =>
    rw [h] at ht
    have htc : t.cfg = c := ht.1.trans hc
    obtain ⟨k, hk, hw⟩ := pollLoop_wrote hl c.pollBound.toNat (s := t.clearPolls) htc
    refine ⟨k, hk, ?_⟩
    simp only [andThen_ok, if_true, htc]
    exact (hw.still rfl rfl).after ht.1 ht.2

/-- From `s` the body writes `R polls` for some numbers of polls within the bound, or a first part if it raises. -/
def Result.WroteWithPolls {α : Type} (c : Config) (s : State) (R : (Nat → Nat) → List Byte) (r : Result α) : Prop :=
  ∃ polls : Nat → Nat, (∀ j, polls j ≤ c.pollBound.toNat) ∧ r.Wrote s (R polls)

theorem Result.Wrote.andThenPolls {α β : Type} {c : Config} {s : State} {bs : List Byte} {r : Result α}
    {k : α → State → Result β} {R : (Nat → Nat) → List Byte} (h : r.Wrote s bs) (hc : s.cfg = c)
    (hk : ∀ a t, t.cfg = c → (k a t).WroteWithPolls c t R) :
    (r.andThen k).WroteWithPolls c s (fun polls => bs ++ R polls) := by
  cases r with
  | raised x t => exact ⟨fun _ => 0, fun _ => Nat.zero_le _, Result.Wrote.raised_append (α := β) h⟩
  | ok a t =>
    obtain ⟨polls, hp, hw⟩ := hk a t (h.1.trans hc)
    exact ⟨polls, hp, hw.after h.1 h.2⟩

theorem sendCommands_wrote {c : Config} (hl : c.layout = Layout.standard) (ds : List Byte) {s : State} (hc : s.cfg = c) :
    (sendCommands ds s).WroteWithPolls c s (sendsBytes c ds) := by
  induction ds generalizing s with
  | nil => exact ⟨fun _ => 0, fun _ => Nat.zero_le _, wrote_ok rfl rfl⟩
  | cons d ds ih =>
    obtain ⟨k, hk, hs⟩ := sndBody_wrote hc hl d false
    obtain ⟨polls, hp, hw⟩ := hs.andThenPolls hc fun _ t ht => ih (s := t) ht
    refine ⟨fun j => if j = 0 then k else polls (j - 1), fun j => ?_, hw⟩
    dsimp only; split
    · exact hk
    · exact hp _

theorem resetPulse_wrote {c : Config} {s : State} (hc : s.cfg = c) (hl : c.layout = Layout.standard) (n : BitVec 6) :
    (resetPulse n s).Wrote s (cycleBytes c c.nibReset false false) := by
  subst hc
  exact (wrnBody_wrote rfl hl _ _ _).andOk fun _ t => Result.Wrote.delayed (n := n) (wrote_ok rfl rfl)

theorem iniSequence_wrote {c : Config} {s : State} (hc : s.cfg = c) (hl : c.layout = Layout.standard) :
    (iniSequence s).WroteWithPolls c s (fun polls => writtenBy c polls .ini) := by
  have h0 : (s.delay s.cfg.tPowerOn).cfg = c := hc
  obtain ⟨polls, hp, hw⟩ : (iniSequence s).WroteWithPolls c (s.delay s.cfg.tPowerOn) fun polls =>
      cycleBytes c c.nibReset false false ++ (cycleBytes c c.nibReset false false ++
      (cycleBytes c c.nibReset false false ++ (cycleBytes c c.nibMode4 false false ++
      sendsBytes c c.initCommands polls))) := by
    unfold iniSequence
    refine (resetPulse_wrote h0 hl _).andThenPolls h0 fun _ s1 h1 => ?_
    refine (resetPulse_wrote h1 hl _).andThenPolls h1 fun _ s2 h2 => ?_
    refine (resetPulse_wrote h2 hl _).andThenPolls h2 fun _ s3 h3 => ?_
    rw [h3]
    refine (wrnBody_wrote h3 hl _ false false).andThenPolls h3 fun _ s4 h4 => ?_
    rw [h4]
    obtain ⟨polls, hp, hw⟩ := sendCommands_wrote hl c.initCommands h4
    exact ⟨polls, hp, hw.andOk fun _ t => wrote_ok (t := t.setPhase .operational) rfl rfl⟩
  refine ⟨polls, hp, Result.Wrote.delayed (n := s.cfg.tPowerOn) ?_⟩
  simpa only [writtenBy, List.append_assoc] using hw

theorem iniBody_wrote {c : Config} {s : State} (hc : s.cfg = c) (hl : c.layout = Layout.standard) :
    (iniBody s).WroteWithPolls c s (fun polls => writtenBy c polls .ini) := by
  cases h : (s.bus.at 0).ok with
  | false => rw [iniBody_absent h]; exact ⟨fun _ => 0, fun _ => Nat.zero_le _, [.P false], rfl, List.nil_prefix⟩
  | true =>
    rw [iniBody_present h]
    obtain ⟨polls, hp, hw⟩ := iniSequence_wrote (s := s.probed) hc hl
    refine ⟨polls, hp, Result.Wrote.after (bs := []) (t := s.probed) ?_ rfl ⟨[.P true], rfl, rfl⟩⟩
    cases hi : iniSequence s.probed with
    | ok a t => rw [hi] at hw; exact hw
    | raised x t => rw [hi] at hw; exact hw

/-- What any body writes: all of it where it ends without a raise. -/
theorem bodyOf_wrote {s : State} (hl : s.cfg.layout = Layout.standard) (i : Instr) :
    (bodyOf i s).WroteWithPolls s.cfg s (fun polls => writtenBy s.cfg polls i) := by
  cases i with
  | wrn n rs rw =>
    exact ⟨fun _ => 0, fun _ => Nat.zero_le _, (wrnBody_wrote rfl hl n rs rw).andOk fun _ _ => wrote_ok rfl rfl⟩
  | rdn rs rw =>
    exact ⟨fun _ => 0, fun _ => Nat.zero_le _, (rdnBody_wrote rfl hl rs rw).andOk fun _ _ => wrote_ok rfl rfl⟩
  | rds => exact ⟨fun _ => 0, fun _ => Nat.zero_le _, rdsBody_wrote rfl hl⟩
  | snd d rs cb =>
    cases cb with
    | false =>
      exact ⟨fun _ => 0, fun _ => Nat.zero_le _, (sndBody_wrote_unchecked rfl hl d rs).andOk fun _ _ => wrote_ok rfl rfl⟩
    | true =>
      obtain ⟨k, hk, hw⟩ := sndBody_wrote rfl hl d rs
      exact ⟨fun _ => k, fun _ => hk, hw.andOk fun _ _ => wrote_ok rfl rfl⟩
  | ini =>
    obtain ⟨polls, hp, hw⟩ := iniBody_wrote rfl hl
    exact ⟨polls, hp, hw.andOk fun _ _ => wrote_ok rfl rfl⟩
  | clr =>
    refine ⟨fun _ => 0, fun _ => Nat.zero_le _, wrote_ok ?_ ?_⟩ <;> (unfold returnFromTimeout; split <;> rfl)

end Sys2Proof.Machine
end

