-- ==== Sys2Proof/Tests/Slice0.lean ====
section
/-! SUPPORT. Tests: ill-formed fields, words written out from the spec's encoding, the test vectors of
95_test_vectors.md one step at a time, and for every statement with hypotheses a state and operands that meet them. -/

namespace Sys2Proof.Tests

open Sys2Proof Sys2Proof.Machine

/-! ## Well-formedness: one ill-formed term for each check -/

theorem test_wellFormed_op0 : Fields.wellFormed ⟨0x0, false, false, false, false, 0⟩ = false := by decide
theorem test_wellFormed_op7 : Fields.wellFormed ⟨0x7, false, false, false, false, 0⟩ = false := by decide
theorem test_wellFormed_op15 : Fields.wellFormed ⟨0xF, true, true, true, true, 0xFF⟩ = false := by decide
theorem test_wellFormed_wrn_z : Fields.wellFormed ⟨0x1, true, false, false, false, 3⟩ = false := by decide
theorem test_wellFormed_wrn_cb : Fields.wellFormed ⟨0x1, false, true, false, false, 3⟩ = false := by decide
theorem test_wellFormed_wrn_data : Fields.wellFormed ⟨0x1, false, false, false, false, 0x10⟩ = false := by decide
theorem test_wellFormed_rdn_z : Fields.wellFormed ⟨0x2, true, false, true, false, 0⟩ = false := by decide
theorem test_wellFormed_rdn_cb : Fields.wellFormed ⟨0x2, false, true, true, false, 0⟩ = false := by decide
theorem test_wellFormed_rdn_data : Fields.wellFormed ⟨0x2, false, false, true, false, 1⟩ = false := by decide
theorem test_wellFormed_snd_z : Fields.wellFormed ⟨0x4, true, false, false, false, 0⟩ = false := by decide
theorem test_wellFormed_snd_rw : Fields.wellFormed ⟨0x4, false, false, true, false, 0⟩ = false := by decide
/-- `RDS`, `INI` and `CLR` have no operand: any other bit makes them ill-formed. -/
theorem test_wellFormed_no_operands : ∀ op ∈ [(0x3 : BitVec 4), 0x5, 0x6],
    Fields.wellFormed ⟨op, false, false, false, false, 0⟩ = true ∧
    Fields.wellFormed ⟨op, true, false, false, false, 0⟩ = false ∧
    Fields.wellFormed ⟨op, false, true, false, false, 0⟩ = false ∧
    Fields.wellFormed ⟨op, false, false, true, false, 0⟩ = false ∧
    Fields.wellFormed ⟨op, false, false, false, true, 0⟩ = false ∧
    Fields.wellFormed ⟨op, false, false, false, false, 1⟩ = false := by decide

/-! ## Decoding: words written out bit by bit from 30_encoding.md R89 and R90 (`OP Z CB RW RS DATA`) -/

theorem test_decode_wrn : decode 0b0001_0_0_1_1_00000010 = .ok (.wrn 0x2 true true) := by decide
theorem test_decode_rdn : decode 0b0010_0_0_1_0_00000000 = .ok (.rdn false true) := by decide
theorem test_decode_rds : decode 0b0011_0_0_0_0_00000000 = .ok .rds := by decide
theorem test_decode_snd : decode 0b0100_0_0_0_1_01001000 = .ok (.snd 0x48 true false) := by decide
theorem test_decode_snd_checked : decode 0b0100_0_1_0_0_11000000 = .ok (.snd 0xC0 false true) := by decide
theorem test_decode_ini : decode 0b0101_0_0_0_0_00000000 = .ok .ini := by decide
theorem test_decode_clr : decode 0b0110_0_0_0_0_00000000 = .ok .clr := by decide
/-- The illegal words of 95_test_vectors.md section 2.3. -/
theorem test_decode_illegal : ([0x0000, 0xFFFF, 0x7000, 0x1013, 0x1403, 0x1803, 0x2201, 0x3001, 0x4200, 0x4800, 0x5001,
    0x6100].all fun w : Word => (decode? w).isNone) = true := by decide
theorem test_decodeTableWord : decodeTableWord 16 0x45FF = some (.snd 0xFF true true) := by decide

/-! ## The expander byte and the status byte: 95_test_vectors.md sections 2.1 and 2.2, and the values of R111 -/

theorem test_enc_vectors :
    enc Layout.standard 0x3 false false false true = 0x38 ∧ enc Layout.standard 0x3 false false true true = 0x3C ∧
    enc Layout.standard 0xF false true true true = 0xFE ∧ enc Layout.standard 0xF true true false true = 0xFB ∧
    enc Layout.standard 0xA true false true true = 0xAD ∧ enc Layout.standard 0x3 false false false false = 0x30 := by
  decide
theorem test_status_vectors :
    statusByte (nibbleField Layout.standard 0x4A) (nibbleField Layout.standard 0x13) = 0x41 ∧
    statusOf 0xC0 = .busy ∧ addressOf 0xC0 = 64 ∧ statusOf 0x7F = .ready ∧ addressOf 0x7F = 127 := by decide

/-! ## One step: 95_test_vectors.md sections 2.4 to 2.9 -/

/-- `n` successes that read `b`. -/
def oks (n : Nat) (b : Byte) : List Answer := List.replicate n { ok := true, rdata := b }

/-- One failure. -/
def fails : Answer := { ok := false, rdata := 0 }

/-- Operational and ready with `AC = 9`, a transport with these answers. -/
def operational (as : List Answer) : State :=
  { State.reset with phase := .operational, status := .ready, ac := 9, acRead := true, bus := { answers := as, draws := 0 } }

/-- Right after reset, a transport with these answers. -/
def fresh (as : List Answer) : State := { State.reset with bus := { answers := as, draws := 0 } }

/-- With a timeout latched. -/
def latched : State := { operational [] with status := .timeout }

/-- The state of an outcome. -/
def got (o : Host.Outcome State Fault Refusal) : State :=
  match o with
  | .next t    => t
  | .fault _   => State.reset
  | .refused _ => State.reset

/-- The bytes written, the reads apart. -/
def writes (s : State) : List Byte := s.trace.filterMap Event.written

theorem test_wrn : (got (exec (.wrn 0xA true false) (operational (oks 3 0)))).trace =
    [.W 0xA9, .D 1, .W 0xAD, .D 1, .W 0xA9, .D 1] := by decide
theorem test_wrn_third_write_fails :
    (got (exec (.wrn 0x3 false false) (operational (oks 2 0 ++ [fails])))).trace =
      [.W 0x38, .D 1, .W 0x3C, .D 1, .Wx 0x38] ∧
    (got (exec (.wrn 0x3 false false) (operational (oks 2 0 ++ [fails])))).rspCode = 3 := by decide
theorem test_rdn : (got (exec (.rdn true true) (operational (oks 4 0xB7)))).trace =
      [.W 0xFB, .D 1, .W 0xFF, .D 1, .R 0xB7, .D 1, .W 0xFB, .D 1] ∧
    (got (exec (.rdn true true) (operational (oks 4 0xB7)))).rspData = 0x0B := by decide
theorem test_rdn_read_fails : (got (exec (.rdn false true) (operational (oks 2 0 ++ [fails])))).trace =
    [.W 0xFA, .D 1, .W 0xFE, .D 1, .Rx] := by decide
theorem test_rds : (got (exec .rds (operational (oks 4 0x0E ++ oks 4 0x5E)))).rspData = 0x05 ∧
    (got (exec .rds (operational (oks 4 0x0E ++ oks 4 0x5E)))).ac = 5 ∧
    (got (exec .rds (operational (oks 4 0x0E ++ oks 4 0x5E)))).status = .ready := by decide
theorem test_rds_second_read_fails :
    (got (exec .rds (operational (oks 6 0x8E ++ [fails])))).ac = 9 ∧
    (got (exec .rds (operational (oks 6 0x8E ++ [fails])))).status = .ready := by decide
theorem test_snd : (got (exec (.snd 0x48 true false) (operational (oks 6 0)))).trace =
    [.W 0x49, .D 1, .W 0x4D, .D 1, .W 0x49, .D 1, .W 0x89, .D 1, .W 0x8D, .D 1, .W 0x89, .D 1] := by decide
/-- Every read `0x8E`: code 2, data `0x88`, `AC = 8`, 126 writes, 40 reads. -/
theorem test_snd_timeout :
    let t := got (exec (.snd 0x01 false true) (operational (oks 166 0x8E)))
    t.rspCode = 2 ∧ t.rspData = 0x88 ∧ t.ac = 8 ∧ fatal t = true ∧ countW t.trace = 126 ∧ countR t.trace = 40 := by
  decide +kernel
/-- 43_init_sequencer.md R171: 72 writes, 10 reads, 134 time units; the first and the last send's bytes. -/
theorem test_ini :
    let t := got (exec .ini (fresh (oks 83 0x0E)))
    t.rspCode = 0 ∧ t.phase = .operational ∧ t.status = .ready ∧ t.ac = 0 ∧ countW t.trace = 72 ∧
    countR t.trace = 10 ∧ minTime t.trace = 134 ∧
    (writes t).take 18 = [0x38, 0x3C, 0x38, 0x38, 0x3C, 0x38, 0x38, 0x3C, 0x38, 0x28, 0x2C, 0x28, 0x28, 0x2C, 0x28,
      0x88, 0x8C, 0x88] ∧
    ((writes t).drop 60).take 6 = [0x08, 0x0C, 0x08, 0xC8, 0xCC, 0xC8] := by decide +kernel
theorem test_ini_fifth_write_fails :
    (got (exec .ini (fresh (oks 5 0 ++ [fails])))).trace =
      [.P true, .D 45, .W 0x38, .D 1, .W 0x3C, .D 1, .W 0x38, .D 1, .D 5, .W 0x38, .D 1, .Wx 0x3C] ∧
    (got (exec .ini (fresh (oks 5 0 ++ [fails])))).phase = .aborted := by decide
theorem test_clr : (got (exec .clr latched)).status = .ready ∧ (got (exec .clr latched)).rspCode = 0 := by decide
theorem test_clr_busy : (got (exec .clr State.reset)).status = .busy := by decide

/-- The first request after reset, placed by `withFetchWord`, is run: `RDS` is refused with code 4 (P4). -/
theorem test_withFetchWord : (got (step (State.reset.withFetchWord 16 0x3000))).rspCode = 4 ∧
    (got (step (State.reset.withFetchWord 16 0x0000))).rspCode = 7 := by decide

/-! ## Witnesses: a state and operands that meet the hypotheses of each statement -/

theorem witness_opcode_row_selects : ∃ r ∈ opcodeTable, r.selects 0x45FF = true := by decide
theorem witness_layouts : Layout.standard.wf = true ∧ Layout.wf ⟨0, 4, 5, 6, 7⟩ = true ∧ Layout.wf ⟨2, 7, 0, 6, 1⟩ = true := by
  decide
theorem witness_reset_in_flight : { operational [] with rst := true, seq := .flight .snd 0 [] 0 }.rst = true := rfl
theorem witness_idle_no_request : State.reset.rst = false ∧ State.reset.seq = .idle ∧ State.reset.host = [] :=
  ⟨rfl, rfl, rfl⟩

/-- An idle block with one request. -/
def asked (s : State) (w : Word) : State := { s with host := [w] }

theorem witness_request : (asked State.reset 0x5000).rst = false ∧ (asked State.reset 0x5000).seq = .idle ∧
    (asked State.reset 0x5000).host = 0x5000 :: [] ∧ decode 0x5000 = .ok .ini := ⟨rfl, rfl, rfl, by decide⟩
theorem witness_illegal_request : (asked State.reset 0x7000).host = 0x7000 :: [] ∧
    (Fields.ofWord 0x7000).wellFormed = false := ⟨rfl, by decide⟩

/-- The block admits everything but `INI`. -/
theorem witness_operational : (operational []).phase = .operational ∧ (operational []).status ≠ .timeout ∧
    (operational []).dly = 0 ∧ (operational []).cfg.wf = true ∧ (operational []).cfg.layout = Layout.standard ∧
    (operational []).cfg.tSettle = 1 ∧ (operational []).cfg.tPollGap = 0 := by
  refine ⟨rfl, by decide, rfl, by decide, rfl, rfl, rfl⟩
theorem witness_okFor : (operational (oks 8 0)).bus.okFor 3 ∧ (operational (oks 8 0)).bus.okFor 4 ∧
    (operational (oks 8 0)).bus.okFor 6 ∧ (operational (oks 8 0)).bus.okFor 8 := by
  unfold Transport.okFor; decide
/-- `SndCheckedCompletes` at its least and its greatest poll. -/
theorem witness_sendReady : sendReady Config.default (operational (oks 14 0x0E)).bus 0 ∧
    sendReady Config.default (operational (oks 158 0x8E ++ oks 8 0x0E)).bus 19 := by
  unfold sendReady Transport.okFor; decide +kernel
theorem witness_sendBusy : sendBusy Config.default (operational (oks 166 0x8E)).bus := by
  unfold sendBusy Transport.okFor; decide +kernel
theorem witness_sendsReady : [0, 0, 0, 0, 0].length = 5 ∧ (fresh (oks 83 0x0E)).bus.okFor 13 ∧
    sendsReady Config.default [0, 0, 0, 0, 0] ((fresh (oks 83 0x0E)).bus.after 13) := by
  simp only [sendsReady, sendReady, Transport.okFor]; decide +kernel
/-- The same with later polls, the last allowed one among them. -/
theorem witness_sendsReady_later :
    (fresh (oks 35 0x8E ++ oks 50 0x0E ++ oks 158 0x8E ++ oks 8 0x0E)).bus.okFor 13 ∧
    sendsReady Config.default [2, 0, 0, 0, 19]
      ((fresh (oks 35 0x8E ++ oks 50 0x0E ++ oks 158 0x8E ++ oks 8 0x0E)).bus.after 13) ∧
    (got (exec .ini (fresh (oks 35 0x8E ++ oks 50 0x0E ++ oks 158 0x8E ++ oks 8 0x0E)))).rspCode = 0 := by
  simp only [sendsReady, sendReady, Transport.okFor]; decide +kernel
theorem witness_not_operational : (fresh []).phase ≠ .operational ∧ (fresh []).status ≠ .timeout ∧
    (fresh []).cfg.wf = true := by refine ⟨by decide, by decide, by decide⟩
theorem witness_no_device : ((fresh [fails]).bus.at 0).ok = false ∧
    (got (exec .ini (fresh [fails]))).rspCode = 1 := by decide
/-- A failure at the first, a middle and the last bus operation of a cycle, and at the last of a status read. -/
theorem witness_failure_at : ∀ k ∈ [0, 1, 2, 3, 7],
    (∀ j, j < k → ((operational (oks k 0 ++ [fails])).bus.at j).ok = true) ∧
    ((operational (oks k 0 ++ [fails])).bus.at k).ok = false := by decide
/-- A send ends in each of its three ways. -/
theorem witness_snd_outcomes :
    (got (exec (.snd 1 false true) (operational (oks 14 0x0E)))).rspCode = 0 ∧
    (got (exec (.snd 1 false true) (operational (oks 166 0x8E)))).rspCode = 2 ∧
    (got (exec (.snd 1 false true) (operational [fails]))).rspCode = 3 := by decide +kernel
/-- A failure in the first operation of the first poll and in the last of the last. -/
theorem witness_poll_failure :
    (operational (oks 6 0 ++ [fails])).bus.okFor (6 + 8 * 0 + 0) ∧
    ((operational (oks 6 0 ++ [fails])).bus.at (6 + 8 * 0 + 0)).ok = false ∧
    (operational (oks 165 0x8E ++ [fails])).bus.okFor (6 + 8 * 19 + 7) ∧
    ((operational (oks 165 0x8E ++ [fails])).bus.at (6 + 8 * 19 + 7)).ok = false ∧
    ∀ m, m < 19 → busyFlag (pollByte Config.default ((operational (oks 165 0x8E ++ [fails])).bus.after 6) m) = true := by
  unfold Transport.okFor; decide +kernel
/-- An initialisation ends in each of its four ways. -/
theorem witness_ini_outcomes :
    (got (exec .ini (fresh (oks 83 0x0E)))).rspCode = 0 ∧ (got (exec .ini (fresh [fails]))).rspCode = 1 ∧
    (got (exec .ini (fresh (oks 179 0x8E)))).rspCode = 2 ∧
    (got (exec .ini (fresh (oks 1 0 ++ [fails])))).rspCode = 3 := by decide +kernel
/-- Each refusal of admission is reached: codes 5, 6 and 4. -/
theorem witness_refusals : latched.status = .timeout ∧ (got (exec .ini latched)).rspCode = 5 ∧
    (got (exec .ini (operational []))).rspCode = 6 ∧ (got (exec .rds (fresh []))).rspCode = 4 := by decide
/-- `exec` answers a next state, here for every operation: the premise of the frames and of the rules about every
operation. -/
theorem witness_exec_next : ∀ i : Instr, ∃ t, exec i (operational (oks 14 0)) = .next t := by
  intro i; cases i <;> exact ⟨_, rfl⟩
/-- Each operation ends `OK` somewhere, so the rules about operations that end `OK` are about something. -/
theorem witness_exec_ok : ∀ i ∈ [Instr.wrn 3 false false, .rdn false true, .rds, .snd 1 false false, .snd 1 false true, .clr],
    (got (exec i (operational (oks 14 0x0E)))).rspCode = 0 := by decide
theorem witness_latch_cleared : latched.status = .timeout ∧ (asked latched 0x6000).seq = .idle ∧
    (got (step (asked latched 0x6000))).status ≠ .timeout ∧
    (got (step { asked latched 0x6000 with rst := true })).status ≠ .timeout := by decide
theorem witness_becomes_operational : (fresh (oks 83 0x0E)).phase ≠ .operational ∧
    (got (step (asked (fresh (oks 83 0x0E)) 0x5000))).phase = .operational := by decide +kernel
theorem witness_stays_operational : (got (step (asked (operational []) 0x5000))).phase = .operational ∧
    (got (step { operational [] with rst := true })).phase = .uninit := by decide

theorem operational_atRest (as : List Answer) : AtRest (operational as) := by
  refine ⟨rfl, rfl, ?_, ?_, ?_, fun _ => rfl, fun _ => rfl, witness_operational.2.2.2.1⟩ <;> simp [operational]
theorem witness_atRest : AtRest (operational (oks 3 0)) ∧ (∃ t, step (operational (oks 3 0)) = .next t) :=
  ⟨operational_atRest _, _, rfl⟩
theorem witness_atRest_request : AtRest (asked (operational (oks 3 0)) 0x1003) ∧
    (asked (operational (oks 3 0)) 0x1003).rst = false ∧ (asked (operational (oks 3 0)) 0x1003).host ≠ [] := by
  refine ⟨?_, rfl, by decide⟩
  refine ⟨rfl, rfl, ?_, ?_, ?_, fun _ => rfl, fun _ => rfl, by decide⟩ <;> simp [asked, operational]
/-- Its run: taken, three writes with a tick after each, the response: eight single steps, in flight after the first
seven. -/
theorem test_fineRun : (fineRun 8 (asked (operational (oks 3 0)) 0x1003)).trace =
      (got (step (asked (operational (oks 3 0)) 0x1003))).trace ∧
    (fineRun 8 (asked (operational (oks 3 0)) 0x1003)).rspValid = true ∧
    ∀ m, m < 7 → reqReady (fineRun (m + 1) (asked (operational (oks 3 0)) 0x1003)) = false := by decide

/-- In flight at the primitives `k`, a delay of `d` running. -/
def flying (as : List Answer) (k : List Micro) (d : BitVec 6) : State :=
  { operational as with seq := .flight .snd 7 k 0, dly := d }

theorem witness_delay_running : (flying [] [.read] 45).rst = false ∧ (flying [] [.read] 45).dly ≠ 0 := by decide
theorem witness_delay_starts : (flying [] [.delay 45] 0).seq = .flight .snd 7 [.delay 45] 0 ∧
    (flying [] [.delay 45] 0).dly = 0 ∧ (45 : BitVec 6) ≠ 0 := by decide
theorem witness_write_in_flight : (flying (oks 1 0) [.write 0x38] 0).seq = .flight .snd 7 [.write 0x38] 0 ∧
    ((flying (oks 1 0) [.write 0x38] 0).bus.at 0).ok = true ∧
    ((flying [fails] [.write 0x38] 0).bus.at 0).ok = false := by decide
theorem witness_read_and_probe_in_flight : (flying [] [.read] 0).seq = .flight .snd 7 [.read] 0 ∧
    (flying [] [.probe] 0).seq = .flight .snd 7 [.probe] 0 ∧ (flying [] [.probe] 0).rst = false ∧
    (flying [] [.probe] 0).dly = 0 ∧ ((flying (oks 1 0) [.read] 0).bus.at 0).ok = true ∧
    ((flying [fails] [.read] 0).bus.at 0).ok = false := by decide
/-- In flight after the last allowed poll, which found the controller busy. -/
def lastPoll : State := { flying [] [.pollTest] 0 with status := .busy, pollcnt := 20 }

theorem witness_last_poll : lastPoll.seq = .flight .snd 7 [.pollTest] 0 ∧ lastPoll.rst = false ∧ lastPoll.dly = 0 ∧
    lastPoll.status = .busy ∧ lastPoll.pollcnt = lastPoll.cfg.pollBound := by decide
/-- A raise in a running `INI` and in another operation. -/
theorem witness_raise : (flying [] [.raise .transportFailure] 0).dly = 0 ∧
    (flying [] [.raise .transportFailure] 0).phase ≠ .running ∧
    { flying [] [.raise .transportFailure] 0 with phase := .running }.phase = .running := by decide

/-- Operational, one poll allowed, the controller busy, a busy-checked send requested. -/
def stuck : State := { asked (operational (oks 14 0x8E)) 0x4401 with cfg := { Config.default with pollBound := 1 } }

theorem witness_timeout_at_rest : AtRest stuck ∧ stuck.rst = false ∧ stuck.host ≠ [] ∧ (got (step stuck)).rspCode = 2 := by
  refine ⟨⟨rfl, rfl, ?_, ?_, ?_, fun _ => rfl, fun _ => rfl, by decide⟩, rfl, by decide, by decide +kernel⟩ <;>
    simp [stuck, asked, operational]
/-- 60_exceptions.md R203: taken (1), `STATUS <- Busy` (1), six writes and their ticks (12), `POLLCNT <- 0` (1), the status read
(18), `POLLCNT + 1` (1), and in step 35 `FATAL` rises; the response comes in step 36. -/
theorem test_fatal_before_response :
    fatal (fineRun 34 stuck) = false ∧ (fineRun 34 stuck).pollcnt = 1 ∧
    fatal (fineRun 35 stuck) = true ∧ (fineRun 35 stuck).rspValid = false ∧
    fatal (fineRun 36 stuck) = true ∧ (fineRun 36 stuck).rspValid = true ∧ (fineRun 36 stuck).rspCode = 2 := by
  decide +kernel

end Sys2Proof.Tests
end

section
/-! PROOFS. A step in flight and what lies outside the sequencer: the requests to come, `REQ` and the configuration. -/

namespace Sys2Proof.Machine

/-- From `s` to `t` no request was taken: the requests to come and `REQ` are unchanged, and so is the configuration. -/
def SameRequests (s t : State) : Prop := t.host = s.host ∧ t.req = s.req ∧ t.cfg = s.cfg

theorem returnFromTimeout_sameRequests (s : State) : SameRequests s (returnFromTimeout s) :=
  have h := returnFromTimeout_still s
  ⟨h.host, h.req, h.cfg⟩

theorem tick_sameRequests (s : State) : SameRequests s s.tick := by
  unfold State.tick
  split <;> exact ⟨rfl, rfl, rfl⟩

/-- No primitive takes a request: the ones with a test (on the transport's answer, the poll's tests, the clean-up) keep
the requests in every branch. -/
theorem doMicro_sameRequests (op : Op) (n : Nat) (k : List Micro) (v : Byte) (m : Micro) (s : State) :
    SameRequests s (doMicro op n k v m s) := by
  cases m with
  | probe | write | read | raise =>
    simp only [doMicro]
    split <;> exact ⟨rfl, rfl, rfl⟩
  | pollTest =>
    simp only [doMicro]
    split
    · exact ⟨rfl, rfl, rfl⟩
    · split <;> exact ⟨rfl, rfl, rfl⟩
  | clearTimeout => exact returnFromTimeout_sameRequests s
  | delay | setStatus | setPhase | latchHigh | recordStatus | clearPolls | countPoll => exact ⟨rfl, rfl, rfl⟩

theorem seqStep_sameRequests (s : State) : SameRequests s (seqStep s) := by
  unfold seqStep
  split
  next => exact ⟨rfl, rfl, rfl⟩
  next op n todo v _ =>
    split
    · cases todo with
      | nil => exact ⟨rfl, rfl, rfl⟩
      | cons m k => exact doMicro_sameRequests op (n + 1) k v m s
    · exact tick_sameRequests s

theorem reqReady_of_flight {s : State} {op : Op} {n : Nat} {todo : List Micro} {v : Byte}
    (hseq : s.seq = .flight op n todo v) : reqReady s = false := by
  simp [reqReady, hseq]

theorem step_of_flight {s : State} {op : Op} {n : Nat} {todo : List Micro} {v : Byte}
    (hseq : s.seq = .flight op n todo v) (hrst : s.rst = false) : step s = .next (seqStep s) := by
  simp [step, hseq, hrst]

/-- Settles O53: the step is `seqStep`, none of whose cases (a tick, a primitive, the response) takes a request. -/
theorem noRequestTakenInFlight : Obligations.NoRequestTakenInFlight := by
  intro s op n todo v hseq hrst
  have hstep := step_of_flight hseq hrst
  exact ⟨reqReady_of_flight hseq, hstep, seqStep s, hstep, seqStep_sameRequests s⟩

end Sys2Proof.Machine
end

section
/-! PROOFS. What a legal configuration gives, and the settle after every transfer. -/

namespace Sys2Proof.Machine

theorem cfg_wf_iff {c : Config} : c.wf = true ↔ c.pollBound ≠ 0 ∧ c.tSettle ≠ 0 ∧ c.layout.wf = true := by
  simp [Config.wf, and_assoc]

/-- Settles O39: the traffic of every operation, refused, failed or `OK`, keeps the rule of the settles (`Traffic.settles`)
where `T_SETTLE` is not 0, and a legal configuration has no `T_SETTLE` of 0. -/
theorem everyTransferSettles : Obligations.EveryTransferSettles := by
  intro s t i hwf hexec
  obtain ⟨-, hsettle, -⟩ := cfg_wf_iff.mp hwf
  obtain ⟨es, htraffic, -⟩ := exec_traffic hexec
  exact ⟨es, htraffic.trace, htraffic.settles hsettle⟩

end Sys2Proof.Machine
end

section
/-! PROOFS. Concatenation as shift and or: the status byte of two nibbles and the words of the pseudo-instructions. -/

namespace Sys2Proof

/-- A concatenation is its first part shifted over its second. -/
theorem append_eq_shiftLeft_or {v w : Nat} (x : BitVec v) (y : BitVec w) :
    x ++ y = x.setWidth (v + w) <<< w ||| y.setWidth (v + w) := by
  rw [← BitVec.setWidth_append_eq_shiftLeft_setWidth_or, BitVec.setWidth_eq]

/-- The word of a send is its upper byte, which holds `OP`, `CB` and `RS`, over the byte sent (30_encoding.md R89, R90). -/
theorem encode_snd (d : Byte) (rs cb : Bool) :
    encode (.snd d rs cb) =
      ((0x4#4 ++ 0#1 ++ BitVec.ofBool cb ++ 0#1 ++ BitVec.ofBool rs).setWidth 16 <<< 8) ||| d.setWidth 16 :=
  append_eq_shiftLeft_or _ d

theorem encode_cmd (d : Byte) : encode (Asm.cmd d) = 0x4400 ||| d.setWidth 16 := encode_snd d false true

theorem encode_cmdnb (d : Byte) : encode (Asm.cmdnb d) = 0x4000 ||| d.setWidth 16 := encode_snd d false false

theorem encode_dat (d : Byte) : encode (Asm.dat d) = 0x4500 ||| d.setWidth 16 := encode_snd d true true

theorem setWidth_setDdramAddress (r : BitVec 1) (c : Byte) :
    (setDdramAddress r c).setWidth 16 = 0x80 ||| (r.setWidth 16 <<< 6) ||| c.setWidth 16 := by
  have hrow : ∀ r : BitVec 1,
      (0x80 ||| (r.setWidth 8 <<< 6) : Byte).setWidth 16 = 0x80 ||| (r.setWidth 16 <<< 6) := by decide
  rw [setDdramAddress, BitVec.setWidth_or, hrow]

theorem encode_goto (r : BitVec 1) (c : Byte) :
    encode (Asm.goto r c) = 0x4480 ||| (r.setWidth 16 <<< 6) ||| c.setWidth 16 := by
  rw [Asm.goto, encode_cmd, setWidth_setDdramAddress, ← BitVec.or_assoc, ← BitVec.or_assoc]
  rfl

/-- Settles O5: each word is the send's word (`encode_snd`) at the fixed `RS` and `CB`, the last three at the default bytes
of the configuration. -/
theorem pseudoInstructionWords : Obligations.PseudoInstructionWords :=
  ⟨fun d => ⟨rfl, encode_cmd d⟩, fun d => ⟨rfl, encode_cmdnb d⟩, fun d => ⟨rfl, encode_dat d⟩,
    fun r c => ⟨rfl, encode_goto r c⟩, fun _ => ⟨rfl, rfl, rfl⟩,
    encode_cmd _, encode_cmd _, encode_cmd _⟩

end Sys2Proof

namespace Sys2Proof.Machine

/-- The busy flag is bit 3 of the nibble read first. -/
theorem busyFlag_statusByte (n1 n2 : Nibble) : busyFlag (statusByte n1 n2) = n1.getLsbD 3 := by
  rw [busyFlag, statusByte, BitVec.getLsbD_append]
  rfl

/-- Settles O8: the concatenation is the formula with the shift, and its bit 7 lies in the first nibble; the other clauses
are the definitions. -/
theorem statusByteRecombined : Obligations.StatusByteRecombined := fun n1 n2 =>
  ⟨rfl, append_eq_shiftLeft_or n1 n2, rfl, busyFlag_statusByte n1 n2, rfl⟩

end Sys2Proof.Machine
end

section
/-! PROOFS. The legal words as masks, and the refusal of every other word. -/

namespace Sys2Proof

/-- The fields of a word under a mask. -/
def Fields.and (f m : Fields) : Fields where
  op   := f.op &&& m.op
  z    := f.z && m.z
  cb   := f.cb && m.cb
  rw   := f.rw && m.rw
  rs   := f.rs && m.rs
  data := f.data &&& m.data

theorem ofWord_and (w m : Word) : Fields.ofWord (w &&& m) = (Fields.ofWord w).and (Fields.ofWord m) := by
  simp [Fields.ofWord, Fields.and, BitVec.extractLsb'_and]

theorem ofWord_inj {w v : Word} : Fields.ofWord w = Fields.ofWord v ↔ w = v :=
  (Function.LeftInverse.injective ofWord_toWord).eq_iff

/-- A word matches under a mask when its fields do. -/
theorem and_eq_iff_fields {w m v : Word} :
    w &&& m = v ↔ (Fields.ofWord w).and (Fields.ofWord m) = Fields.ofWord v := by
  rw [← ofWord_and, ofWord_inj]

/-- Well-formed fields are those that match a row's mask (30_encoding.md R90): for each `OP` value only the row of that value
can match, and its mask covers the fields that must be 0. -/
theorem wellFormed_iff_masks (f : Fields) : f.wellFormed = true ↔
    (f.and (Fields.ofWord 0xFCF0) = Fields.ofWord 0x1000 ∨ f.and (Fields.ofWord 0xFCFF) = Fields.ofWord 0x2000 ∨
      f = Fields.ofWord 0x3000 ∨ f.and (Fields.ofWord 0xFA00) = Fields.ofWord 0x4000 ∨ f = Fields.ofWord 0x5000 ∨
      f = Fields.ofWord 0x6000) := by
  obtain ⟨op, z, cb, rw, rs, data⟩ := f
  have hhigh : data &&& 0xF0#8 = 0#8 ↔ data.toNat < 16 := by revert data; decide
  have hzero : data = 0#8 ↔ data.toNat = 0 := by revert data; decide
  have hall : data &&& 0xFF#8 = data := BitVec.and_allOnes
  have hop : op &&& 0xF#4 = op := BitVec.and_allOnes
  simp only [Fields.wellFormed]
  split <;> simp_all [Fields.ofWord, Fields.and, ← BitVec.toNat_inj, and_assoc]

theorem legal_iff_masks (w : Word) : (Fields.ofWord w).wellFormed = true ↔
    (w &&& 0xFCF0 = 0x1000 ∨ w &&& 0xFCFF = 0x2000 ∨ w = 0x3000 ∨ w &&& 0xFA00 = 0x4000 ∨ w = 0x5000 ∨ w = 0x6000) := by
  rw [wellFormed_iff_masks]
  simp only [and_eq_iff_fields, ofWord_inj]

/-- A word whose fields are not well-formed does not decode. -/
theorem decode_illegal {w : Word} (h : (Fields.ofWord w).wellFormed = false) : ∃ e, decode w = .error e := by
  cases hd : decode w with
  | error e => exact ⟨e, rfl⟩
  | ok i =>
    obtain ⟨-, -, hw⟩ := fieldsDecode_sound hd
    rw [h] at hw
    cases hw

end Sys2Proof

namespace Sys2Proof.Machine

/-- An idle block takes an illegal word and refuses it. -/
theorem step_illegal {s : State} {w : Word} {ws : List Word} (hrst : s.rst = false) (hseq : s.seq = .idle)
    (hhost : s.host = w :: ws) (hw : (Fields.ofWord w).wellFormed = false) :
    step s = .next (takeException .illegalRequest (s.take w ws)) := by
  obtain ⟨e, he⟩ := decode_illegal hw
  simp [step, hrst, hseq, serveNext, hhost, he]

/-- The refusal writes `SEQ <- Idle`, which changes nothing in an idle block. -/
theorem refuse_illegal {s : State} (w : Word) (ws : List Word) (hseq : s.seq = .idle) :
    takeException .illegalRequest (s.take w ws) =
      { s with req := w, host := ws, rspCode := 7, rspData := 0, rspValid := true } := by
  simp [takeException, State.respond, State.take, Cause.code, Cause.data, hseq]

/-- Settles O15: the masks are those of the fields (`wellFormed_iff_masks`), and what is not well-formed does not decode,
whatever `PHASE` and `STATUS` are. -/
theorem illegalWordRefused : Obligations.IllegalWordRefused :=
  ⟨legal_iff_masks,
    fun _ w ws hrst hseq hhost hw => (step_illegal hrst hseq hhost hw).trans (congrArg _ (refuse_illegal w ws hseq)),
    rfl, rfl⟩

end Sys2Proof.Machine
end

section
/-! PROOFS. The bytes every operation writes. -/

namespace Sys2Proof.Machine

theorem code_ne_zero (c : Cause) : c.code ≠ 0 := by
  cases c <;> simp [Cause.code]

/-- Settles O40: a refused request writes nothing, and an admitted one what its body writes (`bodyOf_wrote`), all of it
where the body ends without a raise, the only end with code 0. -/
theorem everyWrittenByteHasTheFormat : Obligations.EveryWrittenByteHasTheFormat := by
  intro s t i hlayout hexec
  obtain ⟨polls, hpolls, hwrote⟩ := bodyOf_wrote hlayout i
  obtain rfl := exec_next hexec
  rcases serve_cases i.op (bodyOf i) s with ⟨c, -, hserve⟩ | ⟨-, d, u, hbody, hserve⟩ | ⟨-, c, u, hbody, hserve⟩
  · rw [hserve]
    exact ⟨[], polls, (List.append_nil _).symm, hpolls, List.nil_prefix, fun h => absurd h (code_ne_zero c)⟩
  · rw [hbody] at hwrote
    obtain ⟨-, es, htrace, hbytes⟩ := hwrote
    rw [hserve]
    exact ⟨es, polls, htrace, hpolls, ⟨[], (List.append_nil _).trans hbytes⟩, fun _ => hbytes⟩
  · rw [hbody] at hwrote
    obtain ⟨es, htrace, hprefix⟩ := hwrote
    rw [hserve]
    exact ⟨es, polls, htrace, hpolls, hprefix, fun h => absurd h (code_ne_zero c)⟩

end Sys2Proof.Machine
end

section
/-! PROOFS. The expander byte bit by bit: each flag is alone at its bit, so the backlight line never moves; and in the
layout of this hardware the byte is a concatenation. -/

namespace Sys2Proof

/-- A concatenation determines its two parts. -/
theorem append_eq_append_iff {v w : Nat} {x x' : BitVec v} {y y' : BitVec w} :
    x ++ y = x' ++ y' ↔ x = x' ∧ y = y' := by
  constructor
  · intro h
    have hx := congrArg (BitVec.extractLsb' w v) h
    have hy := congrArg (BitVec.extractLsb' 0 w) h
    rw [BitVec.extractLsb'_append_eq_left, BitVec.extractLsb'_append_eq_left] at hx
    rw [BitVec.extractLsb'_append_eq_right, BitVec.extractLsb'_append_eq_right] at hy
    exact ⟨hx, hy⟩
  · rintro ⟨rfl, rfl⟩
    rfl

theorem flagOk_iff {L : Layout} {p : Nat} : L.flagOk p = true ↔ p < 8 ∧ (p < L.nib ∨ L.nib + 4 ≤ p) := by
  simp [Layout.flagOk]

theorem layout_wf_iff {L : Layout} : L.wf = true ↔
    L.nib ≤ 4 ∧ L.flagOk L.bl = true ∧ L.flagOk L.en = true ∧ L.flagOk L.rw = true ∧ L.flagOk L.rs = true ∧
      [L.bl, L.en, L.rw, L.rs].Nodup := by
  simp only [Layout.wf, Bool.and_eq_true, decide_eq_true_eq, and_assoc]

end Sys2Proof

namespace Sys2Proof.Machine

/-- The nibble puts nothing at the position of a flag. -/
theorem getLsbD_shifted_nibble {L : Layout} {p : Nat} (hp : L.flagOk p = true) (n : Nibble) :
    (n.setWidth 8 <<< L.nib).getLsbD p = false := by
  obtain ⟨-, hbelow | habove⟩ := flagOk_iff.mp hp
  · simp [hbelow]
  · have hbit : n.getLsbD (p - L.nib) = false := BitVec.getLsbD_of_ge _ _ (by omega)
    simp [hbit]

/-- A flag at position `q` is at bit `q` of the byte and at no other. -/
theorem getLsbD_shifted_flag {p : Nat} (hp : p < 8) (b : Bool) (q : Nat) :
    (Byte.ofFlag b <<< q).getLsbD p = (decide (p = q) && b) := by
  rcases lt_trichotomy p q with hlt | rfl | hgt
  · simp [hlt, hlt.ne]
  · simp [hp]
  · simp [hp, hgt.ne', Nat.sub_eq_zero_iff_le, hgt.not_ge]

/-- At the position of a flag the expander byte holds the flags that have this position, and nothing of the nibble. -/
theorem getLsbD_enc {L : Layout} {p : Nat} (hp : L.flagOk p = true) (n : Nibble) (rs rw en bl : Bool) :
    (enc L n rs rw en bl).getLsbD p =
      (decide (p = L.bl) && bl || decide (p = L.en) && en || decide (p = L.rw) && rw || decide (p = L.rs) && rs) := by
  obtain ⟨hbyte, -⟩ := flagOk_iff.mp hp
  simp only [enc, BitVec.getLsbD_or, getLsbD_shifted_nibble hp, getLsbD_shifted_flag hbyte, Bool.false_or]

/-- In a legal layout no other flag has the position of the backlight. -/
theorem getLsbD_enc_bl {L : Layout} (hL : L.wf = true) (n : Nibble) (rs rw en bl : Bool) :
    (enc L n rs rw en bl).getLsbD L.bl = bl := by
  obtain ⟨-, hbl, -, -, -, hdistinct⟩ := layout_wf_iff.mp hL
  obtain ⟨hother, -⟩ := List.nodup_cons.mp hdistinct
  simp only [List.mem_cons, List.not_mem_nil, or_false, not_or] at hother
  obtain ⟨hen, hrw, hrs⟩ := hother
  simp [getLsbD_enc hbl, hen, hrw, hrs]

/-- Every line the block drives has the backlight at `BL` (40_nibble_transactor.md R120). -/
theorem blHigh_lineByte {c : Config} (hL : c.layout.wf = true) (n : Nibble) (rs rw en : Bool) :
    blHigh c (lineByte c n rs rw en) = c.bl :=
  getLsbD_enc_bl hL n rs rw en c.bl

/-- Settles O41: the bytes of an operation's traffic, a failed write's included, are lines (`Traffic.lines`), and each line
has the backlight at `BL`. -/
theorem backlightNeverToggles : Obligations.BacklightNeverToggles := by
  intro s t i hlayout hexec
  obtain ⟨es, htraffic, -⟩ := exec_traffic hexec
  refine ⟨htraffic.cfg, es, htraffic.trace, fun e he b hwritten => ?_⟩
  obtain ⟨n, rs, rw, en, rfl⟩ := htraffic.lines e he b hwritten
  exact blHigh_lineByte hlayout n rs rw en

/-! ### In the layout of this hardware -/

/-- The encoder sees of a configuration only the layout and the backlight flag. -/
theorem enc_standard (n : Nibble) (rs rw en bl : Bool) :
    enc Layout.standard n rs rw en bl = expByte n bl en rw rs :=
  lineByte_standard (c := { Config.default with bl := bl }) rfl n rs rw en

/-- Of the formula's shifts only that of `rs` is missing: it has position 0. -/
theorem enc_standard_eq_shifts (n : Nibble) (rs rw en bl : Bool) :
    enc Layout.standard n rs rw en bl =
      (n.setWidth 8 <<< 4) ||| (Byte.ofFlag bl <<< 3) ||| (Byte.ofFlag en <<< 2) ||| (Byte.ofFlag rw <<< 1) |||
        Byte.ofFlag rs :=
  congrArg (_ ||| ·) (BitVec.shiftLeft_zero (Byte.ofFlag rs))

theorem expByte_inj {n n' : Nibble} {bl bl' en en' rw rw' rs rs' : Bool} :
    expByte n bl en rw rs = expByte n' bl' en' rw' rs' ↔ n = n' ∧ bl = bl' ∧ en = en' ∧ rw = rw' ∧ rs = rs' := by
  refine (append_eq_append_iff (v := 4 + 1 + 1 + 1) (w := 1)).trans ?_
  simp only [append_eq_append_iff, BitVec.ofBool_eq_iff_eq, and_assoc]

/-- Settles O6: `ENC` is the formula (`enc_standard_eq_shifts`) and the concatenation of its fields (`enc_standard`), which
determines them (`expByte_inj`); the byte the block writes gets `bl = BL` by its definition. -/
theorem encoderFormat : Obligations.EncoderFormat := by
  refine ⟨fun n rs rw en bl => ⟨enc_standard n rs rw en bl, enc_standard_eq_shifts n rs rw en bl⟩, ?_,
    fun _ _ _ _ _ => rfl⟩
  intro n n' rs rs' rw rw' en en' bl bl' heq
  rw [enc_standard, enc_standard] at heq
  obtain ⟨hn, hbl, hen, hrw, hrs⟩ := expByte_inj.mp heq
  exact ⟨hn, hrs, hrw, hen, hbl⟩

end Sys2Proof.Machine
end

section
/-! PROOFS. An admitted request whose body raises, and a status read that a failed transfer ends. -/

namespace Sys2Proof.Machine

/-- A request that is admitted and whose body raises ends as that exception, in the state the body left. -/
theorem exec_of_raised {i : Instr} {s t : State} {c : Cause} (hadmit : admission i.op s = none)
    (hbody : bodyOf i s = .raised c t) : exec i s = .next (takeException c t) := by
  simp [exec_eq_serve, serve, hadmit, hbody]

/-- Settles O27: the block admits `RDS`, its body ends at the failed transfer with a transport failure (`rdsBody_failed`),
before `AC` and `STATUS` are written, and the response is that of the cause and writes neither. -/
theorem rdsFailureKeepsAcAndStatus : Obligations.RdsFailureKeepsAcAndStatus := by
  intro s k hphase hstatus hk hbefore hfails
  have hadmit : admission Instr.rds.op s = none := admit_op hphase hstatus (by decide)
  obtain ⟨t, hbody, hbus, hst, hac, hacRead, -, -⟩ := rdsBody_failed hk hbefore hfails
  exact ⟨takeException .transportFailure t, exec_of_raised hadmit hbody, rfl, rfl, hac, hst, hacRead, hbus⟩

end Sys2Proof.Machine
end

section
/-! PROOFS. An admitted request whose body ends without a raise, and `CLR`, which the block always admits. -/

namespace Sys2Proof.Machine

/-- A request that is admitted and whose body ends without a raise responds `OK` with the body's value. -/
theorem exec_of_ok {i : Instr} {s t : State} {d : Byte} (hadmit : admission i.op s = none)
    (hbody : bodyOf i s = .ok d t) : exec i s = .next (t.respond 0 d) := by
  simp [exec_eq_serve, serve, hadmit, hbody]

theorem admission_clr (s : State) : admission .clr s = none := if_pos rfl

/-- In `Timeout` the update of `STATUS`, elsewhere the state itself: either way only `STATUS` is written. -/
theorem returnFromTimeout_eq (s : State) :
    returnFromTimeout s = { s with status := if s.status = .timeout then .ready else s.status } := by
  unfold returnFromTimeout
  split
  · rfl
  · rfl

theorem fatal_eq_false_iff {s : State} : fatal s = false ↔ s.status ≠ .timeout := beq_eq_false_iff_ne

theorem fatal_returnFromTimeout (s : State) : fatal (returnFromTimeout s) = false := by
  rw [fatal_eq_false_iff, returnFromTimeout_eq]
  by_cases hlatched : s.status = .timeout
  · simp [hlatched]
  · simp [hlatched]

/-- Settles O22: the block admits `CLR` in every state (`admission_clr`), its body writes `STATUS` alone and never leaves
`Timeout` (`returnFromTimeout_eq`, `fatal_returnFromTimeout`), and the response `OK` keeps `STATUS`. -/
theorem clrCompletes : Obligations.ClrCompletes := by
  refine ⟨by decide, fun s => ⟨(returnFromTimeout s).respond 0 0, ?_, ?_, ?_⟩⟩
  · exact exec_of_ok (i := .clr) (admission_clr s) rfl
  · exact fatal_returnFromTimeout s
  · rw [returnFromTimeout_eq]
    rfl

end Sys2Proof.Machine
end

section
/-! PROOFS. Which requests the admission check refuses, with which cause, and what a refusal leaves. -/

namespace Sys2Proof.Machine

/-! ### The admission check, cause by cause -/

theorem admission_of_timeout {op : Op} {s : State} (hop : op ≠ .clr) (hstatus : s.status = .timeout) :
    admission op s = some .timeoutLatched := by
  simp [admission, hop, hstatus]

theorem admission_ini {s : State} (hstatus : s.status ≠ .timeout) :
    admission .ini s = if s.phase = .operational then some .initState else none := by
  simp [admission, hstatus]

theorem admission_of_ne_ini {op : Op} {s : State} (hop : op ≠ .clr) (hini : op ≠ .ini) (hstatus : s.status ≠ .timeout) :
    admission op s = if s.phase = .operational then none else some .notInitialised := by
  simp [admission, hop, hini, hstatus]

/-- The four ways through the check (60_exceptions.md R210), with the condition of each and what it answers. -/
theorem admission_cases (op : Op) (s : State) :
    (op = .clr ∧ admission op s = none) ∨
    (op ≠ .clr ∧ s.status = .timeout ∧ admission op s = some .timeoutLatched) ∨
    (op = .ini ∧ s.status ≠ .timeout ∧
      admission op s = if s.phase = .operational then some .initState else none) ∨
    (op ≠ .clr ∧ op ≠ .ini ∧ s.status ≠ .timeout ∧
      admission op s = if s.phase = .operational then none else some .notInitialised) := by
  by_cases hclr : op = .clr
  · exact .inl ⟨hclr, hclr ▸ admission_clr s⟩
  by_cases hstatus : s.status = .timeout
  · exact .inr (.inl ⟨hclr, hstatus, admission_of_timeout hclr hstatus⟩)
  by_cases hini : op = .ini
  · exact .inr (.inr (.inl ⟨hini, hstatus, hini ▸ admission_ini hstatus⟩))
  · exact .inr (.inr (.inr ⟨hclr, hini, hstatus, admission_of_ne_ini hclr hini hstatus⟩))

theorem admission_eq_timeoutLatched_iff {op : Op} {s : State} :
    admission op s = some .timeoutLatched ↔ s.status = .timeout ∧ op ≠ .clr := by
  rcases admission_cases op s with ⟨rfl, h⟩ | ⟨hop, hst, h⟩ | ⟨rfl, hst, h⟩ | ⟨hop, hini, hst, h⟩
  · simp [h]
  · simp [h, hop, hst]
  · simp [h, hst]
  · simp [h, hst]

theorem admission_eq_initState_iff {op : Op} {s : State} :
    admission op s = some .initState ↔ s.status ≠ .timeout ∧ s.phase = .operational ∧ op = .ini := by
  rcases admission_cases op s with ⟨rfl, h⟩ | ⟨hop, hst, h⟩ | ⟨rfl, hst, h⟩ | ⟨hop, hini, hst, h⟩
  · simp [h]
  · simp [h, hst]
  · simp [h, hst]
  · simp [h, hini]

theorem admission_eq_notInitialised_iff {op : Op} {s : State} :
    admission op s = some .notInitialised ↔
      s.status ≠ .timeout ∧ s.phase ≠ .operational ∧ op ≠ .ini ∧ op ≠ .clr := by
  rcases admission_cases op s with ⟨rfl, h⟩ | ⟨hop, hst, h⟩ | ⟨rfl, hst, h⟩ | ⟨hop, hini, hst, h⟩
  · simp [h]
  · simp [h, hst]
  · simp [h]
  · simp [h, hop, hini, hst]

theorem admission_ini_eq_none_iff {s : State} :
    admission .ini s = none ↔ s.phase ≠ .operational ∧ s.status ≠ .timeout := by
  by_cases hst : s.status = .timeout
  · simp [admission_of_timeout (op := .ini) (by decide) hst, hst]
  · simp [admission_ini hst, hst]

/-! ### What a refusal leaves -/

/-- A refused request ends as that exception, in the state it found. -/
theorem exec_of_refused {i : Instr} {s : State} {c : Cause} (hrefuse : admission i.op s = some c) :
    exec i s = .next (takeException c s) := by
  simp [exec_eq_serve, serve, hrefuse]

/-- Settles O31: the two refusals are those of the admission check, and a refusal writes the response alone. -/
theorem timeoutLatchAndInitStateRefuse : Obligations.TimeoutLatchAndInitStateRefuse :=
  ⟨fun _ _ hstatus hop => exec_of_refused (admission_eq_timeoutLatched_iff.mpr ⟨hstatus, hop⟩),
    fun _ hstatus hphase => exec_of_refused (i := .ini) (admission_eq_initState_iff.mpr ⟨hstatus, hphase, rfl⟩)⟩

/-- Settles O32: the refusal is that of the admission check, and a refusal writes the response alone. -/
theorem notInitialisedRefuses : Obligations.NotInitialisedRefuses :=
  fun _ _ hstatus hphase hclr hini =>
    exec_of_refused (admission_eq_notInitialised_iff.mpr ⟨hstatus, hphase, hini, hclr⟩)

end Sys2Proof.Machine
end

section
/-! PROOFS. What a body can raise, and so which response codes are those of a refusal (60_exceptions.md R211, R212). -/

namespace Sys2Proof.Machine

/-! ### The causes of a body -/

theorem andThen_ok_eq_raised {α β : Type} {r : Result α} {f : α → β} {c : Cause} {t : State}
    (h : (r.andThen fun a u => .ok (f a) u) = .raised c t) : r = .raised c t := by
  cases r with
  | ok a u => cases h
  | raised c' u => cases h; rfl

theorem wrnBody_causes {n : Nibble} {rs rw : Bool} {s t : State} {c : Cause}
    (h : wrnBody n rs rw s = .raised c t) : c = .transportFailure := by
  rcases s.bus.okFor_or_first_failure 3 with hok | ⟨k, hk, hok, hf⟩
  · rw [wrnBody_ok hok] at h; cases h
  · rw [wrnBody_failed hk hok hf] at h; cases h; rfl

theorem rdnBody_causes {rs rw : Bool} {s t : State} {c : Cause}
    (h : rdnBody rs rw s = .raised c t) : c = .transportFailure := by
  rcases s.bus.okFor_or_first_failure 4 with hok | ⟨k, hk, hok, hf⟩
  · rw [rdnBody_ok hok] at h; cases h
  · rw [rdnBody_failed hk hok hf] at h; cases h; rfl

theorem rdsBody_causes {s t : State} {c : Cause} (h : rdsBody s = .raised c t) : c = .transportFailure := by
  rcases s.bus.okFor_or_first_failure 8 with hok | ⟨k, hk, hok, hf⟩
  · rw [rdsBody_ok hok] at h; cases h
  · obtain ⟨u, hu, -⟩ := rdsBody_failed hk hok hf
    rw [hu] at h; cases h; rfl

/-- `INI` adds one cause to those of its sequence: that of a probe that finds no device (60_exceptions.md R201). -/
theorem iniBody_causes {s t : State} {c : Cause} (h : iniBody s = .raised c t) :
    (c = .transportFailure ∨ ∃ b, c = .timeout b) ∨ (c = .deviceUnavailable ∧ (s.bus.at 0).ok = false) := by
  cases hprobe : (s.bus.at 0).ok with
  | false => rw [iniBody_absent hprobe] at h; cases h; exact .inr ⟨rfl, rfl⟩
  | true =>
    rw [iniBody_present hprobe] at h
    cases hseq : iniSequence s.probed with
    | ok a u => rw [hseq] at h; cases h
    | raised c' u => rw [hseq] at h; cases h; exact .inl (iniSequence_causes hseq)

/-- A body raises a failure or a timeout, or it is that of an `INI` whose probe found no device. -/
theorem bodyOf_causes {i : Instr} {s t : State} {c : Cause} (h : bodyOf i s = .raised c t) :
    (c = .transportFailure ∨ ∃ b, c = .timeout b) ∨
    (c = .deviceUnavailable ∧ i = .ini ∧ (s.bus.at 0).ok = false) := by
  cases i with
  | wrn n rs rw => exact .inl (.inl (wrnBody_causes (andThen_ok_eq_raised h)))
  | rdn rs rw => exact .inl (.inl (rdnBody_causes (andThen_ok_eq_raised h)))
  | rds => exact .inl (.inl (rdsBody_causes h))
  | snd d rs cb => exact .inl (sndBody_causes (andThen_ok_eq_raised h))
  | ini => exact (iniBody_causes (andThen_ok_eq_raised h)).imp_right fun ⟨hc, hprobe⟩ => ⟨hc, rfl, hprobe⟩
  | clr => cases h

/-! ### Response codes -/

theorem code_eq_one {c : Cause} : c.code = 1 ↔ c = .deviceUnavailable := by cases c <;> simp [Cause.code]
theorem code_eq_four {c : Cause} : c.code = 4 ↔ c = .notInitialised := by cases c <;> simp [Cause.code]
theorem code_eq_five {c : Cause} : c.code = 5 ↔ c = .timeoutLatched := by cases c <;> simp [Cause.code]
theorem code_eq_six {c : Cause} : c.code = 6 ↔ c = .initState := by cases c <;> simp [Cause.code]

theorem bodyOf_code_le {i : Instr} {s t : State} {c : Cause} (h : bodyOf i s = .raised c t) : c.code ≤ 3 := by
  rcases bodyOf_causes h with (rfl | ⟨b, rfl⟩) | ⟨rfl, -, -⟩
  · decide
  · exact (by decide : (2 : BitVec 3) ≤ 3)
  · decide

theorem refusal_code_gt {op : Op} {s : State} {c : Cause} (h : admission op s = some c) : 3 < c.code := by
  rcases admit_causes h with rfl | rfl | rfl
  · decide
  · decide
  · decide

/-- Codes above 3 are the admission check's: what an admitted request ends with is at most 3. -/
theorem rspCode_iff_refused {i : Instr} {s t : State} (h : exec i s = .next t) {n : BitVec 3} (hn : 3 < n) :
    t.rspCode = n ↔ ∃ c, c.code = n ∧ admission i.op s = some c := by
  obtain rfl := exec_next h
  rcases serve_cases i.op (bodyOf i) s with ⟨c, ha, hs⟩ | ⟨ha, d, u, -, hs⟩ | ⟨ha, c, u, hb, hs⟩
  · simp [hs, ha, takeException]
  · have hne : 0#3 ≠ n := by bv_omega
    simp [hs, ha, hne]
  · have hne : c.code ≠ n := by have := bodyOf_code_le hb; bv_omega
    simp [hs, ha, hne, takeException]

/-- Settles O33: each code above 3 is the admission check's (`rspCode_iff_refused`), each of its causes has a code of its
own, and the state decides which cause it answers (`admission_eq_timeoutLatched_iff` and the two after it). -/
theorem admissionDecides : Obligations.AdmissionDecides := by
  intro s t i h
  refine ⟨?_, ?_, ?_, ?_⟩
  · simp only [rspCode_iff_refused h (n := 5) (by decide), code_eq_five, exists_eq_left,
      admission_eq_timeoutLatched_iff]
  · simp only [rspCode_iff_refused h (n := 6) (by decide), code_eq_six, exists_eq_left, admission_eq_initState_iff]
  · simp only [rspCode_iff_refused h (n := 4) (by decide), code_eq_four, exists_eq_left,
      admission_eq_notInitialised_iff]
  · intro h7
    obtain ⟨c, hcode, hrefuse⟩ := (rspCode_iff_refused h (n := 7) (by decide)).mp h7
    rcases admit_causes hrefuse with rfl | rfl | rfl
    · exact absurd hcode (by decide)
    · exact absurd hcode (by decide)
    · exact absurd hcode (by decide)

end Sys2Proof.Machine
end

section
/-! PROOFS. An `INI` that finds no device, and that nothing else ends with its code (60_exceptions.md R201). -/

namespace Sys2Proof.Machine

theorem bodyOf_ini_absent {s : State} (hprobe : (s.bus.at 0).ok = false) :
    bodyOf .ini s = .raised .deviceUnavailable (s.used.emit [.P false]) := by
  simp [bodyOf, iniBody_absent hprobe]

/-- Only a body raises `DeviceUnavailable`: a refusal's code is above 3 and that of `OK` is 0. -/
theorem raised_of_rspCode_one {i : Instr} {s t : State} (h : exec i s = .next t) (hcode : t.rspCode = 1) :
    admission i.op s = none ∧ ∃ u, bodyOf i s = .raised .deviceUnavailable u := by
  obtain rfl := exec_next h
  rcases serve_cases i.op (bodyOf i) s with ⟨c, ha, hs⟩ | ⟨-, d, u, -, hs⟩ | ⟨ha, c, u, hb, hs⟩
  · rw [hs] at hcode
    have hgt := refusal_code_gt ha
    rw [show c.code = 1 from hcode] at hgt
    exact absurd hgt (by decide)
  · rw [hs] at hcode
    exact absurd hcode (by simp)
  · rw [hs] at hcode
    obtain rfl := code_eq_one.mp hcode
    exact ⟨ha, u, hb⟩

/-- Settles O24: an admitted `INI` whose probe fails ends there (`iniBody_absent`), and code 1 comes from an admitted body
that raised `DeviceUnavailable` (`raised_of_rspCode_one`), which only that of `INI` does (`bodyOf_causes`). -/
theorem iniWithoutDevice : Obligations.IniWithoutDevice := by
  constructor
  · intro s hphase hstatus hprobe
    exact exec_of_raised (i := .ini) (admission_ini_eq_none_iff.mpr ⟨hphase, hstatus⟩) (bodyOf_ini_absent hprobe)
  · intro s t i h hcode
    obtain ⟨hadmit, u, hbody⟩ := raised_of_rspCode_one h hcode
    rcases bodyOf_causes hbody with (hc | ⟨b, hc⟩) | ⟨-, rfl, hprobe⟩
    · cases hc
    · cases hc
    · obtain ⟨hphase, hstatus⟩ := admission_ini_eq_none_iff.mp hadmit
      exact ⟨rfl, hprobe, hphase, hstatus⟩

end Sys2Proof.Machine
end

section
/-! PROOFS. Decoding and encoding: fields and words determine each other, an instruction is determined by its fields, and
a word matches the row of the opcode map it decodes to. -/

namespace Sys2Proof

/-! ### Fields and words -/

/-- A word determines its fields. -/
theorem toWord_inj {f g : Fields} : f.toWord = g.toWord ↔ f = g := by
  refine ⟨fun h => ?_, congrArg _⟩
  obtain ⟨op, z, cb, rw, rs, data⟩ := f
  obtain ⟨op', z', cb', rw', rs', data'⟩ := g
  obtain ⟨hhigh, rfl⟩ := (append_eq_append_iff (v := 4 + 1 + 1 + 1 + 1) (w := 8)).mp h
  simp only [append_eq_append_iff, BitVec.ofBool_eq_iff_eq] at hhigh
  obtain ⟨⟨⟨⟨rfl, rfl⟩, rfl⟩, rfl⟩, rfl⟩ := hhigh
  rfl

theorem fields_op (i : Instr) : i.fields.op = i.op.opcode := by cases i <;> rfl

theorem ofOpcode_opcode (o : Op) : Op.ofOpcode o.opcode = some o := by
  cases o <;> rfl

/-- The decoder's reading of `OP` inverts the opcodes, so no two operations share one. -/
theorem opcode_inj {o o' : Op} (h : o.opcode = o'.opcode) : o = o' :=
  Option.some.inj (by rw [← ofOpcode_opcode o, h, ofOpcode_opcode])

/-- The operands of an instruction read back from its fields. -/
theorem instr_fields (i : Instr) : i.op.instr i.fields = i := by
  cases i with
  | wrn n rs rw =>
    have hn : (n.setWidth 8).extractLsb' 0 4 = n := by revert n; decide
    simp only [Instr.op, Instr.fields, Op.instr, hn]
  | rdn | rds | snd | ini | clr => rfl

/-- An instruction is determined by its fields: `OP` gives the operation, the others its operands. -/
theorem fields_inj {i j : Instr} (h : i.fields = j.fields) : i = j := by
  have hop : i.op = j.op := opcode_inj (by rw [← fields_op, ← fields_op, h])
  rw [← instr_fields i, ← instr_fields j, hop, h]

theorem encode_eq_iff {i : Instr} {w : Word} : encode i = w ↔ i.fields = Fields.ofWord w := by
  rw [encode, ← toWord_inj, ofWord_toWord]

/-- Settles O1: what decodes has the fields of the word (`fieldsDecode_sound`), and the well-formed fields of an instruction
decode (`fieldsDecode_complete`), to no other instruction, since its fields determine it (`fields_inj`). -/
theorem decodeInvertsEncode : Obligations.DecodeInvertsEncode := by
  intro w i
  rw [encode_eq_iff]
  constructor
  · intro h
    obtain ⟨hwf, hfields, -⟩ := fieldsDecode_sound h
    exact ⟨hwf, hfields⟩
  · rintro ⟨hwf, hfields⟩
    obtain ⟨j, hj⟩ := fieldsDecode_complete (f := Fields.ofWord w) (hfields ▸ hwf)
    obtain ⟨-, hfields', -⟩ := fieldsDecode_sound hj
    obtain rfl := fields_inj (hfields'.trans hfields.symm)
    exact hj

theorem encode_of_decode {w : Word} {i : Instr} (h : decode w = .ok i) : encode i = w :=
  ((decodeInvertsEncode w i).mp h).2

end Sys2Proof
end

section
/-! PROOFS. The opcode map: a word matches the row of the operation it decodes to and no other. -/

namespace Sys2Proof

theorem op_instr (f : Fields) (o : Op) : (o.instr f).op = o := by
  cases o <;> rfl

/-- Fields decode to an operation when `OP` is its opcode and its must-be-zero fields are 0. -/
theorem fieldsDecode_op_iff {f : Fields} {o : Op} :
    (∃ i, f.decode = .ok i ∧ i.op = o) ↔ f.op = o.opcode ∧ f.zerosOk o = true := by
  constructor
  · rintro ⟨i, hi, rfl⟩
    obtain ⟨-, rfl, -⟩ := fieldsDecode_sound hi
    refine ⟨fields_op i, ?_⟩
    by_contra hzero
    simp [Fields.decode, fields_op, ofOpcode_opcode, hzero] at hi
  · rintro ⟨hop, hzero⟩
    exact ⟨o.instr f, by simp [Fields.decode, hop, ofOpcode_opcode, hzero], op_instr f o⟩

/-- The mask of a row covers `OP` and the must-be-zero fields of its operation (30_encoding.md R90). -/
theorem row_selects_iff {r : OpRow} (hr : r ∈ opcodeTable) (w : Word) :
    r.selects w = true ↔ (Fields.ofWord w).op = r.op.opcode ∧ (Fields.ofWord w).zerosOk r.op = true := by
  rw [OpRow.selects, beq_iff_eq, and_eq_iff_fields]
  generalize Fields.ofWord w = f
  obtain ⟨op, z, cb, rw, rs, data⟩ := f
  have hhigh : data &&& 0xF0#8 = 0#8 ↔ data.extractLsb' 4 4 = 0#4 := by revert data; decide
  have hall : data &&& 0xFF#8 = data := BitVec.and_allOnes
  have hop : op &&& 0xF#4 = op := BitVec.and_allOnes
  simp only [opcodeTable, List.mem_cons, List.not_mem_nil, or_false] at hr
  rcases hr with rfl | rfl | rfl | rfl | rfl | rfl <;>
    simp [Fields.ofWord, Fields.and, Fields.zerosOk, Op.opcode, hhigh, hall, hop, and_assoc]

theorem row_of_op {r r' : OpRow} (hr : r ∈ opcodeTable) (hr' : r' ∈ opcodeTable) (hop : r.op = r'.op) : r = r' :=
  (by decide : ∀ r ∈ opcodeTable, ∀ r' ∈ opcodeTable, r.op = r'.op → r = r') r hr r' hr' hop

/-- Settles O2: a row's mask and the decoder test the same fields (`row_selects_iff`, `fieldsDecode_op_iff`); a word that
matches two rows decodes to the operation of both, and an operation has one row. -/
theorem decodeFollowsOpcodeTable : Obligations.DecodeFollowsOpcodeTable := by
  constructor
  · intro r hr w
    rw [row_selects_iff hr, ← fieldsDecode_op_iff]
    rfl
  · intro r hr r' hr' w hsel hsel'
    obtain ⟨hop, -⟩ := (row_selects_iff hr w).mp hsel
    obtain ⟨hop', -⟩ := (row_selects_iff hr' w).mp hsel'
    exact row_of_op hr hr' (opcode_inj (hop.symm.trans hop'))

end Sys2Proof
end

section
/-! PROOFS. The words of the operations as formulas, and sample words. -/

namespace Sys2Proof

/-- `RW` is bit 9 and `RS` bit 8 of the word (30_encoding.md R89), and the nibble fills its low end. -/
theorem encode_wrn (n : Nibble) (rs rw : Bool) :
    encode (.wrn n rs rw) =
      0x1000 ||| ((BitVec.ofBool rw).setWidth 16 <<< 9) ||| ((BitVec.ofBool rs).setWidth 16 <<< 8) ||| n.setWidth 16 := by
  revert n rs rw; decide

theorem encode_rdn (rs rw : Bool) :
    encode (.rdn rs rw) =
      0x2000 ||| ((BitVec.ofBool rw).setWidth 16 <<< 9) ||| ((BitVec.ofBool rs).setWidth 16 <<< 8) := by
  revert rs rw; decide

/-- The upper byte of `encode_snd` with `CB` and `RS` shifted to bits 10 and 8. -/
theorem encode_snd_eq_or (d : Byte) (rs cb : Bool) :
    encode (.snd d rs cb) =
      0x4000 ||| ((BitVec.ofBool cb).setWidth 16 <<< 10) ||| ((BitVec.ofBool rs).setWidth 16 <<< 8) ||| d.setWidth 16 := by
  have hupper : ∀ rs cb : Bool,
      (0x4#4 ++ 0#1 ++ BitVec.ofBool cb ++ 0#1 ++ BitVec.ofBool rs).setWidth 16 <<< 8 =
        0x4000 ||| ((BitVec.ofBool cb).setWidth 16 <<< 10) ||| ((BitVec.ofBool rs).setWidth 16 <<< 8) := by decide
  rw [encode_snd, hupper]

/-- Settles O3: the words with operands by the lemma of each operation, those without are fixed words. -/
theorem wordsOfInstructions : Obligations.WordsOfInstructions :=
  ⟨encode_wrn, encode_rdn, rfl, encode_snd_eq_or, rfl, rfl⟩

/-- Settles O4: each of the twelve words is evaluated. -/
theorem sampleWordsDecode : Obligations.SampleWordsDecode := by
  unfold Obligations.SampleWordsDecode
  decide

end Sys2Proof
end

section
/-! PROOFS. Reading the fields of the expander byte back, in every legal layout. -/

namespace Sys2Proof.Machine

/-- In a legal layout each flag is alone at its position (30_encoding.md R82). -/
theorem getLsbD_enc_flags {L : Layout} (hL : L.wf = true) (n : Nibble) (rs rw en bl : Bool) :
    (enc L n rs rw en bl).getLsbD L.rs = rs ∧ (enc L n rs rw en bl).getLsbD L.rw = rw ∧
    (enc L n rs rw en bl).getLsbD L.en = en := by
  obtain ⟨-, -, hen, hrw, hrs, hdistinct⟩ := layout_wf_iff.mp hL
  simp only [List.nodup_cons, List.mem_cons, List.not_mem_nil, or_false, not_or, not_false_eq_true,
    List.nodup_nil, and_true] at hdistinct
  obtain ⟨⟨hblen, hblrw, hblrs⟩, ⟨henrw, henrs⟩, hrwrs⟩ := hdistinct
  refine ⟨?_, ?_, ?_⟩
  · simp [getLsbD_enc hrs, Ne.symm hblrs, Ne.symm henrs, Ne.symm hrwrs]
  · simp [getLsbD_enc hrw, Ne.symm hblrw, Ne.symm henrw, hrwrs]
  · simp [getLsbD_enc hen, Ne.symm hblen, henrw, henrs]

/-- No flag lies in the nibble's four bits. -/
theorem flag_outside_nibble {L : Layout} {p i : Nat} (hp : L.flagOk p = true) (hi : i < 4) : L.nib + i ≠ p := by
  obtain ⟨-, hside⟩ := flagOk_iff.mp hp
  omega

theorem getLsbD_nibbleField (L : Layout) (v : Byte) {i : Nat} (hi : i < 4) :
    (nibbleField L v).getLsbD i = v.getLsbD (L.nib + i) := by
  simp only [nibbleField, BitVec.getLsbD_setWidth, BitVec.getLsbD_ushiftRight, decide_eq_true hi, Bool.true_and]

/-- In a legal layout the four bits at the nibble's position are the nibble's. -/
theorem nibbleField_enc {L : Layout} (hL : L.wf = true) (n : Nibble) (rs rw en bl : Bool) :
    nibbleField L (enc L n rs rw en bl) = n := by
  obtain ⟨hnib, hbl, hen, hrw, hrs, -⟩ := layout_wf_iff.mp hL
  apply BitVec.eq_of_getLsbD_eq
  intro i hi
  have hbyte : L.nib + i < 8 := by omega
  have hshift : (n.setWidth 8 <<< L.nib).getLsbD (L.nib + i) = n.getLsbD i := by
    simp [hbyte]
  simp only [getLsbD_nibbleField L _ hi, enc, BitVec.getLsbD_or, hshift, getLsbD_shifted_flag hbyte,
    decide_eq_false (flag_outside_nibble hbl hi), decide_eq_false (flag_outside_nibble hen hi),
    decide_eq_false (flag_outside_nibble hrw hi), decide_eq_false (flag_outside_nibble hrs hi), Bool.false_and,
    Bool.or_false]

/-- Settles O7: the nibble's bits hold no flag (`nibbleField_enc`), and each flag is alone at its bit (`getLsbD_enc_flags`,
`getLsbD_enc_bl`). -/
theorem encoderReadsBackInEveryLayout : Obligations.EncoderReadsBackInEveryLayout := by
  intro L hL n rs rw en bl
  obtain ⟨hrs, hrw, hen⟩ := getLsbD_enc_flags hL n rs rw en bl
  exact ⟨nibbleField_enc hL n rs rw en bl, hrs, hrw, hen, getLsbD_enc_bl hL n rs rw en bl⟩

end Sys2Proof.Machine
end

section
/-! PROOFS. Reset, the output ports, and the step of an idle block: it waits, or takes a request and responds. -/

namespace Sys2Proof.Machine

/-! ### Reset and the output ports -/

theorem fatal_eq_true_iff {s : State} : fatal s = true ↔ s.status = .timeout := beq_iff_eq

theorem reqReady_eq_true_iff {s : State} : reqReady s = true ↔ s.seq = .idle := beq_iff_eq

theorem step_of_rst {s : State} (hrst : s.rst = true) : step s = .next s.applyReset := by
  simp [step, hrst]

/-- Settles O9: the values are those of `State.reset`. -/
theorem resetValues : Obligations.ResetValues :=
  ⟨rfl, rfl, rfl, rfl, rfl, rfl, rfl, rfl, rfl, rfl⟩

/-- Settles O10: `RST` comes first in a step, and `applyReset` takes nothing but the configuration, the host and the
transport from the state it finds. -/
theorem resetFromAnyState : Obligations.ResetFromAnyState := by
  intro s hrst
  exact ⟨s.applyReset, step_of_rst hrst, rfl, rfl, rfl, rfl, rfl, rfl, rfl, rfl, rfl, rfl, rfl⟩

theorem status_bits_inj {x y : Status} : x.bits = y.bits ↔ x = y := by
  cases x <;> cases y <;> decide

theorem status_bits_ne (x : Status) : x.bits ≠ 0b11 := by
  cases x <;> decide

theorem phase_bits_inj {x y : Phase} : x.bits = y.bits ↔ x = y := by
  cases x <;> cases y <;> decide

/-- Settles O11: the encodings of `STATUS` and `PHASE` are injective, and `0b11` encodes no `STATUS`; the other ports are
their definitions. -/
theorem outputPortsShowTheRegisters : Obligations.OutputPortsShowTheRegisters := by
  intro s
  exact ⟨status_bits_inj (y := .ready), status_bits_inj (y := .busy), status_bits_inj (y := .timeout),
    status_bits_ne s.status, phase_bits_inj (y := .uninit), phase_bits_inj (y := .running),
    phase_bits_inj (y := .operational), phase_bits_inj (y := .aborted), fatal_eq_true_iff, reqReady_eq_true_iff, rfl,
    fun hread => if_pos hread⟩

/-! ### The step of an idle block -/

theorem step_of_idle {s : State} (hrst : s.rst = false) (hseq : s.seq = .idle) : step s = serveNext s := by
  simp [step, hrst, hseq]

/-- Settles O12: the step of an idle block is `serveNext`, which waits for a request. -/
theorem idleBlockWaits : Obligations.IdleBlockWaits := by
  intro s hrst hseq hhost
  rw [step_of_idle hrst hseq]
  simp [serveNext, hhost]

theorem step_request {s : State} {w : Word} {ws : List Word} {i : Instr} (hrst : s.rst = false) (hseq : s.seq = .idle)
    (hhost : s.host = w :: ws) (hdecode : decode w = .ok i) : step s = exec i (s.take w ws) := by
  rw [step_of_idle hrst hseq]
  simp [serveNext, hhost, hdecode]

theorem decode?_eq_some_iff {w : Word} {i : Instr} : decode? w = some i ↔ decode w = .ok i := by
  cases h : decode w <;> simp [decode?, h]

/-- Settles O13: the step is `step_request`; `withFetchWord` makes an idle block with its word at the head of the list. -/
theorem stepRunsDecodedRequest : Obligations.StepRunsDecodedRequest := by
  constructor
  · intro s w ws i hrst hseq hhost hdecode
    exact step_request hrst hseq hhost hdecode
  · intro s nbits w i hdecode
    exact step_request (s := s.withFetchWord nbits w) rfl rfl rfl (decode?_eq_some_iff.mp hdecode)

theorem exec_responds {i : Instr} {s t : State} (h : exec i s = .next t) : t.rspValid = true ∧ t.seq = .idle := by
  obtain ⟨code, data, rfl | rfl⟩ := exec_final h
  · exact ⟨rfl, rfl⟩
  · exact ⟨rfl, rfl⟩

/-- Settles O14: a legal word is executed and an illegal one refused, and either way a response is written last; no operation
writes `REQ` or the requests to come (`Traffic`). -/
theorem oneResponsePerRequest : Obligations.OneResponsePerRequest := by
  intro s w ws hrst hseq hhost
  cases hdecode : decode w with
  | ok i =>
    have hexec := exec_eq_serve i (s.take w ws)
    obtain ⟨hvalid, hidle⟩ := exec_responds hexec
    obtain ⟨es, htraffic, -⟩ := exec_traffic hexec
    exact ⟨_, (step_request hrst hseq hhost hdecode).trans hexec, hvalid, hidle, htraffic.req, htraffic.host⟩
  | error e =>
    refine ⟨takeException .illegalRequest (s.take w ws), ?_, rfl, rfl, rfl, rfl⟩
    rw [step_of_idle hrst hseq]
    simp [serveNext, hhost, hdecode]

/-- Settles O50: `RST` and a step in flight answer a state by definition, an idle block waits or responds. -/
theorem stepAlwaysGoesOn : Obligations.StepAlwaysGoesOn := by
  intro s
  cases hrst : s.rst with
  | true => exact ⟨_, step_of_rst hrst⟩
  | false =>
    cases hseq : s.seq with
    | flight op n todo v => exact ⟨_, step_of_flight hseq hrst⟩
    | idle =>
      cases hhost : s.host with
      | nil => exact ⟨s, idleBlockWaits s hrst hseq hhost⟩
      | cons w ws =>
        obtain ⟨t, hstep, -⟩ := oneResponsePerRequest s w ws hrst hseq hhost
        exact ⟨t, hstep⟩

end Sys2Proof.Machine
end

section
/-! PROOFS. The step in flight, primitive by primitive: a tick, a transfer, a probe, a raise, the last poll. -/

namespace Sys2Proof.Machine

section
variable {s : State} {op : Op} {n : Nat} {k : List Micro} {v : Byte}

/-- With no delay running, the step in flight is the next primitive. -/
theorem step_micro {m : Micro} (hseq : s.seq = .flight op n (m :: k) v) (hrst : s.rst = false) (hdly : s.dly = 0) :
    step s = .next (doMicro op (n + 1) k v m s) := by
  rw [step_of_flight hseq hrst]
  simp only [seqStep, hseq, hdly, if_true]

theorem step_tick (hseq : s.seq = .flight op n k v) (hrst : s.rst = false) (hdly : s.dly ≠ 0) :
    step s = .next { s with dly := s.dly - 1 } := by
  rw [step_of_flight hseq hrst]
  simp only [seqStep, hseq, if_neg hdly, State.tick]

theorem delayEvents_of_ne_zero {d : BitVec 6} (hd : d ≠ 0) : delayEvents d = [.D d.toNat] := if_neg hd

/-- A raise in a running `INI`: the clean-up (43_init_sequencer.md R168). -/
theorem doMicro_raise_running {c : Cause} (hphase : s.phase = .running) :
    doMicro op n k v (.raise c) s = { s with phase := .aborted, seq := .flight op n [.raise c] v } := if_pos hphase

/-- A raise elsewhere: the response. -/
theorem doMicro_raise {c : Cause} (hphase : s.phase ≠ .running) :
    doMicro op n k v (.raise c) s = takeException c s := if_neg hphase

end

/-- Settles O54: a running delay makes the step a tick (`step_tick`), and a delay of `n > 0` is the event `D(n)` and loads
`DLY`. -/
theorem delayHoldsTheSequencer : Obligations.DelayHoldsTheSequencer := by
  constructor
  · intro s op n todo v hseq hrst hdly
    exact step_tick hseq hrst hdly
  · intro s op n d k v hseq hrst hdly hd
    rw [step_micro hseq hrst hdly, ← delayEvents_of_ne_zero hd]
    rfl

/-- Settles O55: the primitive at the head of the list decides the port, and the transport's answer the branch. -/
theorem busWriteStep : Obligations.BusWriteStep := by
  intro s op n b k v hseq hrst hdly
  have hstep := step_micro hseq hrst hdly
  exact ⟨by simp only [busOut, hseq, hdly, if_true], fun hok => hstep.trans (congrArg _ (if_pos hok)),
    fun hfail => hstep.trans (congrArg _ (if_neg (ne_true_of_eq_false hfail)))⟩

theorem doMicro_probe {op : Op} {n : Nat} {k : List Micro} {v : Byte} {s : State} {r : Bool} (hanswer : (s.bus.at 0).ok = r) :
    doMicro op n k v .probe s = { s with
      bus := s.bus.after 1, trace := s.trace ++ [.P r],
      seq := .flight op n (if r then k else [.raise .deviceUnavailable]) v } := by
  subst hanswer
  change (if (s.bus.at 0).ok = true then _ else _) = _
  split
  · rfl
  · rfl

/-- Settles O56: a read as a write; a probe records the answer, which decides what is left to do (`doMicro_probe`). -/
theorem busReadAndProbeStep : Obligations.BusReadAndProbeStep := by
  constructor
  · intro s op n k v hseq hrst hdly
    have hstep := step_micro hseq hrst hdly
    exact ⟨by simp only [busOut, hseq, hdly, if_true], fun hok => hstep.trans (congrArg _ (if_pos hok)),
      fun hfail => hstep.trans (congrArg _ (if_neg (ne_true_of_eq_false hfail)))⟩
  · intro s op n k v hseq hrst hdly
    have hstep := step_micro hseq hrst hdly
    exact ⟨by simp only [busOut, hseq, hdly, if_true], fun hok => hstep.trans (congrArg _ (doMicro_probe hok)),
      fun hfail => hstep.trans (congrArg _ (doMicro_probe hfail))⟩

/-- Settles O57: the primitive is the raise, with its two cases (`doMicro_raise_running`, `doMicro_raise`). -/
theorem raiseEndsTheOperation : Obligations.RaiseEndsTheOperation := by
  intro s op n c k v hseq hrst hdly
  rw [step_micro hseq hrst hdly]
  exact ⟨fun hphase => congrArg _ (doMicro_raise_running hphase), fun hphase => congrArg _ (doMicro_raise hphase)⟩

end Sys2Proof.Machine
end

section
/-! PROOFS. The run of a raise to its response, and the step of `STATUS <- Timeout` before it (60_exceptions.md R203). -/

namespace Sys2Proof.Machine

theorem fineStep_micro {s : State} {op : Op} {n : Nat} {m : Micro} {k : List Micro} {v : Byte}
    (hseq : s.seq = .flight op n (m :: k) v) (hrst : s.rst = false) (hdly : s.dly = 0) :
    fineStep s = doMicro op (n + 1) k v m s := by
  have hdly' : s.dly = 0#6 := hdly
  simp [fineStep, hrst, hseq, seqStep, hdly']

theorem fineRun_one (s : State) : fineRun 1 s = fineStep s := rfl

/-- The number of single steps from a raise to the response: in a running `INI` the clean-up takes one. -/
def raiseSteps (t : State) : Nat := if t.phase = .running then 2 else 1

theorem raiseSteps_pos (t : State) : 0 < raiseSteps t := by
  unfold raiseSteps; split <;> decide

/-- A raise in flight writes neither `STATUS` nor `RSP_VALID` before the step of its response. -/
theorem fineRun_raise {t : State} {op : Op} {n : Nat} {c : Cause} {v : Byte} (hdly : t.dly = 0) (hrst : t.rst = false) :
    fineRun (raiseSteps t) (inFlight t op n [.raise c] v) = afterRaise c t ∧
    ∀ j, j < raiseSteps t → ∃ u m, u.status = t.status ∧ u.rspValid = t.rspValid ∧
      fineRun j (inFlight t op n [.raise c] v) = inFlight u op m [.raise c] v := by
  have hfirst : fineStep (inFlight t op n [.raise c] v) = doMicro op (n + 1) [] v (.raise c) (inFlight t op n [.raise c] v) :=
    fineStep_micro rfl hrst hdly
  by_cases hphase : t.phase = .running
  · have hclean : fineStep (inFlight t op n [.raise c] v) = inFlight (abortInit t) op (n + 1) [.raise c] v :=
      hfirst.trans (doMicro_raise_running hphase)
    have hrespond : fineStep (inFlight (abortInit t) op (n + 1) [.raise c] v) = takeException c (abortInit t) :=
      (fineStep_micro (s := inFlight (abortInit t) op (n + 1) [.raise c] v) rfl hrst hdly).trans
        (doMicro_raise (by simp [inFlight]))
    simp only [raiseSteps, if_pos hphase, afterRaise]
    refine ⟨?_, fun j hj => ?_⟩
    · rw [fineRun, fineRun_one, hclean, hrespond]
    · obtain rfl | rfl : j = 0 ∨ j = 1 := by omega
      · exact ⟨t, n, rfl, rfl, rfl⟩
      · exact ⟨abortInit t, n + 1, rfl, rfl, hclean⟩
  · simp only [raiseSteps, if_neg hphase, afterRaise]
    refine ⟨hfirst.trans (doMicro_raise hphase), fun j hj => ?_⟩
    obtain rfl : j = 0 := by omega
    exact ⟨t, n, rfl, rfl, rfl⟩

/-- After the last allowed poll, the controller busy, the test writes `STATUS <- Timeout` and leaves the raise. -/
theorem doMicro_pollTest_timeout {s : State} {op : Op} {n : Nat} {k : List Micro} {v : Byte} (hstatus : s.status = .busy)
    (hcount : s.pollcnt = s.cfg.pollBound) :
    doMicro op n k v .pollTest s =
      inFlight (s.setStatus .timeout) op n [.raise (.timeout (statusByte s.nibh (nibbleField s.cfg.layout v)))] v := by
  have hbusy : s.status ≠ .ready := by rw [hstatus]; decide
  simp only [doMicro, if_neg hbusy, if_pos hcount]
  rfl

/-- Settles O58: the step is `doMicro_pollTest_timeout`, and the raise it leaves runs to the response (`fineRun_raise`). -/
theorem fatalRisesWithTheLastPoll : Obligations.FatalRisesWithTheLastPoll := by
  intro s op n k v hseq hrst hdly hstatus hcount
  refine ⟨fatal_eq_false_iff.mpr (by rw [hstatus]; decide), _,
    (step_micro hseq hrst hdly).trans (congrArg _ (doMicro_pollTest_timeout hstatus hcount)), rfl, rfl, rfl, ?_⟩
  refine (fineRun_raise (t := s.setStatus .timeout) hdly hrst).1.trans ?_
  by_cases hphase : s.phase = .running
  · simp [afterRaise, hphase, takeException, State.respond, abortInit, State.setStatus, Cause.code, Cause.data]
  · simp [afterRaise, hphase, takeException, State.respond, State.setStatus, Cause.code, Cause.data]

end Sys2Proof.Machine
end

section
/-! PROOFS. One step of a request against the run of its primitives. -/

namespace Sys2Proof.Machine

/-! ### The first single step -/

theorem exec_admitted {i : Instr} {s : State} (hadmit : admission i.op s = none) :
    exec i s = .next (endState (bodyOf i s)) := by
  cases hbody : bodyOf i s with
  | ok d t => exact exec_of_ok hadmit hbody
  | raised c t => exact exec_of_raised hadmit hbody

section
variable {s : State} {w : Word} {ws : List Word}

theorem fineStep_request {i : Instr} (hrst : s.rst = false) (hseq : s.seq = .idle) (hhost : s.host = w :: ws)
    (hdecode : decode w = .ok i) : fineStep s = launch i (s.take w ws) := by
  simp [fineStep, hrst, hseq, hhost, hdecode]

theorem fineStep_illegal {e : Illegal} (hrst : s.rst = false) (hseq : s.seq = .idle) (hhost : s.host = w :: ws)
    (hdecode : decode w = .error e) : fineStep s = takeException .illegalRequest (s.take w ws) := by
  simp [fineStep, hrst, hseq, hhost, hdecode]

end

theorem launch_refused {i : Instr} {s : State} {c : Cause} (hrefuse : admission i.op s = some c) :
    launch i s = takeException c s := by
  simp [launch, hrefuse]

theorem launch_admitted {i : Instr} {s : State} (hadmit : admission i.op s = none) :
    launch i s = inFlight s i.op 0 (codeOf s.cfg i) 0 := by
  simp [launch, hadmit, inFlight]

/-! ### The run -/

theorem AtRest.pollBound_ne_zero {s : State} (h : AtRest s) : s.cfg.pollBound ≠ 0 := (cfg_wf_iff.mp h.legal).1

/-- From the first single step on, the primitives of a request run to the state the one step answers: a refusal is that
step, and an admitted operation runs as its body says (`run_body`). -/
theorem run_of_step {s t : State} (hrest : AtRest s) (hrst : s.rst = false) (hhost : s.host ≠ []) (hstep : step s = .next t) :
    Run (fineStep s) t := by
  rcases step_idle hrest.idle hstep with ⟨hrst', -⟩ | ⟨-, hnil, -⟩ | ⟨-, w, ws, hw, ⟨i, hdecode, hexec⟩ | ⟨e, hdecode, rfl⟩⟩
  · rw [hrst] at hrst'; cases hrst'
  · exact absurd hnil hhost
  · rw [fineStep_request hrst hrest.idle hw hdecode]
    cases hadmit : admission i.op (s.take w ws) with
    | some c =>
      rw [exec_of_refused hadmit] at hexec
      cases hexec
      rw [launch_refused hadmit]
      exact Run.refl _
    | none =>
      rw [exec_admitted hadmit] at hexec
      cases hexec
      rw [launch_admitted hadmit]
      exact run_body i (s.take w ws) hrest.noDelay hrst hrest.pollBound_ne_zero hrest.notRunning
  · rw [fineStep_illegal hrst hrest.idle hw hdecode]
    exact Run.refl _

/-- Settles O60: the run of `run_of_step` after the single step that takes the request. -/
theorem stepIsARunOfPrimitives : Obligations.StepIsARunOfPrimitives := by
  intro s t hrest hrst hhost hstep
  obtain ⟨n, hn, hbusy⟩ := run_of_step hrest hrst hhost hstep
  refine ⟨n + 1, Nat.succ_pos n, hn, fun m hpos hm => ?_⟩
  obtain ⟨j, rfl⟩ := Nat.exists_eq_add_of_le' hpos
  exact hbusy j (by omega)

/-! ### The rise of `FATAL` -/

theorem refusal_code_ne_two {op : Op} {s : State} {c : Cause} (h : admission op s = some c) : c.code ≠ 2 := by
  rcases admit_causes h with rfl | rfl | rfl
  · decide
  · decide
  · decide

/-- Code 2 is that of an admitted request whose body raised a timeout. -/
theorem raised_of_rspCode_two {i : Instr} {s t : State} (h : exec i s = .next t) (hcode : t.rspCode = 2) :
    admission i.op s = none ∧ ∃ b u, bodyOf i s = .raised (.timeout b) u ∧ t = takeException (.timeout b) u := by
  obtain rfl := exec_next h
  rcases serve_cases i.op (bodyOf i) s with ⟨c, ha, hs⟩ | ⟨-, d, u, -, hs⟩ | ⟨ha, c, u, hb, hs⟩
  · rw [hs] at hcode
    exact absurd hcode (refusal_code_ne_two ha)
  · rw [hs] at hcode
    exact absurd hcode (by simp)
  · rw [hs] at hcode
    obtain ⟨b, rfl⟩ := code_two.mp hcode
    exact ⟨ha, b, u, hb, hs⟩

theorem op_eq_clr_iff {i : Instr} : i.op = .clr ↔ i = .clr := by cases i <;> simp [Instr.op]

theorem op_eq_ini_iff {i : Instr} : i.op = .ini ↔ i = .ini := by cases i <;> simp [Instr.op]

/-- `CLR` never times out, and anything else is admitted only without a latched timeout. -/
theorem status_of_raised_timeout {i : Instr} {s u : State} {b : Byte} (hadmit : admission i.op s = none)
    (hbody : bodyOf i s = .raised (.timeout b) u) : s.status ≠ .timeout ∧ u.status = .timeout := by
  have hop : i.op ≠ .clr := by
    intro hop
    obtain rfl := op_eq_clr_iff.mp hop
    cases hbody
  have hs : s.status ≠ .timeout := by
    intro hs
    rw [admission_of_timeout hop hs] at hadmit
    cases hadmit
  refine ⟨hs, ?_⟩
  have hsaid := timeoutSaid_body i s hs
  rw [hbody] at hsaid
  rcases hsaid with ⟨hno, -⟩ | ⟨-, hu⟩
  · exact absurd ⟨b, rfl⟩ hno
  · exact hu

/-- Settles O59: the request that ends with code 2 is an admitted one whose body raised a timeout, with `STATUS = Timeout`;
its primitives run to a raise in flight in that `STATUS` (`run_finishes`), which lasts to the response (`fineRun_raise`). -/
theorem fatalRisesBeforeTheResponse : Obligations.FatalRisesBeforeTheResponse := by
  intro s t hrest hrst hhost hstep hcode
  rcases step_idle hrest.idle hstep with ⟨hrst', -⟩ | ⟨-, hnil, -⟩ | ⟨-, w, ws, hw, ⟨i, hdecode, hexec⟩ | ⟨e, -, rfl⟩⟩
  · rw [hrst] at hrst'; cases hrst'
  · exact absurd hnil hhost
  · obtain ⟨hadmit, b, u, hbody, rfl⟩ := raised_of_rspCode_two hexec hcode
    obtain ⟨hs, hu⟩ := status_of_raised_timeout hadmit hbody
    have hfin := run_finishes i (s.take w ws) hrest.noDelay hrst hrest.pollBound_ne_zero hrest.notRunning
    rw [hbody, ← launch_admitted hadmit, ← fineStep_request hrst hrest.idle hw hdecode] at hfin
    obtain ⟨r, k, v, hdly, hrst', hvalid, hstatus, hend, m, hm, -⟩ := hfin
    obtain ⟨hlast, hraise⟩ := fineRun_raise (op := i.op) (n := k) (c := .timeout b) (v := v) hdly hrst'
    have hat : ∀ j, fineRun (m + 1 + j) s = fineRun j (inFlight r i.op k [.raise (.timeout b)] v) := by
      intro j
      rw [fineRun_add, fineRun, hm]
    refine ⟨fatal_eq_false_iff.mpr hs, m + 1, m + 1 + raiseSteps r, Nat.succ_pos m,
      Nat.lt_add_of_pos_right (raiseSteps_pos r), ?_, rfl, fatal_eq_true_iff.mpr hu, fun j hle hlt => ?_⟩
    · rw [hat, hlast, hend]
    · obtain ⟨d, rfl⟩ := Nat.exists_eq_add_of_le hle
      obtain ⟨x, l, hx, hxvalid, hrun⟩ := hraise d (by omega)
      rw [hat, hrun]
      exact ⟨fatal_eq_true_iff.mpr (hx.trans (hstatus.trans hu)), hxvalid.trans hvalid, rfl⟩
  · exact absurd hcode (by simp [takeException, Cause.code])

end Sys2Proof.Machine
end

section
/-! PROOFS. `PHASE` and `STATUS` over a step of an idle block: who may write them (10_state.md R49, 60_exceptions.md R202,
R203). -/

namespace Sys2Proof.Machine

/-! ### `PHASE` -/

/-- No operation but `INI` writes `PHASE`. -/
theorem exec_phase {i : Instr} {s t : State} (hi : i.op ≠ .ini) (h : exec i s = .next t) : t.phase = s.phase := by
  obtain ⟨code, data, rfl | rfl⟩ := exec_final h
  · rfl
  · exact bodyOf_phase hi s

/-- An `INI` that raises leaves `PHASE` alone, where there is no device, or `Aborted` (43_init_sequencer.md R162, R168). -/
theorem iniBody_raised_phase {s t : State} {c : Cause} (h : iniBody s = .raised c t) :
    t.phase = s.phase ∨ t.phase = .aborted := by
  cases hprobe : (s.bus.at 0).ok with
  | false => rw [iniBody_absent hprobe] at h; cases h; exact .inl rfl
  | true =>
    rw [iniBody_present hprobe] at h
    cases hseq : iniSequence s.probed with
    | ok a u => rw [hseq] at h; cases h
    | raised c' u => rw [hseq] at h; cases h; exact .inr rfl

theorem exec_ini_becomes_operational {s t : State} (h : exec .ini s = .next t) (hs : s.phase ≠ .operational)
    (ht : t.phase = .operational) : t.rspCode = 0 := by
  obtain rfl := exec_next h
  rcases serve_cases Instr.ini.op (bodyOf .ini) s with ⟨c, -, hserve⟩ | ⟨-, d, u, -, hserve⟩ | ⟨-, c, u, hbody, hserve⟩
  · rw [hserve] at ht
    exact absurd ht hs
  · rw [hserve]
    rfl
  · rw [hserve] at ht
    rcases iniBody_raised_phase (andThen_ok_eq_raised hbody) with hu | hu
    · exact absurd (hu.symm.trans ht) hs
    · exact absurd (hu.symm.trans ht) (by decide)

/-- Settles O48: a reset leaves `Uninit`, and a wait, an illegal word and every operation but `INI` leave `PHASE` alone; an
`INI` that leaves `Operational` responds `OK`. -/
theorem operationalOnlyByOkIni : Obligations.OperationalOnlyByOkIni := by
  intro s t hseq hs hstep ht
  rcases step_idle hseq hstep with ⟨-, rfl⟩ | ⟨-, -, rfl⟩ | ⟨hrst, w, ws, hw, ⟨i, hdecode, hexec⟩ | ⟨e, -, rfl⟩⟩
  · cases ht
  · exact absurd ht hs
  · by_cases hi : i.op = .ini
    · obtain rfl := op_eq_ini_iff.mp hi
      exact ⟨hrst, by rw [hw, encode_of_decode hdecode]; rfl, exec_ini_becomes_operational hexec hs ht⟩
    · exact absurd ((exec_phase hi hexec).symm.trans ht) hs
  · exact absurd ht hs

/-- `INI` is refused where `PHASE` is `Operational`, by a latched timeout or by code 6. -/
theorem exec_keeps_operational {i : Instr} {s t : State} (hs : s.phase = .operational) (h : exec i s = .next t) :
    t.phase = .operational := by
  by_cases hi : i.op = .ini
  · cases hadmit : admission i.op s with
    | some c => rw [exec_of_refused hadmit] at h; cases h; exact hs
    | none => rw [hi, admission_ini_eq_none_iff] at hadmit; exact absurd hs hadmit.1
  · exact (exec_phase hi h).trans hs

/-- Settles O49: a reset is the only step that leaves `Operational` (`exec_keeps_operational`). -/
theorem operationalUntilReset : Obligations.OperationalUntilReset := by
  intro s t hseq hs hstep
  rcases step_idle hseq hstep with ⟨hrst, rfl⟩ | ⟨-, -, rfl⟩ | ⟨-, w, ws, -, ⟨i, -, hexec⟩ | ⟨e, -, rfl⟩⟩
  · exact .inr ⟨hrst, rfl⟩
  · exact .inl hs
  · exact .inl (exec_keeps_operational (s := s.take w ws) hs hexec)
  · exact .inl hs

/-! ### `STATUS` -/

/-- Settles O47: a wait, an illegal word and a refusal leave `STATUS` alone, and with a timeout latched every operation but
`CLR` is refused. -/
theorem timeoutClearedOnlyByClrOrRst : Obligations.TimeoutClearedOnlyByClrOrRst := by
  intro s t hs hseq hstep ht
  rcases step_idle hseq hstep with ⟨hrst, -⟩ | ⟨-, -, rfl⟩ | ⟨-, w, ws, hw, ⟨i, hdecode, hexec⟩ | ⟨e, -, rfl⟩⟩
  · exact .inl hrst
  · exact absurd hs ht
  · by_cases hop : i.op = .clr
    · obtain rfl := op_eq_clr_iff.mp hop
      obtain ⟨u, hu, -, rfl⟩ := clrCompletes.2 (s.take w ws)
      rw [hu] at hexec
      cases hexec
      exact .inr ⟨by rw [hw, encode_of_decode hdecode]; rfl, if_pos hs⟩
    · rw [exec_of_refused (admission_of_timeout hop (s := s.take w ws) hs)] at hexec
      cases hexec
      exact absurd hs ht
  · exact absurd hs ht

/-- Only `INI` and a busy-checked send can raise a timeout. -/
theorem instr_of_raised_timeout {i : Instr} {s u : State} {b : Byte} (h : bodyOf i s = .raised (.timeout b) u) :
    i = .ini ∨ ∃ d rs, i = .snd d rs true := by
  cases i with
  | wrn n rs rw => cases wrnBody_causes (andThen_ok_eq_raised h)
  | rdn rs rw => cases rdnBody_causes (andThen_ok_eq_raised h)
  | rds => cases rdsBody_causes h
  | snd d rs cb =>
    cases cb with
    | true => exact .inr ⟨d, rs, rfl⟩
    | false =>
      have h' := andThen_ok_eq_raised h
      rcases s.bus.okFor_or_first_failure 6 with hok | ⟨k, hk, hok, hf⟩
      · rw [sndBody_unchecked hok] at h'; cases h'
      · obtain ⟨v, hv, -⟩ := sndBody_transmit_failed (d := d) (rs := rs) (cb := false) hk hok hf
        rw [hv] at h'; cases h'
  | ini => exact .inl rfl
  | clr => cases h

theorem status_timeout_iff_rspCode_two {i : Instr} {s t : State} (hs : s.status ≠ .timeout) (h : exec i s = .next t) :
    t.status = .timeout ↔ t.rspCode = 2 := by
  obtain rfl := exec_next h
  have hsaid := timeoutSaid_body i s hs
  rcases serve_cases i.op (bodyOf i) s with ⟨c, ha, hserve⟩ | ⟨-, d, u, hbody, hserve⟩ | ⟨-, c, u, hbody, hserve⟩
  · rw [hserve]
    exact iff_of_false hs (refusal_code_ne_two ha)
  · rw [hbody] at hsaid
    rw [hserve]
    exact iff_of_false hsaid (by simp)
  · rw [hbody] at hsaid
    rw [hserve]
    rcases hsaid with ⟨hno, hu⟩ | ⟨hc, hu⟩
    · exact iff_of_false hu fun hcode => hno (code_two.mp hcode)
    · exact iff_of_true hu (code_two.mpr hc)

/-- Settles O46: a body leaves `Timeout` exactly where it raises a timeout (`timeoutSaid_body`), whose code is 2, and only
two operations can raise one. -/
theorem timeoutOnlyWithCodeTwo : Obligations.TimeoutOnlyWithCodeTwo := by
  intro s t i hs hexec
  refine ⟨status_timeout_iff_rspCode_two hs hexec, fatal_eq_true_iff, fun hcode => ?_⟩
  obtain ⟨-, b, u, hbody, -⟩ := raised_of_rspCode_two hexec hcode
  exact instr_of_raised_timeout hbody

end Sys2Proof.Machine
end

section
/-! PROOFS. The invariant of a block at rest: it holds after reset, and every step keeps it. -/

namespace Sys2Proof.Machine

/-- Settles O52: the trace is empty, `PHASE` is `Uninit` and `STATUS` is `Busy`. -/
theorem resetAtRest : Obligations.ResetAtRest where
  idle := rfl
  noDelay := rfl
  notRunning := by decide
  onlyProbes := fun _ e he => absurd he (List.not_mem_nil)
  uninitBusy := fun _ => rfl
  operRead := fun h => by cases h
  timeoutRead := fun h => by cases h
  legal := by decide

theorem applyReset_atRest {s : State} (h : AtRest s) : AtRest s.applyReset :=
  { resetAtRest with legal := h.legal }

theorem take_atRest {s : State} (h : AtRest s) (w : Word) (ws : List Word) : AtRest (s.take w ws) :=
  ⟨h.idle, h.noDelay, h.notRunning, h.onlyProbes, h.uninitBusy, h.operRead, h.timeoutRead, h.legal⟩

/-- The invariant does not speak of the response. -/
theorem respond_atRest {s : State} (h : AtRest s) (code : BitVec 3) (data : Byte) : AtRest (s.respond code data) :=
  ⟨rfl, h.noDelay, h.notRunning, h.onlyProbes, h.uninitBusy, h.operRead, h.timeoutRead, h.legal⟩

theorem takeException_atRest {s : State} (h : AtRest s) (c : Cause) : AtRest (takeException c s) :=
  respond_atRest h c.code c.data

/-- Behind the initialisation, where a status read has completed, only the clauses about `SEQ`, `DLY`, `PHASE` and the
configuration are left. -/
theorem atRest_of_read {t : State} (hidle : t.seq = .idle) (hdly : t.dly = 0) (hread : t.acRead = true)
    (hphase : t.phase = .operational ∨ t.phase = .aborted) (hcfg : t.cfg.wf = true) : AtRest t where
  idle := hidle
  noDelay := hdly
  notRunning := by rcases hphase with h | h <;> simp [h]
  onlyProbes := by rcases hphase with h | h <;> simp [h]
  uninitBusy := by rcases hphase with h | h <;> simp [h]
  operRead := fun _ => hread
  timeoutRead := fun _ => hread
  legal := hcfg

/-- What every request leaves: an idle block, no delay, the configuration. -/
theorem exec_leaves {i : Instr} {s t : State} (hs : AtRest s) (h : exec i s = .next t) :
    t.seq = .idle ∧ t.dly = 0 ∧ t.cfg.wf = true ∧ (s.acRead = true → t.acRead = true) := by
  obtain ⟨-, hidle⟩ := exec_responds h
  obtain ⟨hdly, hread⟩ := exec_keep h
  obtain ⟨es, htraffic, -⟩ := exec_traffic h
  exact ⟨hidle, hdly hs.noDelay, htraffic.cfg ▸ hs.legal, hread⟩

theorem clr_keeps_rest {s t : State} (hs : AtRest s) (h : exec .clr s = .next t) : AtRest t := by
  obtain ⟨u, hu, -, rfl⟩ := clrCompletes.2 s
  rw [hu] at h
  cases h
  refine ⟨rfl, hs.noDelay, hs.notRunning, hs.onlyProbes, fun hphase => ?_, hs.operRead, fun hstatus => ?_, hs.legal⟩
  · have hbusy := hs.uninitBusy hphase
    simp [hbusy]
  · by_cases hlatched : s.status = .timeout
    · exact hs.timeoutRead hlatched
    · simp [hlatched] at hstatus

theorem ini_keeps_rest {s t : State} (hs : AtRest s) (hadmit : admission .ini s = none) (h : exec .ini s = .next t) :
    AtRest t := by
  obtain ⟨hphase, hstatus⟩ := admission_ini_eq_none_iff.mp hadmit
  obtain ⟨hidle, hdly, hcfg, hread⟩ := exec_leaves hs h
  rcases iniBody_cases hs.pollBound_ne_zero with ⟨hprobe, -⟩ | ⟨ks, -, -, -, hbody⟩ | ⟨b, u, hbody, -, -, -, hacRead, hu⟩ |
    ⟨u, hbody, hust, hu⟩
  · rw [exec_of_raised (i := .ini) hadmit (bodyOf_ini_absent hprobe)] at h
    cases h
    refine takeException_atRest ?_ _
    refine ⟨hs.idle, hs.noDelay, hs.notRunning, fun hun e he => ?_, hs.uninitBusy, hs.operRead, hs.timeoutRead, hs.legal⟩
    rcases List.mem_append.mp he with he | he
    · exact hs.onlyProbes hun e he
    · rw [List.mem_singleton.mp he]; rfl
  · rw [exec_of_ok (i := .ini) hadmit (d := 0) (t := s.initialised ks) (by simp [bodyOf, hbody])] at h
    cases h
    exact atRest_of_read hidle hdly rfl (.inl rfl) hcfg
  · rw [exec_of_raised (i := .ini) hadmit (c := .timeout b) (t := u) (by simp [bodyOf, hbody])] at h
    cases h
    exact atRest_of_read hidle hdly hacRead (.inr hu) hcfg
  · rw [exec_of_raised (i := .ini) hadmit (c := .transportFailure) (t := u) (by simp [bodyOf, hbody])] at h
    cases h
    have hnot : u.status ≠ .timeout := by
      rcases hust with h | h
      · rw [h]; exact hstatus
      · rw [h]; decide
    have hu' : (takeException .transportFailure u).phase = .aborted := hu
    exact ⟨hidle, hdly, by simp [hu'], by simp [hu'], by simp [hu'], by simp [hu'], fun ht => absurd ht hnot, hcfg⟩

/-- `CLR` writes only `STATUS`, `INI` ends in its four ways, and every other operation runs in an operational block, where a
status read has completed. -/
theorem exec_keeps_rest {i : Instr} {s t : State} (hs : AtRest s) (h : exec i s = .next t) : AtRest t := by
  cases hadmit : admission i.op s with
  | some c =>
    rw [exec_of_refused hadmit] at h
    cases h
    exact takeException_atRest hs c
  | none =>
    by_cases hclr : i.op = .clr
    · obtain rfl := op_eq_clr_iff.mp hclr
      exact clr_keeps_rest hs h
    by_cases hini : i.op = .ini
    · obtain rfl := op_eq_ini_iff.mp hini
      exact ini_keeps_rest hs hadmit h
    · have hphase : s.phase = .operational := by
        by_contra hphase
        have hstatus : s.status ≠ .timeout := fun hst => by rw [admission_of_timeout hclr hst] at hadmit; cases hadmit
        rw [admission_of_ne_ini hclr hini hstatus, if_neg hphase] at hadmit
        cases hadmit
      obtain ⟨hidle, hdly, hcfg, hread⟩ := exec_leaves hs h
      exact atRest_of_read hidle hdly (hread (hs.operRead hphase)) (.inl (exec_keeps_operational hphase h)) hcfg

/-- Settles O51: a step of a block at rest is a reset, a wait, a refused word or an operation, and each keeps the
invariant. -/
theorem stepKeepsRest : Obligations.StepKeepsRest := by
  intro s t hs hstep
  rcases step_idle hs.idle hstep with ⟨-, rfl⟩ | ⟨-, -, rfl⟩ | ⟨-, w, ws, -, ⟨i, -, hexec⟩ | ⟨e, -, rfl⟩⟩
  · exact applyReset_atRest hs
  · exact hs
  · exact exec_keeps_rest (take_atRest hs w ws) hexec
  · exact takeException_atRest (take_atRest hs w ws) _

end Sys2Proof.Machine
end

section
/-! PROOFS. Operations that complete: each is admitted, its body ends without a raise in the state its law gives, and the
response `OK` is written to that state. -/

namespace Sys2Proof.Machine

theorem andThen_of_ok {α β : Type} {r : Result α} {k : α → State → Result β} {a : α} {t : State} (h : r = .ok a t) :
    r.andThen k = k a t := by rw [h, andThen_ok]

theorem andThen_of_raised {α β : Type} {r : Result α} {k : α → State → Result β} {c : Cause} {t : State}
    (h : r = .raised c t) : r.andThen k = .raised c t := by rw [h, andThen_raised]

theorem admit_operational {i : Instr} {s : State} (hphase : s.phase = .operational) (hstatus : s.status ≠ .timeout)
    (hi : i ≠ .ini) : admission i.op s = none := admit_op hphase hstatus (mt op_eq_ini_iff.mp hi)

/-- Settles O16: the write cycle with its three writes let through is `wrnBody_ok`. -/
theorem wrnCompletes : Obligations.WrnCompletes := by
  intro s n rs rw hphase hstatus hok
  rw [exec_of_ok (i := .wrn n rs rw) (admit_operational hphase hstatus nofun) (andThen_of_ok (wrnBody_ok hok))]
  simp [State.respond, State.ran, wrnEvents, lineByte]

/-- Settles O17: the read cycle with its four bus operations let through is `rdnBody_ok`. -/
theorem rdnCompletes : Obligations.RdnCompletes := by
  intro s rs rw hphase hstatus hok
  rw [exec_of_ok (i := .rdn rs rw) (admit_operational hphase hstatus nofun) (andThen_of_ok (rdnBody_ok hok))]
  simp [State.respond, State.ran, rdnEvents, lineByte, nibbleData]

/-- Settles O18: the status read with its eight bus operations let through is `rdsBody_ok`, and its busy flag is bit 3 of the
first nibble. -/
theorem rdsCompletes : Obligations.RdsCompletes := by
  intro s hphase hstatus hok
  rw [exec_of_ok (i := .rds) (admit_operational hphase hstatus nofun) (rdsBody_ok hok)]
  simp only [State.respond, State.ran, State.polled, statusRead, statusReadEvents, rdsEvents, statusOf, addressOf,
    busyFlag_statusByte, hiNibble_statusByte, List.append_assoc]
  rfl

/-- Settles O19: the send without busy check, its six writes let through, is `sndBody_unchecked`. -/
theorem sndUncheckedCompletes : Obligations.SndUncheckedCompletes := by
  intro s d rs hphase hstatus hok
  rw [exec_of_ok (i := .snd d rs false) (admit_operational hphase hstatus nofun) (andThen_of_ok (sndBody_unchecked hok))]
  simp [State.respond, State.ran, State.setStatus, transmitEvents, hiNibble, loNibble]

/-- Settles O20: the send that is ready at poll `k` is `sndBody_ready`. -/
theorem sndCheckedCompletes : Obligations.SndCheckedCompletes := by
  intro s d rs k hphase hstatus hready
  rw [exec_of_ok (i := .snd d rs true) (admit_operational hphase hstatus nofun) (andThen_of_ok (sndBody_ready hready))]
  obtain ⟨-, -, -, hlast⟩ := hready
  simp [State.respond, State.sent, State.polled, State.ran, sendEvents, statusOf_of_ready hlast]

/-- Settles O21: the send that finds every allowed poll busy is `sndBody_busy`. -/
theorem sndTimesOut : Obligations.SndTimesOut := by
  intro s d rs hphase hstatus hwf hbusy
  obtain ⟨hbound, -, -⟩ := cfg_wf_iff.mp hwf
  refine ⟨_, exec_of_raised (i := .snd d rs true) (admit_operational hphase hstatus nofun)
    (andThen_of_raised (sndBody_busy hbusy hbound)), rfl, ?_⟩
  simp [takeException, State.respond, State.timedOut, State.polled, State.ran, Cause.code, Cause.data]

/-- Settles O23: the initialisation whose five sends are ready is `iniBody_ready`, and its last poll read ready. -/
theorem iniCompletes : Obligations.IniCompletes := by
  intro s ks hphase hstatus hlength hok hready
  have hne : ks ≠ [] := by rintro rfl; simp at hlength
  rw [exec_of_ok (i := .ini) (admission_ini_eq_none_iff.mpr ⟨hphase, hstatus⟩)
    (andThen_of_ok (iniBody_ready hlength hok hready))]
  simp [State.respond, State.initialised, statusOf_of_ready (lastPollByte_ready hne hready)]

end Sys2Proof.Machine
end

section
/-! PROOFS. Operations that fail, and every way a send and an initialisation can end. -/

namespace Sys2Proof.Machine

/-! ### A failed transfer -/

/-- Settles O25: the cycle ends at its failing write (`wrnBody_failed`); with `DLY = 0` before, nothing but the response, the
transport and the trace differs. -/
theorem wrnStopsAtFailure : Obligations.WrnStopsAtFailure := by
  intro s n rs rw k hphase hstatus hdly hok hfail
  rw [exec_of_raised (i := .wrn n rs rw) (admit_operational hphase hstatus nofun)
    (andThen_of_raised (wrnBody_failed k.isLt hok hfail))]
  simp [takeException, State.respond, State.stopped, wrnFailure, Cause.code, Cause.data, hdly]

/-- Settles O26: the cycle ends at its failing bus operation (`rdnBody_failed`). -/
theorem rdnStopsAtFailure : Obligations.RdnStopsAtFailure := by
  intro s rs rw k hphase hstatus hdly hok hfail
  rw [exec_of_raised (i := .rdn rs rw) (admit_operational hphase hstatus nofun)
    (andThen_of_raised (rdnBody_failed k.isLt hok hfail))]
  simp [takeException, State.respond, State.stopped, rdnFailure, Cause.code, Cause.data, hdly]

/-- Settles O29: the failed poll ends the send (`sndBody_poll_failed`), also the last allowed one, before its test. -/
theorem sndPollFailure : Obligations.SndPollFailure := by
  intro s d rs k j hphase hstatus hk hj hok hfail hbusy
  rw [Nat.add_assoc 6 (8 * k) j] at hok hfail ⊢
  obtain ⟨t, hbody, hst, -, hbus⟩ := sndBody_poll_failed (d := d) (rs := rs) hk hj hok hfail hbusy
  refine ⟨takeException .transportFailure t, exec_of_raised (i := .snd d rs true) (admit_operational hphase hstatus nofun)
    (andThen_of_raised hbody), rfl, rfl, hst, ?_, hbus⟩
  exact fatal_eq_false_iff.mpr (by simp [takeException, hst])

/-! ### How a send and an initialisation end -/

/-- Settles O28: an unchecked send is let through or a write of it fails; a busy-checked one ends in the three ways of
`sndBody_cases`, and a timeout's byte was read busy. -/
theorem sndOutcomes : Obligations.SndOutcomes := by
  intro s t d rs cb hphase hstatus hwf hexec
  obtain ⟨hbound, -, -⟩ := cfg_wf_iff.mp hwf
  have hadmit : admission (Instr.snd d rs cb).op s = none := admit_operational hphase hstatus nofun
  refine ⟨exec_keeps_operational hphase hexec, ?_⟩
  cases cb with
  | false =>
    rcases s.bus.okFor_or_first_failure 6 with hok | ⟨k, hk, hok, hfail⟩
    · rw [exec_of_ok hadmit (andThen_of_ok (sndBody_unchecked hok))] at hexec
      cases hexec
      exact .inl ⟨rfl, rfl, rfl⟩
    · obtain ⟨u, hbody, hbusy, -, -⟩ := sndBody_transmit_failed (d := d) (rs := rs) (cb := false) hk hok hfail
      rw [exec_of_raised hadmit (andThen_of_raised hbody)] at hexec
      cases hexec
      exact .inr (.inr ⟨rfl, rfl, hbusy⟩)
  | true =>
    rcases sndBody_cases d rs hbound with ⟨k, hready, hbody⟩ | ⟨hbusy, hbody⟩ | ⟨u, hbody, hbusy, -⟩
    · rw [exec_of_ok hadmit (andThen_of_ok hbody)] at hexec
      cases hexec
      obtain ⟨-, -, -, hlast⟩ := hready
      exact .inl ⟨rfl, rfl, statusOf_of_ready hlast⟩
    · rw [exec_of_raised hadmit (andThen_of_raised hbody)] at hexec
      cases hexec
      have hlast : s.cfg.pollBound.toNat ≠ 0 := fun h => hbound (BitVec.eq_of_toNat_eq h)
      exact .inr (.inl ⟨rfl, rfl, rfl, hbusy.2 _ (by omega), rfl⟩)
    · rw [exec_of_raised hadmit (andThen_of_raised hbody)] at hexec
      cases hexec
      exact .inr (.inr ⟨rfl, rfl, hbusy⟩)

/-- Settles O30: the four ways of `iniBody_cases`. -/
theorem iniOutcomes : Obligations.IniOutcomes := by
  intro s t hphase hstatus hwf hexec
  obtain ⟨hbound, -, -⟩ := cfg_wf_iff.mp hwf
  have hadmit : admission Instr.ini.op s = none := admission_ini_eq_none_iff.mpr ⟨hphase, hstatus⟩
  rcases iniBody_cases hbound with ⟨-, hbody⟩ | ⟨ks, hlength, -, hready, hbody⟩ | ⟨b, u, hbody, hbusy, hst, hac, -, hu⟩ |
    ⟨u, hbody, hst, hu⟩
  · rw [exec_of_raised hadmit (andThen_of_raised hbody)] at hexec
    cases hexec
    exact .inr (.inl ⟨rfl, rfl, rfl, rfl, rfl⟩)
  · rw [exec_of_ok hadmit (andThen_of_ok hbody)] at hexec
    cases hexec
    have hne : ks ≠ [] := by rintro rfl; simp at hlength
    exact .inl ⟨rfl, rfl, rfl, statusOf_of_ready (lastPollByte_ready hne hready)⟩
  · rw [exec_of_raised hadmit (andThen_of_raised hbody)] at hexec
    cases hexec
    exact .inr (.inr (.inl ⟨rfl, hbusy, hu, hst, hac⟩))
  · rw [exec_of_raised hadmit (andThen_of_raised hbody)] at hexec
    cases hexec
    exact .inr (.inr (.inr ⟨rfl, rfl, hu, hst⟩))

end Sys2Proof.Machine
end

section
/-! PROOFS. Frames (10_state.md R48): what an operation leaves alone, whatever becomes of it. -/

namespace Sys2Proof.Machine

/-! ### What every operation keeps -/

theorem exec_keeps_inputs {i : Instr} {s t : State} (h : exec i s = .next t) :
    t.req = s.req ∧ t.cfg = s.cfg ∧ t.host = s.host ∧ t.rst = s.rst := by
  obtain ⟨es, htraffic, -⟩ := exec_traffic h
  exact ⟨htraffic.req, htraffic.cfg, htraffic.host, htraffic.rst⟩

/-- Settles O37: the traffic of every operation keeps `REQ`, the configuration and the host's list, and extends the
trace. -/
theorem iniFrameAndTraceGrows : Obligations.IniFrameAndTraceGrows := by
  refine ⟨fun s t h => exec_keeps_inputs h, fun s t i h => ?_⟩
  obtain ⟨es, htraffic, -⟩ := exec_traffic h
  exact ⟨es, htraffic.trace⟩

/-- Settles O38: in the traffic of an operation nothing failed and the code is not 3, or the code is 3 and the last event, and
no other, is a failed transfer (`exec_traffic`). -/
theorem failureEndsTheOperation : Obligations.FailureEndsTheOperation := by
  intro s t i h
  obtain ⟨es, htraffic, ⟨hcode, hnone⟩ | ⟨hcode, pre, e, rfl, hpre, he⟩⟩ := exec_traffic h
  · refine ⟨es, htraffic.trace, fun e he => hnone e (List.mem_of_mem_dropLast he), iff_of_false hcode ?_⟩
    rintro ⟨e, he, hfailed⟩
    rw [hnone e he] at hfailed
    cases hfailed
  · refine ⟨pre ++ [e], htraffic.trace, ?_, iff_of_true hcode ⟨e, by simp, he⟩⟩
    rw [List.dropLast_concat]
    exact hpre

/-! ### Bodies that only drive the bus -/

/-- `t` differs from `s` in the transport, `DLY` and the trace at most. -/
def OnlyBus (s t : State) : Prop := t = { s with bus := t.bus, dly := t.dly, trace := t.trace }

theorem OnlyBus.trans {s t u : State} (h : OnlyBus s t) (h' : OnlyBus t u) : OnlyBus s u := by
  unfold OnlyBus at h h' ⊢
  rw [h', h]

theorem onlyBus_andThen {α β : Type} {s : State} {r : Result α} {k : α → State → Result β} (h : OnlyBus s r.final)
    (hk : ∀ a t, OnlyBus t (k a t).final) : OnlyBus s (r.andThen k).final := by
  cases r with
  | ok a t => exact h.trans (hk a t)
  | raised c t => exact h

theorem busWrite_onlyBus (b : Byte) (s : State) : OnlyBus s (busWrite b s).final := by
  unfold busWrite
  split
  · rfl
  · rfl

theorem busRead_onlyBus (s : State) : OnlyBus s (busRead s).final := by
  unfold busRead
  split
  · rfl
  · rfl

theorem wrnBody_onlyBus (n : Nibble) (rs rw : Bool) (s : State) : OnlyBus s (wrnBody n rs rw s).final :=
  onlyBus_andThen (busWrite_onlyBus _ _) fun _ _ => onlyBus_andThen (busWrite_onlyBus _ _) fun _ _ => busWrite_onlyBus _ _

theorem rdnBody_onlyBus (rs rw : Bool) (s : State) : OnlyBus s (rdnBody rs rw s).final :=
  onlyBus_andThen (busWrite_onlyBus _ _) fun _ _ => onlyBus_andThen (busWrite_onlyBus _ _) fun _ _ =>
    onlyBus_andThen (busRead_onlyBus _) fun _ _ => onlyBus_andThen (busWrite_onlyBus _ _) fun _ _ => rfl

theorem nibbleCycle_onlyBus {i : Instr} (hi : i.op = .wrn ∨ i.op = .rdn) (s : State) : OnlyBus s (bodyOf i s).final := by
  cases i with
  | wrn n rs rw => exact onlyBus_andThen (wrnBody_onlyBus n rs rw s) fun _ _ => rfl
  | rdn rs rw => exact onlyBus_andThen (rdnBody_onlyBus rs rw s) fun _ _ => rfl
  | rds | snd | ini | clr => simp [Instr.op] at hi

/-- Settles O34: the bodies of `WRN` and `RDN` only drive the bus, and a refusal and a response do not even that. -/
theorem nibbleCyclesFrame : Obligations.NibbleCyclesFrame := by
  intro s t i hi h
  obtain ⟨code, data, rfl | rfl⟩ := exec_final h
  · exact ⟨rfl, rfl, rfl, rfl, rfl, rfl, rfl, rfl, rfl, rfl⟩
  · rw [nibbleCycle_onlyBus hi s]
    exact ⟨rfl, rfl, rfl, rfl, rfl, rfl, rfl, rfl, rfl, rfl⟩

/-! ### The status read and the send -/

theorem rdsBody_pollcnt (s : State) : (rdsBody s).final.pollcnt = s.pollcnt := by
  rcases s.bus.okFor_or_first_failure 8 with hok | ⟨k, hk, hok, hfail⟩
  · rw [rdsBody_ok hok]; rfl
  · obtain ⟨t, hbody, -, -, -, -, -, hcount⟩ := rdsBody_failed hk hok hfail
    rw [hbody]; exact hcount

/-- Settles O35: no operation but `INI` writes `PHASE`, and the status read does not count a poll. -/
theorem rdsFrame : Obligations.RdsFrame := by
  intro s t h
  refine ⟨exec_phase (by decide) h, ?_, exec_keeps_inputs h⟩
  obtain ⟨code, data, rfl | rfl⟩ := exec_final h
  · rfl
  · exact rdsBody_pollcnt s

/-- The two write cycles of a send write `STATUS <- Busy` and otherwise only drive the bus. -/
theorem transmit_onlyBus (d : Byte) (rs : Bool) (s : State) : OnlyBus (s.setStatus .busy) (transmit d rs s).final :=
  onlyBus_andThen (wrnBody_onlyBus _ _ _ _) fun _ _ => wrnBody_onlyBus _ _ _ _

/-- Without busy check a send writes of the registers only `STATUS`. -/
theorem sndBody_unchecked_onlyBus (d : Byte) (rs : Bool) (s : State) :
    ∃ x, OnlyBus (s.setStatus x) (sndBody d rs false s).final := by
  have h := transmit_onlyBus d rs s
  unfold sndBody
  cases htransmit : transmit d rs s with
  | raised c t => rw [htransmit] at h; exact ⟨.busy, h⟩
  | ok a t =>
    rw [htransmit] at h
    refine ⟨.ready, ?_⟩
    change t = _ at h
    rw [h]
    rfl

/-- Settles O36: no operation but `INI` writes `PHASE`, and an unchecked send writes of the registers only `STATUS`. -/
theorem sndFrame : Obligations.SndFrame := by
  intro s t d rs cb h
  obtain ⟨hreq, hcfg, hhost, hrst⟩ := exec_keeps_inputs h
  refine ⟨exec_phase (fun hop => by cases hop) h, hreq, hcfg, hhost, hrst, ?_⟩
  rintro rfl
  obtain ⟨code, data, rfl | rfl⟩ := exec_final h
  · exact ⟨rfl, rfl, rfl, rfl⟩
  · obtain ⟨x, hbody⟩ := sndBody_unchecked_onlyBus d rs s
    have hfinal : OnlyBus (s.setStatus x) (bodyOf (.snd d rs false) s).final := onlyBus_andThen hbody fun _ _ => rfl
    rw [hfinal]
    exact ⟨rfl, rfl, rfl, rfl⟩

end Sys2Proof.Machine
end

section
/-! PROOFS. The enable line (40_nibble_transactor.md R114, 20_memory.md R64): low after an operation that ended `OK`, and its
pulses. -/

namespace Sys2Proof.Machine

/-- Every line the block drives has the enable line as the cycle sets it. -/
theorem enHigh_lineByte {c : Config} (hL : c.layout.wf = true) (n : Nibble) (rs rw en : Bool) :
    enHigh c (lineByte c n rs rw en) = en :=
  (getLsbD_enc_flags hL n rs rw en c.bl).2.2

/-! ### Low at the end -/

/-- The enable line is low on the pins, or they are unknown. -/
def EnableLow (c : Config) (p : Option Byte) : Prop := ∀ b, p = some b → enHigh c b = false

theorem enableLow_none (c : Config) : EnableLow c none := fun b h => by cases h

theorem enableLow_line {c : Config} (hL : c.layout.wf = true) (n : Nibble) (rs rw : Bool) :
    EnableLow c (some (lineByte c n rs rw false)) := by
  rintro b ⟨⟩
  exact enHigh_lineByte hL n rs rw false

/-- The events leave the enable line low if they find it so. -/
def KeepsLow (c : Config) (es : List Event) : Prop := ∀ p, EnableLow c p → EnableLow c (pinsAfter p es)

theorem keepsLow_nil (c : Config) : KeepsLow c [] := fun _ h => h

theorem KeepsLow.append {c : Config} {es fs : List Event} (h : KeepsLow c es) (h' : KeepsLow c fs) :
    KeepsLow c (es ++ fs) := fun p hp => by
  rw [pinsAfter_append]
  exact h' _ (h p hp)

theorem keepsLow_delay (c : Config) (n : BitVec 6) : KeepsLow c (delayEvents n) := fun p hp => by
  rwa [pinsAfter_delay]

section
variable {c : Config} (hL : c.layout.wf = true)
include hL

theorem keepsLow_wrn (n : Nibble) (rs rw : Bool) : KeepsLow c (wrnEvents c n rs rw) := fun p _ => by
  rw [pins_wrn]
  exact enableLow_line hL n rs rw

theorem keepsLow_rdn (rs rw : Bool) (v : Byte) : KeepsLow c (rdnEvents c rs rw v) := fun p _ => by
  rw [pins_rdn]
  exact enableLow_line hL c.rdNib rs rw

theorem keepsLow_rds (v w : Byte) : KeepsLow c (rdsEvents c v w) :=
  (keepsLow_rdn hL false true v).append (keepsLow_rdn hL false true w)

theorem keepsLow_transmit (d : Byte) (rs : Bool) : KeepsLow c (transmitEvents c d rs) :=
  (keepsLow_wrn hL (hiNibble d) rs false).append (keepsLow_wrn hL (loNibble d) rs false)

theorem keepsLow_polls (b : Transport) (k : Nat) : KeepsLow c (pollEvents c b k) := by
  induction k with
  | zero => exact keepsLow_nil c
  | succ k ih =>
    refine (ih.append ?_).append (keepsLow_rds hL _ _)
    split
    · exact keepsLow_nil c
    · exact keepsLow_delay c c.tPollGap

theorem keepsLow_send (d : Byte) (rs : Bool) (b : Transport) (k : Nat) : KeepsLow c (sendEvents c d rs b k) :=
  (keepsLow_transmit hL d rs).append (keepsLow_polls hL (b.after 6) (k + 1))

theorem keepsLow_sends (ds : List Byte) (ks : List Nat) (b : Transport) : KeepsLow c (sendsEvents c ds ks b) := by
  induction ds generalizing ks b with
  | nil => exact keepsLow_nil c
  | cons d ds ih =>
    cases ks with
    | nil => exact keepsLow_nil c
    | cons k ks => exact (keepsLow_send hL d false b k).append (ih ks (b.after (sendOps k)))

theorem keepsLow_init (ks : List Nat) (b : Transport) : KeepsLow c (initEvents c ks b) := by
  have hpulse := keepsLow_wrn hL c.nibReset false false
  have hprobe : KeepsLow c [Event.P true] := fun _ hp => hp
  exact ((((((((hprobe.append (keepsLow_delay c _)).append hpulse).append (keepsLow_delay c _)).append hpulse).append
    (keepsLow_delay c _)).append hpulse).append (keepsLow_delay c _)).append (keepsLow_wrn hL _ false false)).append
    (keepsLow_sends hL _ _ _)

end

theorem okEvents_keepsLow {s t : State} {es : List Event} {i : Instr} (hL : s.cfg.layout.wf = true)
    (h : OkEvents s t es i) : KeepsLow s.cfg es := by
  cases i with
  | wrn n rs rw => obtain rfl := h; exact keepsLow_wrn hL n rs rw
  | rdn rs rw => obtain ⟨v, rfl⟩ := h; exact keepsLow_rdn hL rs rw v
  | rds => obtain ⟨v, w, rfl⟩ := h; exact keepsLow_rds hL v w
  | snd d rs cb =>
    cases cb with
    | false => obtain rfl := h; exact keepsLow_transmit hL d rs
    | true => obtain ⟨k, -, rfl, -⟩ := h; exact keepsLow_send hL d rs s.bus k
  | ini => obtain ⟨ks, -, rfl⟩ := h; exact keepsLow_init hL ks s.bus
  | clr => obtain rfl := h; exact keepsLow_nil s.cfg

/-- Settles O42: every cycle ends with the enable line low, and the events of an operation that ended `OK` are whole
cycles. -/
theorem enableLowAfterOk : Obligations.EnableLowAfterOk := by
  intro s t i hL hexec hcode
  obtain ⟨es, htrace, hes⟩ := ok_events hexec hcode
  exact ⟨es, htrace, okEvents_keepsLow hL hes none (enableLow_none s.cfg)⟩

/-! ### Pulses -/

section
variable {c : Config} (hL : c.layout.wf = true)
include hL

theorem pulses_wrn (n : Nibble) (rs rw : Bool) : enablePulses c (wrnEvents c n rs rw) = 1 := by
  simp [wrnEvents, settled, pulses_append, enablePulses, enHigh_lineByte hL]

theorem pulses_rdn (rs rw : Bool) (v : Byte) : enablePulses c (rdnEvents c rs rw v) = 1 := by
  simp [rdnEvents, settled, pulses_append, enablePulses, enHigh_lineByte hL]

theorem pulses_rds (v w : Byte) : enablePulses c (rdsEvents c v w) = 2 := by
  rw [rdsEvents, pulses_append, pulses_rdn hL, pulses_rdn hL]

theorem pulses_transmit (d : Byte) (rs : Bool) : enablePulses c (transmitEvents c d rs) = 2 := by
  rw [transmitEvents, pulses_append, pulses_wrn hL, pulses_wrn hL]

theorem pulses_polls (b : Transport) (k : Nat) : enablePulses c (pollEvents c b k) = 2 * k := by
  induction k with
  | zero => rfl
  | succ k ih =>
    have hgap : enablePulses c (if k = 0 then [] else delayEvents c.tPollGap) = 0 := by
      split
      · rfl
      · exact pulses_delay c c.tPollGap
    rw [pollEvents, pulses_append, pulses_append, ih, hgap, statusReadEvents, pulses_rds hL]
    omega

theorem pulses_send (d : Byte) (rs : Bool) (b : Transport) (k : Nat) :
    enablePulses c (sendEvents c d rs b k) = 2 + 2 * (k + 1) := by
  rw [sendEvents, pulses_append, pulses_transmit hL, pulses_polls hL]

end

/-- Settles O43: a cycle is one pulse; a status read, a transmit phase and a poll are two cycles each. -/
theorem enablePulsesAndNibblePhase : Obligations.EnablePulsesAndNibblePhase := by
  intro s t i hL hexec hcode
  obtain ⟨es, htrace, hes⟩ := ok_events hexec hcode
  refine ⟨es, htrace, ?_⟩
  cases i with
  | wrn n rs rw => obtain rfl := hes; simp [Instr.op, pulses_wrn hL]
  | rdn rs rw => obtain ⟨v, rfl⟩ := hes; simp [Instr.op, pulses_rdn hL]
  | rds => obtain ⟨v, w, rfl⟩ := hes; simp [Instr.op, pulses_rds hL]
  | snd d rs cb =>
    cases cb with
    | false => obtain rfl := hes; simp [Instr.op, pulses_transmit hL]
    | true => obtain ⟨k, -, rfl, -⟩ := hes; simp [Instr.op, pulses_send hL]
  | ini | clr => simp [Instr.op]

end Sys2Proof.Machine
end

section
/-! PROOFS. How many transfers a busy-checked send makes (42_command_dispatcher.md R146), also where a transfer fails. -/

namespace Sys2Proof.Machine

/-- The body makes at most `w` successful writes and `r` successful reads, whether or not it raises. -/
def Result.AtMost {α : Type} (s : State) (w r : Nat) (x : Result α) : Prop :=
  ∃ es, x.final.trace = s.trace ++ es ∧ countW es ≤ w ∧ countR es ≤ r

/-- A body that writes registers only, or only waits. -/
theorem atMost_zero {α : Type} {s : State} {x : Result α} (h : x.final.trace = s.trace) : x.AtMost s 0 0 :=
  ⟨[], by simp [h], Nat.le_refl _, Nat.le_refl _⟩

theorem Result.AtMost.after {α : Type} {s t : State} {w w' r r' : Nat} {x : Result α} {es : List Event}
    (h : x.AtMost t w' r') (htrace : t.trace = s.trace ++ es) (hw : countW es ≤ w) (hr : countR es ≤ r) :
    x.AtMost s (w + w') (r + r') := by
  obtain ⟨fs, hfs, hw', hr'⟩ := h
  refine ⟨es ++ fs, by rw [hfs, htrace, List.append_assoc], ?_, ?_⟩
  · rw [countW_append]; omega
  · rw [countR_append]; omega

theorem Result.AtMost.andThen {α β : Type} {s : State} {w w' r r' : Nat} {x : Result α} {k : α → State → Result β}
    (h : x.AtMost s w r) (hk : ∀ a t, x = .ok a t → (k a t).AtMost t w' r') : (x.andThen k).AtMost s (w + w') (r + r') := by
  obtain ⟨es, htrace, hw, hr⟩ := h
  cases x with
  | ok a t => exact (hk a t rfl).after htrace hw hr
  | raised c t => exact ⟨es, htrace, by omega, by omega⟩

theorem countW_settled (c : Config) (e : Event) : countW (settled c e) = countW [e] := by
  rw [settled, ← List.singleton_append, countW_append, countW_delay, Nat.add_zero]

theorem countR_settled (c : Config) (e : Event) : countR (settled c e) = countR [e] := by
  rw [settled, ← List.singleton_append, countR_append, countR_delay, Nat.add_zero]

theorem busWrite_atMost (b : Byte) (s : State) : (busWrite b s).AtMost s 1 0 := by
  cases h : (s.bus.at 0).ok with
  | true =>
    rw [busWrite_ok h]
    exact ⟨_, rfl, (countW_settled _ _).le, (countR_settled _ _).le⟩
  | false =>
    rw [busWrite_failed h]
    exact ⟨_, rfl, Nat.zero_le _, Nat.le_refl _⟩

theorem busRead_atMost (s : State) : (busRead s).AtMost s 0 1 := by
  cases h : (s.bus.at 0).ok with
  | true =>
    rw [busRead_ok h]
    exact ⟨_, rfl, (countW_settled _ _).le, (countR_settled _ _).le⟩
  | false =>
    rw [busRead_failed h]
    exact ⟨_, rfl, Nat.le_refl _, Nat.zero_le _⟩

theorem wrnBody_atMost (n : Nibble) (rs rw : Bool) (s : State) : (wrnBody n rs rw s).AtMost s 3 0 :=
  (busWrite_atMost _ s).andThen (w' := 2) fun _ t _ => (busWrite_atMost _ t).andThen fun _ u _ => busWrite_atMost _ u

theorem rdnBody_atMost (rs rw : Bool) (s : State) : (rdnBody rs rw s).AtMost s 3 1 :=
  (busWrite_atMost _ s).andThen (w' := 2) (r' := 1) fun _ t _ => (busWrite_atMost _ t).andThen (w' := 1) fun _ u _ =>
    (busRead_atMost u).andThen fun _ v _ => (busWrite_atMost _ v).andThen fun _ _ _ => atMost_zero rfl

theorem rdsBody_atMost (s : State) : (rdsBody s).AtMost s 6 2 :=
  (rdnBody_atMost false true s).andThen fun hi t _ =>
    (rdnBody_atMost false true (t.latchHigh hi)).andThen fun _ _ _ => atMost_zero rfl

/-- At most `n` polls. -/
theorem pollLoop_atMost (n : Nat) (s : State) : (pollLoop n s).AtMost s (6 * n) (2 * n) := by
  induction n generalizing s with
  | zero => exact atMost_zero rfl
  | succ n ih =>
    rw [Nat.mul_succ, Nat.mul_succ, Nat.add_comm _ 6, Nat.add_comm _ 2]
    refine (rdsBody_atMost s).andThen fun b t _ => ?_
    dsimp only
    split
    · exact ⟨[], by simp [Result.final], Nat.zero_le _, Nat.zero_le _⟩
    · split
      · exact ⟨[], by simp [Result.final], Nat.zero_le _, Nat.zero_le _⟩
      · have h := (ih (t.countPoll.delay t.countPoll.cfg.tPollGap)).after (s := t) (w := 0) (r := 0) rfl
          (countW_delay _).le (countR_delay _).le
        rwa [Nat.zero_add, Nat.zero_add] at h

theorem transmit_atMost (d : Byte) (rs : Bool) (s : State) : (transmit d rs s).AtMost s 6 0 :=
  (wrnBody_atMost (hiNibble d) rs false (s.setStatus .busy)).andThen fun _ t _ => wrnBody_atMost (loNibble d) rs false t

theorem transmit_cfg {d : Byte} {rs : Bool} {s t : State} {a : Unit} (h : transmit d rs s = .ok a t) : t.cfg = s.cfg := by
  have hlawful := transmit_lawful d rs s
  rw [h] at hlawful
  obtain ⟨es, htraffic, -⟩ := hlawful
  exact htraffic.cfg

theorem sndBody_atMost (d : Byte) (rs : Bool) (s : State) :
    (sndBody d rs true s).AtMost s (6 + 6 * s.cfg.pollBound.toNat) (2 * s.cfg.pollBound.toNat) := by
  have h : (sndBody d rs true s).AtMost s (6 + 6 * s.cfg.pollBound.toNat) (0 + 2 * s.cfg.pollBound.toNat) := by
    refine (transmit_atMost d rs s).andThen fun _ t ht => ?_
    rw [if_pos rfl, ← transmit_cfg ht]
    exact pollLoop_atMost _ t.clearPolls
  rwa [Nat.zero_add] at h

theorem counts_send (c : Config) (d : Byte) (rs : Bool) (b : Transport) (k : Nat) :
    countW (transmitEvents c d rs ++ pollEvents c b k) = 6 + 6 * k ∧
    countR (transmitEvents c d rs ++ pollEvents c b k) = 2 * k := by
  obtain ⟨hw, hr, -⟩ := counts_transmit c d rs
  obtain ⟨hw', hr'⟩ := counts_poll c b k
  rw [countW_append, countR_append]
  omega

/-- Settles O44: the three ways of `sndBody_cases`; a send that is let through makes its writes and those of its polls
(`counts_send`), and one that fails makes no more than the bound allows (`sndBody_atMost`). -/
theorem sndTransferCounts : Obligations.SndTransferCounts := by
  intro s t d rs hphase hstatus hwf hexec
  obtain ⟨hbound, -, -⟩ := cfg_wf_iff.mp hwf
  have hadmit : admission (Instr.snd d rs true).op s = none := admit_operational hphase hstatus nofun
  rcases sndBody_cases d rs hbound with ⟨k, ⟨-, hk, -, -⟩, hbody⟩ | ⟨-, hbody⟩ | ⟨u, hbody, -, -⟩
  · rw [exec_of_ok hadmit (andThen_of_ok hbody)] at hexec
    cases hexec
    obtain ⟨hw, hr⟩ := counts_send s.cfg d rs (s.bus.after 6) (k + 1)
    have hfits := s.cfg.pollBound.isLt
    have hcount : (BitVec.ofNat 5 (k + 1)).toNat = k + 1 := by rw [BitVec.toNat_ofNat]; omega
    refine ⟨_, rfl, fun _ => ⟨k + 1, by omega, hk, hcount, hw, hr⟩, fun h => absurd h (by simp), ?_, ?_⟩
    · exact hw.le.trans (by omega)
    · exact hr.le.trans (by omega)
  · rw [exec_of_raised hadmit (andThen_of_raised hbody)] at hexec
    cases hexec
    obtain ⟨hw, hr⟩ := counts_send s.cfg d rs (s.bus.after 6) s.cfg.pollBound.toNat
    exact ⟨_, rfl, fun h => absurd h (by simp [takeException, Cause.code]), fun _ => ⟨rfl, hw, hr⟩, hw.le, hr.le⟩
  · obtain ⟨es, htrace, hw, hr⟩ := sndBody_atMost d rs s
    rw [hbody] at htrace
    rw [exec_of_raised hadmit (andThen_of_raised hbody)] at hexec
    cases hexec
    exact ⟨es, htrace, fun h => absurd h (by simp [takeException, Cause.code]),
      fun h => absurd h (by simp [takeException, Cause.code]), hw, hr⟩

end Sys2Proof.Machine
end

section
/-! PROOFS. The least durations (70_reset_and_hazards.md R251). -/

namespace Sys2Proof.Machine

section
variable {c : Config} (h1 : c.tSettle = 1)
include h1

theorem time_wrn (n : Nibble) (rs rw : Bool) : minTime (wrnEvents c n rs rw) = 3 := by
  rw [(counts_wrn c n rs rw).2.2, h1]; rfl

theorem time_rdn (rs rw : Bool) (v : Byte) : minTime (rdnEvents c rs rw v) = 4 := by
  rw [(counts_rdn c rs rw v).2.2, h1]; rfl

theorem time_rds (v w : Byte) : minTime (rdsEvents c v w) = 8 := by
  rw [rdsEvents, minTime_append, time_rdn h1, time_rdn h1]

theorem time_transmit (d : Byte) (rs : Bool) : minTime (transmitEvents c d rs) = 6 := by
  rw [(counts_transmit c d rs).2.2, h1]; rfl

theorem time_timeout (h2 : c.tPollGap = 0) (d : Byte) (rs : Bool) (b : Transport) (k : Nat) :
    minTime (transmitEvents c d rs ++ pollEvents c b k) = 6 + 8 * k := by
  rw [minTime_append, time_transmit h1, time_poll c b k h2, h1]; rfl

end

/-- The least times of the operations that end `OK`, `INI` apart. -/
theorem ok_durations {s t : State} {i : Instr} {es : List Event} (h1 : s.cfg.tSettle = 1) (h2 : s.cfg.tPollGap = 0)
    (h : OkEvents s t es i) :
    (i.op = .wrn → minTime es = 3) ∧ (i.op = .rdn → minTime es = 4) ∧ (i.op = .rds → minTime es = 8) ∧
    (∀ d rs, i = .snd d rs false → minTime es = 6) ∧
    (∀ d rs, i = .snd d rs true → ∃ k, sendReady s.cfg s.bus k ∧ minTime es = 6 + 8 * (k + 1)) := by
  cases i with
  | wrn n rs rw => obtain rfl := h; simp [Instr.op, time_wrn h1]
  | rdn rs rw => obtain ⟨v, rfl⟩ := h; simp [Instr.op, time_rdn h1]
  | rds => obtain ⟨v, w, rfl⟩ := h; simp [Instr.op, time_rds h1]
  | snd d rs cb =>
    cases cb with
    | false => obtain rfl := h; simp [Instr.op, time_transmit h1]
    | true =>
      obtain ⟨k, hk, rfl, -⟩ := h
      have htime := time_send s.cfg d rs s.bus k h1 h2
      simp only [Instr.op, reduceCtorEq, false_implies, true_and, Instr.snd.injEq, Bool.true_eq_false, and_false, and_true,
        implies_true]
      exact fun _ _ _ => ⟨k, hk, htime⟩
  | ini | clr => simp [Instr.op]

theorem snd_timeout_duration {s t : State} {d : Byte} {rs : Bool} (hwf : s.cfg.wf = true) (h1 : s.cfg.tSettle = 1)
    (h2 : s.cfg.tPollGap = 0) (hexec : exec (.snd d rs true) s = .next t) (hcode : t.rspCode = 2) :
    ∃ es, t.trace = s.trace ++ es ∧ minTime es = 6 + 8 * s.cfg.pollBound.toNat := by
  obtain ⟨hbound, -, -⟩ := cfg_wf_iff.mp hwf
  obtain ⟨-, b, u, hraised, rfl⟩ := raised_of_rspCode_two hexec hcode
  have hsnd := andThen_ok_eq_raised hraised
  rcases sndBody_cases d rs hbound with ⟨k, -, hbody⟩ | ⟨-, hbody⟩ | ⟨v, hbody, -, -⟩
  · rw [hbody] at hsnd; cases hsnd
  · rw [hbody] at hsnd; cases hsnd
    exact ⟨_, rfl, time_timeout h1 h2 d rs _ _⟩
  · rw [hbody] at hsnd; cases hsnd

theorem ini_duration {s t : State} (hcfg : s.cfg = Config.default) (hexec : exec .ini s = .next t) (hcode : t.rspCode = 0) :
    ∃ es ks, t.trace = s.trace ++ es ∧ ks.length = 5 ∧ sendsReady s.cfg ks (s.bus.after 13) ∧
      minTime es = 134 + 8 * ks.sum := by
  obtain ⟨d, u, hbody, rfl, -⟩ := exec_ok hexec hcode
  obtain ⟨a, v, hini, hv⟩ := andThen_ok_inv hbody
  obtain ⟨ks, hlength, -, hready, rfl⟩ := iniBody_ok_inv hini
  cases hv
  exact ⟨_, ks, rfl, hlength, hready, by rw [hcfg]; exact time_init ks s.bus hlength⟩

/-- Settles O45: the sums of the settles of each operation's events (`ok_durations`, `snd_timeout_duration`,
`ini_duration`); an `INI` whose every poll is ready at once is that of `iniCompletes` with no further poll. -/
theorem leastDurations : Obligations.LeastDurations := by
  refine ⟨fun s t i h1 h2 _ hexec hcode => ?_, fun s t d rs hwf h1 h2 => snd_timeout_duration hwf h1 h2,
    fun s t hcfg => ini_duration hcfg, fun s hcfg hphase hstatus hok hready => ?_⟩
  · obtain ⟨es, htrace, hes⟩ := ok_events hexec hcode
    exact ⟨es, htrace, ok_durations h1 h2 hes⟩
  · refine ⟨_, _, iniCompletes s [0, 0, 0, 0, 0] hphase hstatus rfl hok hready, rfl, rfl, ?_⟩
    rw [hcfg]
    exact time_init [0, 0, 0, 0, 0] s.bus rfl

end Sys2Proof.Machine
end
